-- ==== Sys2Proof/Word.lean ====
section
/-! DEFINITION. The word types of the CORE: the widths the spec gives its bytes, lanes, command words and response words.
Spec: 00_scope.md rules R7 and R9, section 7; 30_encoding.md rules R40 and R43. Everything is unsigned. -/

namespace Sys2Proof

/-- A byte, 0 to 255 (00_scope.md section 7). -/
abbrev Byte := BitVec 8

/-- Half a byte: the value of one hex digit, the register `hd_hi` (10_state.md R15). -/
abbrev Nibble := BitVec 4

/-- A lane of the state array, `W = 64` bits (00_scope.md R7). -/
abbrev Lane := BitVec 64

/-- A command word, `CW = 16` bits (00_scope.md R9, 30_encoding.md R40). -/
abbrev CommandWord := BitVec 16

/-- A response word, `RW = 24` bits (00_scope.md R9, 30_encoding.md R43). -/
abbrev ResponseWord := BitVec 24

end Sys2Proof
end

