-- ==== Sys2Proof/Syntax.lean ====
section
/-! DEFINITION. The commands of the CORE: one constructor for each of the 16 rows of spec/opcode_table.json.
Spec: 30_encoding.md rules R41, R42 and R45. -/

namespace Sys2Proof

/-- A command with its operand (30_encoding.md R45). A format Z command has no operand; a format B command carries the
unsigned 8-bit number `cw[7:0]` (R42), every value of which decodes (R41). -/
inductive Instr where
  /-- STATUS: return the status word (44_system.md R115). -/
  | status
  /-- SRST: soft reset (44_system.md R116). -/
  | srst
  /-- INIT: start a new message (41_digest_engine.md R76). -/
  | init
  /-- ABSORB b: absorb one message byte (41_digest_engine.md R77). -/
  | absorb (b : Byte)
  /-- FINAL: pad, permute, make the digest available (41_digest_engine.md R78). -/
  | final
  /-- SQZ i: read byte i of the digest (41_digest_engine.md R79). -/
  | sqz (i : Byte)
  /-- HXE_PFX: return the characters `0x` (42_hex_codec.md R91). -/
  | hxePfx
  /-- HXE_BYTE b: return the two hex digits of a byte (42_hex_codec.md R92). -/
  | hxeByte (b : Byte)
  /-- HXD_START: begin decoding a hex string (42_hex_codec.md R93). -/
  | hxdStart
  /-- HXD_CHAR c: give the decoder one character (42_hex_codec.md R94). -/
  | hxdChar (c : Byte)
  /-- HXD_END: end of the hex string, verdict (42_hex_codec.md R95). -/
  | hxdEnd
  /-- NH_ROOT: load the root node (43_name_hasher.md R107). -/
  | nhRoot
  /-- NH_CLR: begin loading a parent node hash (43_name_hasher.md R108). -/
  | nhClr
  /-- NH_LDB b: load one byte of the parent node hash (43_name_hasher.md R109). -/
  | nhLdb (b : Byte)
  /-- NH_CHILD: replace the node by its child (43_name_hasher.md R110). -/
  | nhChild
  /-- NH_RD i: read byte i of the node register (43_name_hasher.md R111). -/
  | nhRd (i : Byte)
  deriving DecidableEq, Repr

end Sys2Proof
end

