-- ==== Sys2Proof/WellFormed.lean ====
section
/-! DEFINITION. Which commands are well formed: for a command as data, and for a command as a host writes it down (a mnemonic
and perhaps an operand), where the checks are. Spec: 30_encoding.md rules R41, R42 and R49. -/

namespace Sys2Proof

/-- A command as data is always well formed: its operand is an 8-bit number by its type, and every value of that field
decodes (R41, R42). What a command does with an operand it will not take (an index of 32 or more, a wrong character)
is its meaning's, not a matter of form. -/
def Instr.wellFormed (i : Instr) : Bool :=
  match i with
  | .status => true
  | .srst => true
  | .init => true
  | .absorb _ => true
  | .final => true
  | .sqz _ => true
  | .hxePfx => true
  | .hxeByte _ => true
  | .hxdStart => true
  | .hxdChar _ => true
  | .hxdEnd => true
  | .nhRoot => true
  | .nhClr => true
  | .nhLdb _ => true
  | .nhChild => true
  | .nhRd _ => true

/-- The 16 mnemonics of 30_encoding.md R45, as R49's written form of a command names them. -/
inductive Mnemonic where
  | STATUS | SRST
  | INIT | ABSORB | FINAL | SQZ
  | HXE_PFX | HXE_BYTE | HXD_START | HXD_CHAR | HXD_END
  | NH_ROOT | NH_CLR | NH_LDB | NH_CHILD | NH_RD
  deriving DecidableEq, Repr

/-- The two formats of a command (R41): `Z` has no operand, `B` has a byte. -/
inductive Format where
  | Z | B
  deriving DecidableEq, Repr

/-- The format of each mnemonic (R41, R45). -/
def Mnemonic.format (m : Mnemonic) : Format :=
  match m with
  | .STATUS => .Z
  | .SRST => .Z
  | .INIT => .Z
  | .ABSORB => .B
  | .FINAL => .Z
  | .SQZ => .B
  | .HXE_PFX => .Z
  | .HXE_BYTE => .B
  | .HXD_START => .Z
  | .HXD_CHAR => .B
  | .HXD_END => .Z
  | .NH_ROOT => .Z
  | .NH_CLR => .Z
  | .NH_LDB => .B
  | .NH_CHILD => .Z
  | .NH_RD => .B

/-- A command as R49 writes it: a mnemonic, and an operand as a number where one is written. -/
structure Written where
  mnemonic : Mnemonic
  operand  : Option Nat
  deriving DecidableEq, Repr

/-- R49: "Format Z takes no operand"; format B is followed by one, a number 0..255. Three ways to be ill formed: an
operand after a format Z mnemonic, none after a format B mnemonic, a number of 256 or more. -/
def Written.wellFormed (w : Written) : Bool :=
  match w.mnemonic.format, w.operand with
  | .Z, none => true
  | .Z, some _ => false
  | .B, none => false
  | .B, some n => decide (n ≤ 255)

end Sys2Proof
end

