-- ==== Sys2Proof/Decode.lean ====
section
/-! DEFINITION. The command decoder, total on all 65536 words; the encoder; the opcode table with its masks; and the assembler's
reading of a written command. Spec: 30_encoding.md rules R40 to R49. -/

namespace Sys2Proof

/-- `cw[15:8]`, the opcode field (R40). -/
def opcodeField (cw : CommandWord) : Byte := cw.extractLsb' 8 8

/-- `cw[7:0]`, the operand field (R40), used as an unsigned number (R42). -/
def operandField (cw : CommandWord) : Byte := cw.extractLsb' 0 8

/-- Format Z: the operand field must be `0x00`, any other value makes the word illegal (R41, R46 b). -/
def formatZ (b : Byte) (i : Instr) : Option Instr := if b = 0x00 then some i else none

/-- R48: decode by the whole opcode; a word with an undefined opcode, or of format Z with a non-zero operand, is none of
the 16 commands. Decoding reads no register. -/
def decode (cw : CommandWord) : Option Instr :=
  let b := operandField cw
  match opcodeField cw with
  | 0x01#8 => formatZ b .status
  | 0x02#8 => formatZ b .srst
  | 0x10#8 => formatZ b .init
  | 0x11#8 => some (.absorb b)
  | 0x12#8 => formatZ b .final
  | 0x13#8 => some (.sqz b)
  | 0x20#8 => formatZ b .hxePfx
  | 0x21#8 => some (.hxeByte b)
  | 0x28#8 => formatZ b .hxdStart
  | 0x29#8 => some (.hxdChar b)
  | 0x2A#8 => formatZ b .hxdEnd
  | 0x30#8 => formatZ b .nhRoot
  | 0x31#8 => formatZ b .nhClr
  | 0x32#8 => some (.nhLdb b)
  | 0x33#8 => formatZ b .nhChild
  | 0x34#8 => some (.nhRd b)
  | _ => none

/-- The mnemonic of a command (R45). -/
def Instr.mnemonic (i : Instr) : Mnemonic :=
  match i with
  | .status => .STATUS
  | .srst => .SRST
  | .init => .INIT
  | .absorb _ => .ABSORB
  | .final => .FINAL
  | .sqz _ => .SQZ
  | .hxePfx => .HXE_PFX
  | .hxeByte _ => .HXE_BYTE
  | .hxdStart => .HXD_START
  | .hxdChar _ => .HXD_CHAR
  | .hxdEnd => .HXD_END
  | .nhRoot => .NH_ROOT
  | .nhClr => .NH_CLR
  | .nhLdb _ => .NH_LDB
  | .nhChild => .NH_CHILD
  | .nhRd _ => .NH_RD

/-- The operand a command is encoded with: its byte, or `0x00` for format Z (R41). -/
def Instr.operand (i : Instr) : Byte :=
  match i with
  | .status => 0x00
  | .srst => 0x00
  | .init => 0x00
  | .absorb b => b
  | .final => 0x00
  | .sqz i => i
  | .hxePfx => 0x00
  | .hxeByte b => b
  | .hxdStart => 0x00
  | .hxdChar c => c
  | .hxdEnd => 0x00
  | .nhRoot => 0x00
  | .nhClr => 0x00
  | .nhLdb b => b
  | .nhChild => 0x00
  | .nhRd i => i

/-- The opcode of each mnemonic (R45, column "opcode"). -/
def Mnemonic.opcode (m : Mnemonic) : Byte :=
  match m with
  | .STATUS => 0x01
  | .SRST => 0x02
  | .INIT => 0x10
  | .ABSORB => 0x11
  | .FINAL => 0x12
  | .SQZ => 0x13
  | .HXE_PFX => 0x20
  | .HXE_BYTE => 0x21
  | .HXD_START => 0x28
  | .HXD_CHAR => 0x29
  | .HXD_END => 0x2A
  | .NH_ROOT => 0x30
  | .NH_CLR => 0x31
  | .NH_LDB => 0x32
  | .NH_CHILD => 0x33
  | .NH_RD => 0x34

/-- R49: "The word encoded is `(opcode << 8) + operand`". -/
def encode (i : Instr) : CommandWord :=
  (i.mnemonic.opcode.setWidth 16 <<< 8) + i.operand.setWidth 16

/-- The command a mnemonic and an operand byte stand for; a format Z mnemonic has no use for the byte. -/
def Mnemonic.instr (m : Mnemonic) (b : Byte) : Instr :=
  match m with
  | .STATUS => .status
  | .SRST => .srst
  | .INIT => .init
  | .ABSORB => .absorb b
  | .FINAL => .final
  | .SQZ => .sqz b
  | .HXE_PFX => .hxePfx
  | .HXE_BYTE => .hxeByte b
  | .HXD_START => .hxdStart
  | .HXD_CHAR => .hxdChar b
  | .HXD_END => .hxdEnd
  | .NH_ROOT => .nhRoot
  | .NH_CLR => .nhClr
  | .NH_LDB => .nhLdb b
  | .NH_CHILD => .nhChild
  | .NH_RD => .nhRd b

/-- The command a written command stands for, where it is well formed (R49). -/
def Written.instr (w : Written) : Option Instr :=
  if w.wellFormed then some (w.mnemonic.instr (BitVec.ofNat 8 (w.operand.getD 0))) else none

/-- A row of the opcode table (R41, R45): a word `cw` selects the row for which `cw and mask` equals `pattern`
(the table's column "match"). -/
structure OpcodeRow where
  mnemonic : Mnemonic
  pattern  : CommandWord
  mask     : CommandWord
  deriving DecidableEq, Repr

/-- The opcode table, spec/opcode_table.json and R45, row by row. -/
def opcodeTable : List OpcodeRow :=
  [ ⟨.STATUS, 0x0100, 0xFFFF⟩, ⟨.SRST, 0x0200, 0xFFFF⟩,
    ⟨.INIT, 0x1000, 0xFFFF⟩, ⟨.ABSORB, 0x1100, 0xFF00⟩, ⟨.FINAL, 0x1200, 0xFFFF⟩, ⟨.SQZ, 0x1300, 0xFF00⟩,
    ⟨.HXE_PFX, 0x2000, 0xFFFF⟩, ⟨.HXE_BYTE, 0x2100, 0xFF00⟩,
    ⟨.HXD_START, 0x2800, 0xFFFF⟩, ⟨.HXD_CHAR, 0x2900, 0xFF00⟩, ⟨.HXD_END, 0x2A00, 0xFFFF⟩,
    ⟨.NH_ROOT, 0x3000, 0xFFFF⟩, ⟨.NH_CLR, 0x3100, 0xFFFF⟩, ⟨.NH_LDB, 0x3200, 0xFF00⟩,
    ⟨.NH_CHILD, 0x3300, 0xFFFF⟩, ⟨.NH_RD, 0x3400, 0xFF00⟩ ]

/-- Whether a word selects a row (R41). -/
def OpcodeRow.selects (r : OpcodeRow) (cw : CommandWord) : Bool := cw &&& r.mask == r.pattern

/-- The row's reading of a word it is selected by (R41, R42). -/
def OpcodeRow.instr (r : OpcodeRow) (cw : CommandWord) : Instr := r.mnemonic.instr (operandField cw)

/-- The command whose bits are the low `nbits` bits of `w`. Every command is one 16-bit word (R40, R47), so there is
none for a row of more than 16 bits, and bits above `nbits` are 0. Log entry 15. -/
def decodeTableWord (nbits w : Nat) : Option Instr :=
  if nbits ≤ 16 then decode (BitVec.ofNat 16 (w % 2 ^ nbits)) else none

end Sys2Proof
end

