-- ==== Sys2Proof/Config.lean ====
section
/-! DEFINITION. What an implementation of the CORE fixes and the spec leaves open: the one open parameter `MAXLEN`.
Spec: 00_scope.md rule R8; 92_eei_decisions.md D14; 93_implementation_defined.md U1. -/

namespace Sys2Proof

/-- `MAXLEN` of the instance that starts at `Machine.State.reset`: the largest message length in bytes the Digest
Engine accepts, or `none` for no limit (R8). The spec leaves both the existence and the value of the limit to the
implementation, so this constant has no body: no proof can see what it is. Log entry 3. -/
opaque Config.maxLen : Option Nat

end Sys2Proof
end

