-- ==== Sys2Proof/Machine/State.lean ====
section
/-! DEFINITION. The state of the CORE as plain data, its reset value, and the reasons a step can stop (the CORE has none).
Spec: 10_state.md rules R10 to R25; 00_scope.md R5 and R8; 30_encoding.md R43. -/

namespace Sys2Proof.Machine

/-- Five lanes with one `y`: the lanes `A[0,y]` to `A[4,y]` of the state array (10_state.md R10). -/
structure Plane where
  x0 : Lane
  x1 : Lane
  x2 : Lane
  x3 : Lane
  x4 : Lane
  deriving DecidableEq, Repr

/-- The state array, 1600 bits, stored as the 25 lanes `A[x,y]` (R10); its 200 bytes `S[0..199]` are the same bits and
are computed from the lanes (20_memory.md R28, `StateArray.byte`). -/
structure StateArray where
  y0 : Plane
  y1 : Plane
  y2 : Plane
  y3 : Plane
  y4 : Plane
  deriving DecidableEq, Repr

/-- The phase `ph` of the Digest Engine (R13). -/
inductive Phase where
  /-- 0: no message in progress, no digest available. -/
  | idle
  /-- 1: INIT has been given, FINAL has not. -/
  | absorb
  /-- 2: `S[0..31]` is the digest of the message. -/
  | squeeze
  /-- 3: the message exceeded `MAXLEN`. -/
  | failed
  deriving DecidableEq, Repr

/-- The phase `hd_ph` of the hex decoder (R14); the values 6 and 7 are never taken and are no values of this type. -/
inductive HdPhase where
  /-- 0: no string in progress. -/
  | hdIdle
  /-- 1: the next character must be `0`. -/
  | hdP0
  /-- 2: the next character must be `x`. -/
  | hdP1
  /-- 3: an even number of digits seen. -/
  | hdHi
  /-- 4: an odd number of digits seen; the high digit is in `hd_hi`. -/
  | hdLo
  /-- 5: the string in progress is malformed. -/
  | hdFailed
  deriving DecidableEq, Repr

/-- The result codes of a response (30_encoding.md R44); the codes 6 to 15 are never produced and are no values here. -/
inductive Status where
  /-- 0: the command was carried out. -/
  | ok
  /-- 1: malformed hex input. -/
  | formatError
  /-- 2: message longer than `MAXLEN`. -/
  | capacityError
  /-- 3: the command is not allowed in the unit's present phase. -/
  | sequenceError
  /-- 4: the command word is not a defined command. -/
  | illegalCommand
  /-- 5: a byte index of 32 or more. -/
  | operandError
  deriving DecidableEq, Repr

/-- The state of the CORE, the parameter it was built with, and its two streams.
`arr`, `pos`, `cnt`, `ph` belong to the Digest Engine, `hdPh`, `hdHi` to the Hex Codec, `node`, `np` to the Name Hasher
(10_state.md section 2). `maxLen` is the parameter `MAXLEN`, which no step changes (R8, R23, R136; log entry 3).
`cmdIn` and `respOut` are the model's own: the command words the host has presented and the CORE has not taken yet,
oldest first, and the response words it has returned, oldest first (R5, 20_memory.md R27; log entry 1). -/
structure State where
  /-- The state array `A[x,y]`, the same bits as `S[0..199]` (R10). -/
  arr     : StateArray
  /-- The absorb position `pos`, 0..135 (R11). -/
  pos     : Fin 136
  /-- The count `cnt` of message bytes since INIT, an unbounded natural number (R12; log entry 6). -/
  cnt     : Nat
  /-- The phase `ph` of the Digest Engine (R13). -/
  ph      : Phase
  /-- The phase `hd_ph` of the hex decoder (R14). -/
  hdPh    : HdPhase
  /-- The high digit `hd_hi` of the byte being decoded, 0..15 (R15). -/
  hdHi    : Nibble
  /-- The node register `NODE[0..31]` (R16). -/
  node    : Vector Byte 32
  /-- The node load pointer `np`, 0..32 (R17). -/
  np      : Fin 33
  /-- The parameter `MAXLEN` of this instance (R8). -/
  maxLen  : Option Nat
  /-- The command stream: words presented and not yet taken, oldest first. -/
  cmdIn   : List CommandWord
  /-- The response stream: words returned, oldest first. -/
  respOut : List ResponseWord
  deriving DecidableEq, Repr

/-- The reasons a step stops with a fault: none. Every command word yields a next state and a response (00_scope.md R5);
what the spec calls an error is a response whose status is not `OK` (60_exceptions.md R120). No one raises a fault. Safe. -/
inductive Fault where
  deriving DecidableEq, Repr

/-- The reasons a command has no meaning here. The CORE never refuses (00_scope.md R5). -/
inductive Refusal where
  /-- A command without a meaning in this model: raised by an arm of `exec` only, by no arm at present. Safe. -/
  | notModelled (mnemonic : String)
  deriving DecidableEq, Repr

/-- Five lanes of zeros. -/
def Plane.zero : Plane := ⟨0, 0, 0, 0, 0⟩

/-- The state array with all 1600 bits 0: `S[i] = 0x00` for i in 0..199. -/
def StateArray.zero : StateArray := ⟨.zero, .zero, .zero, .zero, .zero⟩

/-- The reset state of an instance whose parameter is `maxLen` (R25): every register 0, nothing presented to the command port,
nothing answered. -/
def State.resetWith (maxLen : Option Nat) : State where
  arr := .zero
  pos := 0
  cnt := 0
  ph := .idle
  hdPh := .hdIdle
  hdHi := 0
  node := Vector.replicate 32 0
  np := 0
  maxLen := maxLen
  cmdIn := []
  respOut := []

/-- The machine right after a hardware reset (R25, 70_reset_and_hazards.md R136). -/
def State.reset : State := .resetWith Config.maxLen

end Sys2Proof.Machine
end

