-- ==== Sys2Proof/Machine/Flags.lean ====
section
/-! DEFINITION. Everything a host can test: the numbers of the phases and of the status codes, the response word, and the status
word that STATUS returns. The CORE has no condition codes and no arithmetic flags (10_state.md R20).
Spec: 10_state.md rules R13, R14, R20, R21; 30_encoding.md rules R43, R44. -/

namespace Sys2Proof.Machine

/-- The number of a phase of the Digest Engine (R13). -/
def Phase.code (p : Phase) : BitVec 2 :=
  match p with
  | .idle => 0
  | .absorb => 1
  | .squeeze => 2
  | .failed => 3

/-- The number of a phase of the hex decoder (R14). -/
def HdPhase.code (p : HdPhase) : BitVec 3 :=
  match p with
  | .hdIdle => 0
  | .hdP0 => 1
  | .hdP1 => 2
  | .hdHi => 3
  | .hdLo => 4
  | .hdFailed => 5

/-- The number of a status (R44). -/
def Status.code (st : Status) : BitVec 4 :=
  match st with
  | .ok => 0
  | .formatError => 1
  | .capacityError => 2
  | .sequenceError => 3
  | .illegalCommand => 4
  | .operandError => 5

/-- R43: the response word `(st << 20) + (n << 16) + d`. -/
def responseWord (st : Status) (n : BitVec 4) (d : BitVec 16) : ResponseWord :=
  (st.code.setWidth 24 <<< 20) + (n.setWidth 24 <<< 16) + d.setWidth 24

/-- Bits 23:20 of a response word, its status code (R43). -/
def statusField (r : ResponseWord) : BitVec 4 := r.extractLsb' 20 4

/-- Bits 19:16 of a response word, its number of payload items (R43). -/
def countField (r : ResponseWord) : BitVec 4 := r.extractLsb' 16 4

/-- Bits 15:0 of a response word, its payload (R43). -/
def dataField (r : ResponseWord) : BitVec 16 := r.extractLsb' 0 16

/-- `nv`: the node register holds a complete node hash (10_state.md R17). -/
def nodeValid (s : State) : Bool := s.np == 32

/-- The status word (R21, 44_system.md R115): `pos` in 15:8, `nv` in 5, `hd_ph` in 4:2, `ph` in 1:0, bits 7:6 zero. -/
def statusWord (s : State) : BitVec 16 :=
  (BitVec.ofNat 16 s.pos.val <<< 8) ||| ((BitVec.ofBool (nodeValid s)).setWidth 16 <<< 5)
    ||| (s.hdPh.code.setWidth 16 <<< 2) ||| s.ph.code.setWidth 16

end Sys2Proof.Machine
end

