-- ==== Sys2Proof/Machine/Ops.lean ====
section
/-! DEFINITION. The named operations every meaning is built from: the lanes and the bytes of the state array, the two ways a
command ends (`respond`, and `raise` for an error), and taking a command word from the port.
Spec: 20_memory.md rules R27 to R29; 30_encoding.md R43; 60_exceptions.md rules R120, R128, R129; 00_scope.md section 7. -/

namespace Sys2Proof.Machine

/-- A plane from its lanes. -/
def Plane.build (f : Fin 5 → Lane) : Plane := ⟨f 0, f 1, f 2, f 3, f 4⟩

/-- The lane of a plane at `x`. -/
def Plane.lane (p : Plane) (x : Fin 5) : Lane :=
  match x with
  | 0 => p.x0
  | 1 => p.x1
  | 2 => p.x2
  | 3 => p.x3
  | 4 => p.x4

/-- The plane of a state array at `y`. -/
def StateArray.plane (a : StateArray) (y : Fin 5) : Plane :=
  match y with
  | 0 => a.y0
  | 1 => a.y1
  | 2 => a.y2
  | 3 => a.y3
  | 4 => a.y4

/-- `A[x,y]` (10_state.md R10). Arithmetic on `x` and `y` is modulo 5 by their type (40_permutation.md R57). -/
def StateArray.lane (a : StateArray) (x y : Fin 5) : Lane := (a.plane y).lane x

/-- The state array whose lane `A[x,y]` is `f x y`. -/
def StateArray.build (f : Fin 5 → Fin 5 → Lane) : StateArray :=
  ⟨.build fun x => f x 0, .build fun x => f x 1, .build fun x => f x 2, .build fun x => f x 3, .build fun x => f x 4⟩

/-- `A[x,y] <- v`. -/
def StateArray.setLane (a : StateArray) (x y : Fin 5) (v : Lane) : StateArray :=
  .build fun x' y' => if x' = x ∧ y' = y then v else a.lane x' y'

/-- `x` of the lane that holds byte `i`: `(i div 8) mod 5` (20_memory.md R28). -/
def laneX (i : Fin 200) : Fin 5 := ⟨i.val / 8 % 5, by omega⟩

/-- `y` of the lane that holds byte `i`: `(i div 8) div 5` (20_memory.md R28). -/
def laneY (i : Fin 200) : Fin 5 := ⟨i.val / 8 / 5, by omega⟩

/-- The index of byte `k`, counted from the least significant, of lane `(x, y)`: `8*l + k` with `l = x + 5*y` (R28). -/
def byteIndex (x y : Fin 5) (k : Fin 8) : Fin 200 := ⟨8 * (x.val + 5 * y.val) + k.val, by omega⟩

/-- `S[i] = (A[(i div 8) mod 5, (i div 8) div 5] >> (8*(i mod 8))) and 0xFF` (R28). -/
def StateArray.byte (a : StateArray) (i : Fin 200) : Byte :=
  (a.lane (laneX i) (laneY i) >>> (8 * (i.val % 8))).setWidth 8

/-- `S[i] <- S[i] xor b`: the eight bits of `S[i]` where they stand in their lane (R29). -/
def StateArray.xorByte (a : StateArray) (i : Fin 200) (b : Byte) : StateArray :=
  a.setLane (laneX i) (laneY i) (a.lane (laneX i) (laneY i) ^^^ (b.setWidth 64 <<< (8 * (i.val % 8))))

/-- A lane from its eight bytes, the byte of the lowest address least significant (R28). -/
def laneOfBytes (f : Fin 8 → Byte) : Lane :=
  (f 0).setWidth 64 + ((f 1).setWidth 64 <<< 8) + ((f 2).setWidth 64 <<< 16) + ((f 3).setWidth 64 <<< 24)
    + ((f 4).setWidth 64 <<< 32) + ((f 5).setWidth 64 <<< 40) + ((f 6).setWidth 64 <<< 48) + ((f 7).setWidth 64 <<< 56)

/-- The state array whose byte `S[i]` is `f i` (R28). -/
def StateArray.ofBytes (f : Fin 200 → Byte) : StateArray :=
  .build fun x y => laneOfBytes fun k => f (byteIndex x y k)

/-- The digest window `S[0..31]` (20_memory.md R30). -/
def StateArray.window (a : StateArray) : Vector Byte 32 := Vector.ofFn fun i => a.byte (i.castLE (by decide))

/-- `RATE`, the rate in bytes (00_scope.md R6). -/
def rate : Nat := 136

/-- `PAD_FIRST`, xored in at the first position after the message (00_scope.md R6). -/
def padFirst : Byte := 0x01

/-- `PAD_LAST`, xored in at the last byte of the rate part (00_scope.md R7). -/
def padLast : Byte := 0x80

/-- The absorb position as an index into `S`. -/
def State.posIndex (s : State) : Fin 200 := s.pos.castLE (by decide)

/-- The response word goes out on the response stream (20_memory.md R27, R36); no register changes. -/
def State.reply (s : State) (r : ResponseWord) : State := { s with respOut := s.respOut ++ [r] }

/-- `respond(st, n, d)`: end the command with a response word (00_scope.md section 7, 30_encoding.md R43). -/
def respond (st : Status) (n : BitVec 4) (d : BitVec 16) (s : State) : Host.Outcome State Fault Refusal :=
  .next (s.reply (responseWord st n d))

/-- `respond(OK)`, which abbreviates `respond(OK, 0, 0)`. -/
def respondOk (s : State) : Host.Outcome State Fault Refusal := respond .ok 0 0 s

/-- `respond(OK, 1, zext_16(b))`: the command returns one byte. -/
def respondByte (b : Byte) (s : State) : Host.Outcome State Fault Refusal := respond .ok 1 (b.setWidth 16) s

/-- Two characters as payload: the first in `data[15:8]`, the second in `data[7:0]` (20_memory.md R31 item 5). -/
def twoChars (c d : Byte) : BitVec 16 := (c.setWidth 16 <<< 8) ||| d.setWidth 16

/-- `raise E`: the CORE's only form of exception, an error response (60_exceptions.md R120). Nothing is saved, no mode
changes, control goes nowhere, and the response carries no data (R128). There is no return from it: the next command
word is taken as usual, and a sticky phase is left by INIT, HXD_START, HXD_END or SRST (R129). -/
def raise (e : Status) (s : State) : Host.Outcome State Fault Refusal := respond e 0 0 s

/-- The command word the CORE takes next, and the state with it taken from the command stream; `none` while the host
has presented none (20_memory.md R36, R38; log entry 1). -/
def fetch (s : State) : Option (CommandWord × State) :=
  match s.cmdIn with
  | [] => none
  | w :: rest => some (w, { s with cmdIn := rest })

end Sys2Proof.Machine
end

