-- ==== Sys2Proof/Machine/Operands.lean ====
section
/-! DEFINITION. The three uses of the operand of a command (a data byte, a character code, a byte index), and the conversions
between nibbles and hex digits. Spec: 30_encoding.md R42; 42_hex_codec.md rules R85 and R86; 60_exceptions.md R125. -/

namespace Sys2Proof.Machine

/-- A byte index operand: 0..31 is legal, 32..255 is not (30_encoding.md R42). -/
def indexOperand (i : Byte) : Option (Fin 32) :=
  if h : i.toNat < 32 then some ⟨i.toNat, h⟩ else none

/-- An index 0..31 as an index into `S`. -/
def windowIndex (i : Fin 32) : Fin 200 := i.castLE (by decide)

/-- The character `0`, first of the two characters that open a hex string (42_hex_codec.md R85). -/
def charZero : Byte := 0x30

/-- The character `x`, second of the two characters that open a hex string (R85). -/
def charX : Byte := 0x78

/-- `hexchar(v)`, the code of the lowercase digit (R85). -/
def hexchar (v : Nibble) : Byte :=
  if v ≤ 9 then 0x30 + v.setWidth 8 else 0x61 + (v.setWidth 8 - 10)

/-- `hexval(c)`, the value of a hex digit of either case, or `none` (R85). -/
def hexval (c : Byte) : Option Nibble :=
  if 0x30 ≤ c ∧ c ≤ 0x39 then some ((c - 0x30).setWidth 4)
  else if 0x61 ≤ c ∧ c ≤ 0x66 then some ((c - 0x61 + 10).setWidth 4)
  else if 0x41 ≤ c ∧ c ≤ 0x46 then some ((c - 0x41 + 10).setWidth 4)
  else none

/-- `pack(hi, lo) = (hi << 4) or lo` (R86). -/
def pack (hi lo : Nibble) : Byte := (hi.setWidth 8 <<< 4) ||| lo.setWidth 8

/-- The high four bits of a byte, `b >> 4` (R86). -/
def hiNibble (b : Byte) : Nibble := (b >>> 4).setWidth 4

/-- The low four bits of a byte, `b and 0x0F` (R86). -/
def loNibble (b : Byte) : Nibble := (b &&& 0x0F).setWidth 4

end Sys2Proof.Machine
end

