-- ==== Sys2Proof/Machine/Permutation.lean ====
section
/-! DEFINITION. The permutation Keccak-f[1600], the function `KeccakF` used inside ABSORB, FINAL and NH_CHILD.
Spec: 40_permutation.md rules R57 to R67. The spec marks all of that file as supplied from general knowledge and checked
against the source's vectors (93_implementation_defined.md GK1 to GK5). -/

namespace Sys2Proof.Machine

/-- `rol64(v, n)`, for n in 0..63: `((v << n) or (v >> (64 - n)))` truncated to 64 bits when n > 0, and v when n = 0
(R58). -/
def rol64 (v : Lane) (n : Nat) : Lane := if n = 0 then v else (v <<< n) ||| (v >>> (64 - n))

/-- `C[x]` of theta, the parity of a column plane (R59). -/
def thetaC (a : StateArray) (x : Fin 5) : Lane :=
  a.lane x 0 ^^^ a.lane x 1 ^^^ a.lane x 2 ^^^ a.lane x 3 ^^^ a.lane x 4

/-- `D[x] = C[(x+4) mod 5] xor rol64(C[(x+1) mod 5], 1)` of theta (R59). -/
def thetaD (a : StateArray) (x : Fin 5) : Lane := thetaC a (x + 4) ^^^ rol64 (thetaC a (x + 1)) 1

/-- Theta (R59). -/
def theta (a : StateArray) : StateArray := .build fun x y => a.lane x y ^^^ thetaD a x

/-- The rotation offsets by lane index `l = x + 5*y` (R60). -/
def rotTable : List Nat :=
  [0, 1, 62, 28, 27,
   36, 44, 6, 55, 20,
   3, 10, 43, 25, 39,
   41, 45, 15, 21, 8,
   18, 2, 61, 56, 14]

/-- `ROT[x,y]` (R60). -/
def rot (x y : Fin 5) : Nat := rotTable.getD (x.val + 5 * y.val) 0

/-- Rho: `A'[x,y] = rol64(A[x,y], ROT[x,y])` (R60). -/
def rho (a : StateArray) : StateArray := .build fun x y => rol64 (a.lane x y) (rot x y)

/-- Pi: `A'[x,y] = A[(x + 3*y) mod 5, x]` (R61). -/
def pi (a : StateArray) : StateArray := .build fun x y => a.lane (x + 3 * y) x

/-- Chi: `A'[x,y] = A[x,y] xor ((not A[(x+1) mod 5, y]) and A[(x+2) mod 5, y])` (R62). -/
def chi (a : StateArray) : StateArray :=
  .build fun x y => a.lane x y ^^^ (~~~(a.lane (x + 1) y) &&& a.lane (x + 2) y)

/-- The table of round constants as R63 lays it out: row `k`, k in 0..11, holds `RC[k]` and `RC[k+12]`. -/
def rcRows : List (Lane × Lane) :=
  [ (0x0000000000000001, 0x000000008000808B),
    (0x0000000000008082, 0x800000000000008B),
    (0x800000000000808A, 0x8000000000008089),
    (0x8000000080008000, 0x8000000000008003),
    (0x000000000000808B, 0x8000000000008002),
    (0x0000000080000001, 0x8000000000000080),
    (0x8000000080008081, 0x000000000000800A),
    (0x8000000000008009, 0x800000008000000A),
    (0x000000000000008A, 0x8000000080008081),
    (0x0000000000000088, 0x8000000000008080),
    (0x0000000080008009, 0x0000000080000001),
    (0x000000008000000A, 0x8000000080008008) ]

/-- `RC[ir]`: the left column of R63's table for `ir` below 12, the right column from 12 on. -/
def rc (ir : Fin 24) : Lane :=
  let row := rcRows.getD (ir.val % 12) (0, 0)
  if ir.val < 12 then row.1 else row.2

/-- Iota: `A'[0,0] = A[0,0] xor RC[ir]`, all other lanes unchanged (R63). -/
def iota (ir : Fin 24) (a : StateArray) : StateArray := a.setLane 0 0 (a.lane 0 0 ^^^ rc ir)

/-- `Round(A, ir) = iota(chi(pi(rho(theta(A)))), ir)` (R65). -/
def round (a : StateArray) (ir : Fin 24) : StateArray := iota ir (chi (pi (rho (theta a))))

/-- `KeccakF`: the rounds `ir = 0` up to `ir = 23`, in that order (R66). The bytes of R66 are the lanes of the state
array read by R28, so there is nothing to convert. -/
def keccakF (a : StateArray) : StateArray := (List.finRange 24).foldl round a

/-- The walk of R60 that regenerates the offsets: the lane indices and offsets met from `(x, y)` on, starting at step `t`. -/
def rotWalk (fuel t : Nat) (x y : Fin 5) : List (Fin 5 × Fin 5 × Nat) :=
  match fuel with
  | 0 => []
  | fuel + 1 => (x, y, ((t + 1) * (t + 2) / 2) % 64) :: rotWalk fuel (t + 1) y (2 * x + 3 * y)

/-- One step of the 8-bit register of R64: shift left into 9 bits, and xor `0x171` if bit 8 is 1. -/
def rcShift (r : BitVec 9) : BitVec 9 :=
  let r' := r <<< 1
  if r'.getLsbD 8 then r' ^^^ 0x171 else r'

/-- The register of R64 after `n` steps from `0x01`. -/
def rcRegister (n : Nat) : BitVec 9 :=
  match n with
  | 0 => 0x01
  | n + 1 => rcShift (rcRegister n)

/-- The bit `rc(t)` of R64. -/
def rcBit (t : Nat) : Bool := (rcRegister (t % 255)).getLsbD 0

/-- The round constant that R64 regenerates: bit `2^j - 1` is `rc(j + 7*ir)` for j in 0..6, all other bits 0. -/
def rcRegenerated (ir : Fin 24) : Lane :=
  (List.range 7).foldl
    (fun v j => if rcBit (j + 7 * ir.val) then v ||| (1#64 <<< (2 ^ j - 1)) else v) 0

end Sys2Proof.Machine
end

