-- ==== Sys2Proof/Machine/Sponge.lean ====
section
/-! DEFINITION. The function `digest`: Keccak-256 as a function of a whole message, with the original Keccak padding. The commands
compute the same function one byte at a time (Machine/DigestEngine.lean). Spec: 41_digest_engine.md rules R68 to R74. -/

namespace Sys2Proof.Machine

/-- The `q = 136 - (n mod 136)` padding bytes of a message of `n` bytes: `0x81` alone, or `0x01`, zeros, `0x80` (R70). -/
def padding (n : Nat) : List Byte :=
  let q := rate - n % rate
  if q = 1 then [0x81] else [0x01] ++ List.replicate (q - 2) 0x00 ++ [0x80]

/-- `pad(m)` (R70). -/
def pad (m : List Byte) : List Byte := m ++ padding m.length

/-- `for i in 0 .. 135: S[i] <- S[i] xor P[136*j + i]` (R71 step 2), a byte beyond the end of `p` being `0x00`. -/
def xorBlock (p : List Byte) (a : StateArray) (j : Nat) : StateArray :=
  (List.finRange 136).foldl (fun a i => a.xorByte (i.castLE (by decide)) (p.getD (rate * j + i.val) 0x00)) a

/-- The state array after the first `k` blocks of `p` have been absorbed, each xored in and permuted (R71 steps 1, 2). -/
def absorbBlocks (p : List Byte) (k : Nat) : StateArray :=
  (List.range k).foldl (fun a j => keccakF (xorBlock p a j)) .zero

/-- The sponge of R71: absorb all blocks of `pad(m)`, and read `S[0..31]`. -/
def digest (m : List Byte) : Vector Byte 32 :=
  let p := pad m
  (absorbBlocks p (p.length / rate)).window

/-- The state array that holds a message in progress: its whole blocks absorbed, the bytes of the block begun xored in
(41_digest_engine.md section 2; 10_state.md R26 item 3). -/
def absorbed (m : List Byte) : StateArray :=
  xorBlock m (absorbBlocks m (m.length / rate)) (m.length / rate)

end Sys2Proof.Machine
end

