-- ==== Sys2Proof/Machine/DigestEngine.lean ====
section
/-! DEFINITION. The Digest Engine's commands INIT, ABSORB, FINAL and SQZ. Spec: 41_digest_engine.md rules R75 to R83. -/

namespace Sys2Proof.Machine

/-- INIT (R76): accepted in every phase. -/
def execInit (s : State) : Host.Outcome State Fault Refusal :=
  respondOk { s with arr := .zero, pos := 0, cnt := 0, ph := .absorb }

/-- The step of ABSORB that takes the byte (R77): xor it in at `S[pos]`, count it, and permute when it is the 136th byte
of the block, `pos` going from 135 to 0. -/
def absorbByte (b : Byte) (s : State) : State :=
  let a := s.arr.xorByte s.posIndex b
  if h : s.pos.val + 1 = 136 then
    { s with arr := keccakF a, pos := 0, cnt := s.cnt + 1 }
  else
    { s with arr := a, pos := ⟨s.pos.val + 1, by have := s.pos.isLt; omega⟩, cnt := s.cnt + 1 }

/-- ABSORB b (R77): the sticky failure first, then the phase, then the capacity, which sets `ph` to FAILED and changes
nothing else. -/
def execAbsorb (b : Byte) (s : State) : Host.Outcome State Fault Refusal :=
  match s.ph with
  | .failed => raise .capacityError s
  | .idle => raise .sequenceError s
  | .squeeze => raise .sequenceError s
  | .absorb =>
    if s.maxLen = some s.cnt then raise .capacityError { s with ph := .failed }
    else respondOk (absorbByte b s)

/-- The padding that FINAL xors straight into `S`: `PAD_FIRST` at `S[pos]`, `PAD_LAST` at `S[135]` (R78). -/
def padArray (a : StateArray) (pos : Fin 200) : StateArray := (a.xorByte pos padFirst).xorByte 135 padLast

/-- FINAL (R78): pad, permute, and make the digest available; `cnt` stays the message length. -/
def execFinal (s : State) : Host.Outcome State Fault Refusal :=
  match s.ph with
  | .failed => raise .capacityError s
  | .idle => raise .sequenceError s
  | .squeeze => raise .sequenceError s
  | .absorb => respondOk { s with arr := keccakF (padArray s.arr s.posIndex), pos := 0, ph := .squeeze }

/-- SQZ i (R79): the phase is checked before the index; no register changes. -/
def execSqz (i : Byte) (s : State) : Host.Outcome State Fault Refusal :=
  match s.ph with
  | .failed => raise .capacityError s
  | .idle => raise .sequenceError s
  | .absorb => raise .sequenceError s
  | .squeeze =>
    match indexOperand i with
    | none => raise .operandError s
    | some k => respondByte (s.arr.byte (windowIndex k)) s

end Sys2Proof.Machine
end

