-- ==== Sys2Proof/Machine/HexCodec.lean ====
section
/-! DEFINITION. The Hex Codec: the functions `toHex` and `fromHex`, and the commands HXE_PFX, HXE_BYTE, HXD_START, HXD_CHAR and
HXD_END. Spec: 42_hex_codec.md rules R84 to R99. -/

namespace Sys2Proof.Machine

/-- The two hex digits of a byte, the high digit first (R87). -/
def hexDigits (b : Byte) : List Byte := [hexchar (hiNibble b), hexchar (loNibble b)]

/-- `toHex(b)`, as the codes of its characters (R87). -/
def toHex (b : List Byte) : List Byte := [charZero, charX] ++ b.flatMap hexDigits

/-- The bytes of an even number of digit values, two by two; `none` for an odd number (R88). -/
def packPairs (v : List Nibble) : Option (List Byte) :=
  match v with
  | [] => some []
  | [_] => none
  | hi :: lo :: rest => (packPairs rest).map (pack hi lo :: ·)

/-- The values of a string of digits; `none` when one of its characters is no hex digit (R88). -/
def hexvals (ds : List Byte) : Option (List Nibble) := ds.mapM hexval

/-- `fromHex(s)`: the three causes of `FormatError` (no prefix, a character that is no hex digit, an odd number of
digits) are one error (R88). -/
def fromHex (s : List Byte) : Except Status (List Byte) :=
  match s with
  | c :: d :: ds =>
    if c = charZero ∧ d = charX then
      match (hexvals ds).bind packPairs with
      | some bs => .ok bs
      | none => .error .formatError
    else .error .formatError
  | _ => .error .formatError

/-- A code made lowercase where it is an upper-case hex digit (R89). -/
def lowerHex (c : Byte) : Byte := if 0x41 ≤ c ∧ c ≤ 0x46 then c + 0x20 else c

/-- HXE_PFX (R91): the characters `0` and `x`. -/
def execHxePfx (s : State) : Host.Outcome State Fault Refusal := respond .ok 2 (twoChars charZero charX) s

/-- HXE_BYTE b (R92): the two lowercase digits, the high digit in `data[15:8]`. -/
def execHxeByte (b : Byte) (s : State) : Host.Outcome State Fault Refusal :=
  respond .ok 2 (twoChars (hexchar (hiNibble b)) (hexchar (loNibble b))) s

/-- HXD_START (R93): accepted in every phase. -/
def execHxdStart (s : State) : Host.Outcome State Fault Refusal :=
  respondOk { s with hdPh := .hdP0, hdHi := 0 }

/-- A character that no well-formed string has at that place: the string has failed (R94). -/
def hexFail (s : State) : Host.Outcome State Fault Refusal := raise .formatError { s with hdPh := .hdFailed }

/-- HXD_CHAR c (R94). -/
def execHxdChar (c : Byte) (s : State) : Host.Outcome State Fault Refusal :=
  match s.hdPh with
  | .hdIdle => raise .sequenceError s
  | .hdFailed => raise .formatError s
  | .hdP0 => if c = charZero then respondOk { s with hdPh := .hdP1 } else hexFail s
  | .hdP1 => if c = charX then respondOk { s with hdPh := .hdHi } else hexFail s
  | .hdHi =>
    match hexval c with
    | none => hexFail s
    | some v => respondOk { s with hdHi := v, hdPh := .hdLo }
  | .hdLo =>
    match hexval c with
    | none => hexFail s
    | some v => respondByte (pack s.hdHi v) { s with hdPh := .hdHi }

/-- HXD_END (R95): the verdict; the decoder is idle afterwards. -/
def execHxdEnd (s : State) : Host.Outcome State Fault Refusal :=
  match s.hdPh with
  | .hdIdle => raise .sequenceError s
  | .hdHi => respondOk { s with hdPh := .hdIdle }
  | .hdP0 => raise .formatError { s with hdPh := .hdIdle }
  | .hdP1 => raise .formatError { s with hdPh := .hdIdle }
  | .hdLo => raise .formatError { s with hdPh := .hdIdle }
  | .hdFailed => raise .formatError { s with hdPh := .hdIdle }

end Sys2Proof.Machine
end

