-- ==== Sys2Proof/Machine/Text.lean ====
section
/-! DEFINITION. What a host does with text before it reaches the CORE: its UTF-8 bytes, and the labels of a name.
The CORE's ports carry bytes, never text. Spec: 20_memory.md R39; 43_name_hasher.md rules R103, R104. -/

namespace Sys2Proof.Machine

/-- A continuation byte of UTF-8, `0b10xxxxxx`: six bits of the code point, from bit `6*k` up (R39). -/
def utf8Tail (n k : Nat) : Byte := 0x80 ||| BitVec.ofNat 8 (n / 2 ^ (6 * k) % 64)

/-- The UTF-8 bytes of one code point (R39). -/
def utf8Char (c : Char) : List Byte :=
  let n := c.toNat
  if n ≤ 0x7F then [BitVec.ofNat 8 n]
  else if n ≤ 0x7FF then [0xC0 ||| BitVec.ofNat 8 (n / 2 ^ 6), utf8Tail n 0]
  else if n ≤ 0xFFFF then [0xE0 ||| BitVec.ofNat 8 (n / 2 ^ 12), utf8Tail n 1, utf8Tail n 0]
  else [0xF0 ||| BitVec.ofNat 8 (n / 2 ^ 18), utf8Tail n 2, utf8Tail n 1, utf8Tail n 0]

/-- `utf8(t)`: no byte-order mark, no normalisation, no case folding (R39). -/
def utf8 (t : List Char) : List Byte := t.flatMap utf8Char

/-- The segments of a text between its `.` characters, left to right, empty ones kept (R103, R104). -/
def splitDots (t : List Char) : List (List Char) :=
  match t with
  | [] => [[]]
  | c :: cs =>
    if c = '.' then [] :: splitDots cs
    else
      match splitDots cs with
      | [] => [[c]]
      | l :: ls => (c :: l) :: ls

/-- `labels(name)`: no label for the empty name, else the segments (R103). -/
def labels (name : List Char) : List (List Char) := if name = [] then [] else splitDots name

end Sys2Proof.Machine
end

