-- ==== Sys2Proof/Machine/NameHasher.lean ====
section
/-! DEFINITION. The Name Hasher: the functions `rootNode`, `childNode`, `nameHash`, and the commands NH_ROOT, NH_CLR, NH_LDB,
NH_CHILD and NH_RD. Spec: 43_name_hasher.md rules R100 to R114. -/

namespace Sys2Proof.Machine

/-- `rootNode() = digest(empty byte sequence)` (R101). -/
def rootNode : Vector Byte 32 := digest []

/-- The constant `K_ROOT` that NH_ROOT loads, as R101 writes it out. -/
def kRoot : Vector Byte 32 :=
  #v[0xc5, 0xd2, 0x46, 0x01, 0x86, 0xf7, 0x23, 0x3c, 0x92, 0x7e, 0x7d, 0xb2, 0xdc, 0xc7, 0x03, 0xc0,
     0xe5, 0x00, 0xb6, 0x53, 0xca, 0x82, 0x27, 0x3b, 0x7b, 0xfa, 0xd8, 0x04, 0x5d, 0x85, 0xa4, 0x70]

/-- `digest(p || digest(u))` for a parent `p` and a label given as its bytes `u`: parent bytes first (R102). -/
def childOfBytes (p : Vector Byte 32) (u : List Byte) : Vector Byte 32 := digest (p.toList ++ (digest u).toList)

/-- `childNode(parent, label)` (R102). -/
def childNode (p : Vector Byte 32) (l : List Char) : Vector Byte 32 := childOfBytes p (utf8 l)

/-- `nameHash(name)`: from the root, the rightmost label first (R103). -/
def nameHash (name : List Char) : Vector Byte 32 := (labels name).foldr (fun l node => childNode node l) rootNode

/-- NH_ROOT (R107): accepted always; the Digest Engine is not used. -/
def execNhRoot (s : State) : Host.Outcome State Fault Refusal := respondOk { s with node := kRoot, np := 32 }

/-- NH_CLR (R108): the bytes of `NODE` stay, unreadable until 32 new ones are loaded. -/
def execNhClr (s : State) : Host.Outcome State Fault Refusal := respondOk { s with np := 0 }

/-- NH_LDB b (R109): a load into a full register is refused. -/
def execNhLdb (b : Byte) (s : State) : Host.Outcome State Fault Refusal :=
  if h : s.np.val < 32 then
    respondOk { s with node := s.node.set s.np.val b h, np := ⟨s.np.val + 1, by omega⟩ }
  else raise .sequenceError s

/-- The internal array `T` of NH_CHILD before its permutation: `NODE`, the label digest, and the padding of a 64-byte
message (R110). -/
def childArray (node ld : Vector Byte 32) : StateArray :=
  .ofBytes fun i =>
    if h : i.val < 32 then node[i.val]
    else if h' : i.val < 64 then ld[i.val - 32]
    else if i.val = 64 then padFirst
    else if i.val = 135 then padLast
    else 0x00

/-- NH_CHILD (R110): the Digest Engine's phase is checked first, then `np`; the label digest is consumed. -/
def execNhChild (s : State) : Host.Outcome State Fault Refusal :=
  match s.ph with
  | .failed => raise .capacityError s
  | .idle => raise .sequenceError s
  | .absorb => raise .sequenceError s
  | .squeeze =>
    if s.np = 32 then
      respondOk { s with node := (keccakF (childArray s.node s.arr.window)).window,
                         arr := .zero, pos := 0, cnt := 0, ph := .idle }
    else raise .sequenceError s

/-- NH_RD i (R111): validity is checked before the index; no register changes. -/
def execNhRd (i : Byte) (s : State) : Host.Outcome State Fault Refusal :=
  if s.np = 32 then
    match indexOperand i with
    | none => raise .operandError s
    | some k => respondByte s.node[k] s
  else raise .sequenceError s

end Sys2Proof.Machine
end

