-- ==== Sys2Proof/Machine/System.lean ====
section
/-! DEFINITION. The system commands STATUS and SRST, and the answer to an illegal command word.
Spec: 44_system.md rules R115 and R116; 30_encoding.md R46; 60_exceptions.md R124. -/

namespace Sys2Proof.Machine

/-- STATUS (R115): 16 bits of data; no register changes. -/
def execStatus (s : State) : Host.Outcome State Fault Refusal := respond .ok 2 (statusWord s) s

/-- SRST (R116): every register takes its reset value; the parameter `MAXLEN` is no register (70_reset_and_hazards.md R136). -/
def execSrst (s : State) : Host.Outcome State Fault Refusal :=
  respondOk { s with arr := .zero, pos := 0, cnt := 0, ph := .idle, hdPh := .hdIdle, hdHi := 0,
                     node := Vector.replicate 32 0x00, np := 0 }

/-- An illegal command word changes no register and is answered `respond(IllegalCommand, 0, 0)`, in every state (R46, R124). -/
def execIllegal (s : State) : Host.Outcome State Fault Refusal := raise .illegalCommand s

end Sys2Proof.Machine
end

