-- ==== Sys2Proof/Machine/Dispatch.lean ====
section
/-! DEFINITION. The meaning of every command: one arm per constructor of Instr, each one direct call of its meaning. -/

namespace Sys2Proof.Machine

-- 30_encoding.md R48: execute the rule of the command selected by the opcode, with its operand.
def exec (i : Instr) (s : State) : Host.Outcome State Fault Refusal :=
  match i with
  | .status => Sys2Proof.Machine.execStatus s
  | .srst => Sys2Proof.Machine.execSrst s
  | .init => Sys2Proof.Machine.execInit s
  | .absorb b => Sys2Proof.Machine.execAbsorb b s
  | .final => Sys2Proof.Machine.execFinal s
  | .sqz k => Sys2Proof.Machine.execSqz k s
  | .hxePfx => Sys2Proof.Machine.execHxePfx s
  | .hxeByte b => Sys2Proof.Machine.execHxeByte b s
  | .hxdStart => Sys2Proof.Machine.execHxdStart s
  | .hxdChar c => Sys2Proof.Machine.execHxdChar c s
  | .hxdEnd => Sys2Proof.Machine.execHxdEnd s
  | .nhRoot => Sys2Proof.Machine.execNhRoot s
  | .nhClr => Sys2Proof.Machine.execNhClr s
  | .nhLdb b => Sys2Proof.Machine.execNhLdb b s
  | .nhChild => Sys2Proof.Machine.execNhChild s
  | .nhRd k => Sys2Proof.Machine.execNhRd k s

end Sys2Proof.Machine
end

