-- ==== Sys2Proof/Machine/Step.lean ====
section
/-! DEFINITION. One step: take one command word from the command port, execute it completely, return its response.
Spec: 00_scope.md R5; 20_memory.md rules R34 and R36; 30_encoding.md R48. -/

namespace Sys2Proof.Machine

/-- R48: an illegal word is answered `IllegalCommand`, a legal one executes the rule of its command. While the host has
presented no command word the CORE holds its state (70_reset_and_hazards.md R137; log entry 2). -/
def step (s : State) : Host.Outcome State Fault Refusal :=
  match fetch s with
  | none => .next s
  | some (cw, s') =>
    match decode cw with
    | none => execIllegal s'
    | some i => exec i s'

/-- The host presents, as the next word the CORE takes, the 16-bit word whose low `nbits` bits are those of `w` and whose
other bits are 0. Nothing else changes. Log entry 14. -/
def State.withFetchWord (s : State) (nbits w : Nat) : State :=
  { s with cmdIn := BitVec.ofNat 16 (w % 2 ^ nbits) :: s.cmdIn }

end Sys2Proof.Machine
end

