-- ==== Sys2Proof/Machine/Assembler.lean ====
section
/-! DEFINITION. The textual form of a command: one line of assembler text to a command. Spec: 30_encoding.md R49; log entry 12
says what R49 leaves open. -/

namespace Sys2Proof

/-- The mnemonics of R45, each with its text. -/
def mnemonicTexts : List (Mnemonic × List Char) :=
  [ (.STATUS, ['S', 'T', 'A', 'T', 'U', 'S']), (.SRST, ['S', 'R', 'S', 'T']),
    (.INIT, ['I', 'N', 'I', 'T']), (.ABSORB, ['A', 'B', 'S', 'O', 'R', 'B']),
    (.FINAL, ['F', 'I', 'N', 'A', 'L']), (.SQZ, ['S', 'Q', 'Z']),
    (.HXE_PFX, ['H', 'X', 'E', '_', 'P', 'F', 'X']), (.HXE_BYTE, ['H', 'X', 'E', '_', 'B', 'Y', 'T', 'E']),
    (.HXD_START, ['H', 'X', 'D', '_', 'S', 'T', 'A', 'R', 'T']), (.HXD_CHAR, ['H', 'X', 'D', '_', 'C', 'H', 'A', 'R']),
    (.HXD_END, ['H', 'X', 'D', '_', 'E', 'N', 'D']),
    (.NH_ROOT, ['N', 'H', '_', 'R', 'O', 'O', 'T']), (.NH_CLR, ['N', 'H', '_', 'C', 'L', 'R']),
    (.NH_LDB, ['N', 'H', '_', 'L', 'D', 'B']), (.NH_CHILD, ['N', 'H', '_', 'C', 'H', 'I', 'L', 'D']),
    (.NH_RD, ['N', 'H', '_', 'R', 'D']) ]

/-- The mnemonic that a text is, in capitals (R49). -/
def mnemonicOfText (t : List Char) : Option Mnemonic := (mnemonicTexts.find? (fun p => p.2 == t)).map (·.1)

/-- The value of a decimal digit. -/
def decDigit (c : Char) : Option Nat := if '0' ≤ c ∧ c ≤ '9' then some (c.toNat - '0'.toNat) else none

/-- The value of a hexadecimal digit. -/
def hexDigit (c : Char) : Option Nat :=
  if 'a' ≤ c ∧ c ≤ 'f' then some (c.toNat - 'a'.toNat + 10)
  else if 'A' ≤ c ∧ c ≤ 'F' then some (c.toNat - 'A'.toNat + 10)
  else decDigit c

/-- A decimal number, its digits most significant first, read on from the value `acc`. -/
def decNumber (acc : Nat) (ds : List Char) : Option Nat :=
  match ds with
  | [] => some acc
  | d :: rest => (decDigit d).bind fun v => decNumber (10 * acc + v) rest

/-- An operand (R49): a character in single quotes, a hexadecimal byte `0x00..0xFF`, or a decimal number. -/
def operandOfText (t : List Char) : Option Nat :=
  match t with
  | ['\'', c, '\''] => some c.toNat
  | ['0', 'x', h, l] => (hexDigit h).bind fun hv => (hexDigit l).map fun lv => 16 * hv + lv
  | [] => none
  | _ => decNumber 0 t

/-- A line without its comment: a `;` that does not stand in single quotes starts one (R49). -/
def stripComment (t : List Char) : List Char :=
  match t with
  | '\'' :: c :: '\'' :: rest => '\'' :: c :: '\'' :: stripComment rest
  | ';' :: _ => []
  | c :: rest => c :: stripComment rest
  | [] => []

/-- A line without the blanks at its end. -/
def trimEnd (t : List Char) : List Char := (t.reverse.dropWhile (· == ' ')).reverse

/-- A line as a written command: the mnemonic, and after one space the operand (R49). -/
def writtenOfLine (line : List Char) : Option Written :=
  let t := trimEnd (stripComment line)
  let m := t.takeWhile (· != ' ')
  match t.dropWhile (· != ' ') with
  | [] => (mnemonicOfText m).map fun mn => ⟨mn, none⟩
  | _ :: rest => (mnemonicOfText m).bind fun mn => (operandOfText rest).map fun n => ⟨mn, some n⟩

/-- The command that a line of assembler text stands for (R49). -/
def assemble (line : List Char) : Option Instr := (writtenOfLine line).bind Written.instr

/-- The text of a hexadecimal digit, as R49's listings write it. -/
def hexDigitText (v : Nat) : Char := if v ≤ 9 then Char.ofNat ('0'.toNat + v) else Char.ofNat ('a'.toNat + (v - 10))

/-- The text of a mnemonic. -/
def Mnemonic.text (m : Mnemonic) : List Char := ((mnemonicTexts.find? (fun p => p.1 == m)).map (·.2)).getD []

/-- A command as a line of text: the mnemonic, and for format B one space and the operand as a hexadecimal byte (R49). -/
def Instr.line (i : Instr) : List Char :=
  match i.mnemonic.format with
  | .Z => i.mnemonic.text
  | .B => i.mnemonic.text ++ [' ', '0', 'x', hexDigitText (i.operand.toNat / 16), hexDigitText (i.operand.toNat % 16)]

end Sys2Proof
end

