-- ==== Sys2Proof/Machine/PseudoCommands.lean ====
section
/-! DEFINITION. The functions of the source as command sequences, what the host makes of the responses, and a run of the machine
over a sequence of commands. Spec: 30_encoding.md section 8, rules R50 to R56; 41_digest_engine.md R74. -/

namespace Sys2Proof.Machine

/-- The 32 indices of a digest or of `NODE`, in order, as operands. -/
def indexBytes : List Byte := (List.range 32).map (BitVec.ofNat 8)

/-- `INIT; ABSORB m[0]; ...; ABSORB m[n-1]; FINAL`: absorb a message and finish it. -/
def hashSeq (m : List Byte) : List Instr := [.init] ++ m.map .absorb ++ [.final]

/-- `DIGEST m` (R50). -/
def digestSeq (m : List Byte) : List Instr := hashSeq m ++ indexBytes.map .sqz

/-- `TOHEX b` (R51). -/
def toHexSeq (b : List Byte) : List Instr := [.hxePfx] ++ b.map .hxeByte

/-- `FROMHEX s` (R52). -/
def fromHexSeq (s : List Byte) : List Instr := [.hxdStart] ++ s.map .hxdChar ++ [.hxdEnd]

/-- `NH_RD 0; ...; NH_RD 31`. -/
def readNodeSeq : List Instr := indexBytes.map .nhRd

/-- `ROOTNODE` (R54). -/
def rootNodeSeq : List Instr := [.nhRoot] ++ readNodeSeq

/-- `CHILDSTEP l` for a label given as its UTF-8 bytes (R55). -/
def childStepSeq (u : List Byte) : List Instr := hashSeq u ++ [.nhChild]

/-- `NH_CLR; NH_LDB p[0]; ...; NH_LDB p[31]`: load a parent. -/
def loadNodeSeq (p : Vector Byte 32) : List Instr := [.nhClr] ++ p.toList.map .nhLdb

/-- `CHILDNODE p, l` for a label given as its UTF-8 bytes (R55). -/
def childNodeSeq (p : Vector Byte 32) (u : List Byte) : List Instr := loadNodeSeq p ++ childStepSeq u ++ readNodeSeq

/-- `NAMEHASH name`: the labels from the rightmost to the leftmost (R56). -/
def nameHashSeq (name : List Char) : List Instr :=
  [.nhRoot] ++ (labels name).reverse.flatMap (fun l => childStepSeq (utf8 l)) ++ readNodeSeq

/-- `DIGESTHEX m` as the commands given, `d` being the bytes the host has got as the result of `DIGEST m` (R53). -/
def digestHexSeq (m d : List Byte) : List Instr := digestSeq m ++ toHexSeq d

/-- `DIGESTTEXT t` is `DIGESTHEX utf8(t)` (R53), `d` as for DIGESTHEX. -/
def digestTextSeq (t : List Char) (d : List Byte) : List Instr := digestHexSeq (utf8 t) d

/-- `digestHex(m) = toHex(digest(m))` (R74). -/
def digestHex (m : List Byte) : List Byte := toHex (digest m).toList

/-- `digestOfText(t) = toHex(digest(utf8(t)))` (R74). -/
def digestOfText (t : List Char) : List Byte := digestHex (utf8 t)

/-- The payload items of a response, in order (R43): none, the byte in `data[7:0]`, or the two characters in `data[15:8]`
and `data[7:0]`. -/
def payload (r : ResponseWord) : List Byte :=
  if countField r = 1#4 then [(dataField r).setWidth 8]
  else if countField r = 2#4 then [(dataField r >>> 8).setWidth 8, (dataField r).setWidth 8]
  else []

/-- What the host takes the result of a pseudo-command to be: all payloads, if every response is `OK`; otherwise the first
error, the payloads being discarded (30_encoding.md section 8). -/
def hostResult (rs : List ResponseWord) : Except (BitVec 4) (List Byte) :=
  match rs.find? (fun r => statusField r != 0) with
  | some r => .error (statusField r)
  | none => .ok (rs.flatMap payload)

/-- The host presents commands ahead of what the command stream already holds. -/
def State.present (s : State) (is : List Instr) : State := { s with cmdIn := is.map encode ++ s.cmdIn }

/-- The machine runs over a sequence of commands that the host presents: one step for each. -/
def runCommands (is : List Instr) (s : State) : Host.Outcome State Fault Refusal :=
  Host.Core.run Sys2Proof.core is.length (s.present is)

/-- The host runs a command sequence and takes its result from the responses given to it (30_encoding.md section 8). -/
def hostRun (is : List Instr) (s : State) : Host.Outcome (State × Except (BitVec 4) (List Byte)) Fault Refusal :=
  match runCommands is s with
  | .next t => .next (t, hostResult (t.respOut.drop s.respOut.length))
  | .fault r => .fault r
  | .refused r => .refused r

/-- `DIGESTHEX m` (R53): `DIGEST m`, then `TOHEX d` where d is the result of `DIGEST m`, the bytes answered. The result is the
characters that `TOHEX d` answers. Where `DIGEST m` has failed there is no d, and its error is the result. -/
def runDigestHex (m : List Byte) (s : State) : Host.Outcome (State × Except (BitVec 4) (List Byte)) Fault Refusal :=
  match hostRun (digestSeq m) s with
  | .next (t, .ok d) => hostRun (toHexSeq d) t
  | .next (t, .error e) => .next (t, .error e)
  | .fault r => .fault r
  | .refused r => .refused r

/-- `DIGESTTEXT t` is `DIGESTHEX utf8(t)` (R53). -/
def runDigestText (t : List Char) (s : State) : Host.Outcome (State × Except (BitVec 4) (List Byte)) Fault Refusal :=
  runDigestHex (utf8 t) s

end Sys2Proof.Machine
end

