-- ==== Sys2Proof/Safety.lean ====
section
/-! DEFINITION. What counts as a safe run: one that never stops, in states that meet the invariant the spec gives for every
reachable state. Spec: 00_scope.md R5; 10_state.md R26. -/

namespace Sys2Proof.Machine

/-- A run of `n` steps is safe when it ends in a next state: the CORE never hangs, never sticks and never refuses (R5). -/
def SafeRun (n : Nat) (s : State) : Prop := ∃ t : State, Host.Core.run Sys2Proof.core n s = .next t

/-- The message in progress after one more command word and its response: "the `cnt` operand bytes of the ABSORB commands
accepted since the last INIT" (R26 item 4), kept by an observer of the two streams. -/
def messageAfter (cw : CommandWord) (r : ResponseWord) (m : List Byte) : List Byte :=
  match decode cw with
  | some .init => []
  | some (.absorb b) => if statusField r = Status.ok.code then m ++ [b] else m
  | _ => m

/-- The same over one step, from the word taken and the response given; a step that takes no word leaves it. -/
def messageAfterStep (s t : State) (m : List Byte) : List Byte :=
  match s.cmdIn.head?, t.respOut.getLast? with
  | some cw, some r => messageAfter cw r m
  | _, _ => m

/-- R26: what holds in every state reachable from reset, where `m` is the sequence of the operand bytes of the ABSORB commands
accepted since the last INIT. Items 1, 6 and 7 of R26 (the ranges of `pos`, `hd_ph`, `hd_hi`, `np`) hold by the types of the
fields. -/
structure Inv (s : State) (m : List Byte) : Prop where
  /-- R26 item 2. -/
  idle : s.ph = .idle → s.arr = .zero ∧ s.pos = 0 ∧ s.cnt = 0
  /-- R26 item 3. -/
  absorb : s.ph = .absorb → s.pos.val = s.cnt % rate ∧ m.length = s.cnt ∧ s.arr = absorbed m
  /-- R26 item 4. -/
  squeeze : s.ph = .squeeze → s.pos = 0 ∧ m.length = s.cnt ∧ s.arr.window = digest m
  /-- R26 item 5, its first half. -/
  capacity : ∀ k, s.maxLen = some k → s.cnt ≤ k
  /-- R26 item 5, its second half, and R11: `pos` keeps `MAXLEN mod 136`. -/
  failed : s.ph = .failed → s.maxLen = some s.cnt ∧ s.pos.val = s.cnt % rate

/-- The registers of 10_state.md R24, the node register byte by byte. -/
inductive Register where
  | S | pos | cnt | ph | hdPh | hdHi | NODE (j : Fin 32) | np
  deriving DecidableEq, Repr

/-- A register holds the same value in two states. -/
def Register.same (r : Register) (s t : State) : Prop :=
  match r with
  | .S => s.arr = t.arr
  | .pos => s.pos = t.pos
  | .cnt => s.cnt = t.cnt
  | .ph => s.ph = t.ph
  | .hdPh => s.hdPh = t.hdPh
  | .hdHi => s.hdHi = t.hdHi
  | .NODE j => s.node[j] = t.node[j]
  | .np => s.np = t.np

/-- The registers of the Digest Engine (10_state.md section 2.1). -/
def Register.ofDigestEngine (r : Register) : Bool :=
  match r with
  | .S => true
  | .pos => true
  | .cnt => true
  | .ph => true
  | .hdPh => false
  | .hdHi => false
  | .NODE _ => false
  | .np => false

/-- The `r` entries of R24's access matrix. -/
def readsRegister (m : Mnemonic) (r : Register) : Bool :=
  match m, r with
  | .STATUS, .pos => true
  | .STATUS, .ph => true
  | .STATUS, .hdPh => true
  | .STATUS, .np => true
  | .ABSORB, r => r.ofDigestEngine
  | .FINAL, .S => true
  | .FINAL, .pos => true
  | .FINAL, .ph => true
  | .SQZ, .S => true
  | .SQZ, .ph => true
  | .HXD_CHAR, .hdPh => true
  | .HXD_CHAR, .hdHi => true
  | .HXD_END, .hdPh => true
  | .NH_LDB, .np => true
  | .NH_CHILD, .S => true
  | .NH_CHILD, .ph => true
  | .NH_CHILD, .NODE _ => true
  | .NH_CHILD, .np => true
  | .NH_RD, .NODE _ => true
  | .NH_RD, .np => true
  | _, _ => false

/-- The `w` entries of R24's access matrix. -/
def writesRegister (m : Mnemonic) (r : Register) : Bool :=
  match m, r with
  | .SRST, _ => true
  | .INIT, r => r.ofDigestEngine
  | .ABSORB, r => r.ofDigestEngine
  | .FINAL, .S => true
  | .FINAL, .pos => true
  | .FINAL, .ph => true
  | .HXD_START, .hdPh => true
  | .HXD_START, .hdHi => true
  | .HXD_CHAR, .hdPh => true
  | .HXD_CHAR, .hdHi => true
  | .HXD_END, .hdPh => true
  | .NH_ROOT, .NODE _ => true
  | .NH_ROOT, .np => true
  | .NH_CLR, .np => true
  | .NH_LDB, .NODE _ => true
  | .NH_LDB, .np => true
  | .NH_CHILD, .NODE _ => true
  | .NH_CHILD, r => r.ofDigestEngine
  | _, _ => false

/-- The three units of the CORE, and the system commands (30_encoding.md R45, column "unit"). -/
inductive CoreUnit where
  | DE | HC | NH | system
  deriving DecidableEq, Repr

/-- The unit of a command (R45). -/
def unitOf (m : Mnemonic) : CoreUnit :=
  match m with
  | .STATUS => .system
  | .SRST => .system
  | .INIT => .DE
  | .ABSORB => .DE
  | .FINAL => .DE
  | .SQZ => .DE
  | .HXE_PFX => .HC
  | .HXE_BYTE => .HC
  | .HXD_START => .HC
  | .HXD_CHAR => .HC
  | .HXD_END => .HC
  | .NH_ROOT => .NH
  | .NH_CLR => .NH
  | .NH_LDB => .NH
  | .NH_CHILD => .NH
  | .NH_RD => .NH

/-- The matrix of 60_exceptions.md R126: which command can give which status. `IllegalCommand` is given to no command. -/
def possibleStatuses (m : Mnemonic) : List Status :=
  match m with
  | .STATUS => [.ok]
  | .SRST => [.ok]
  | .INIT => [.ok]
  | .ABSORB => [.ok, .capacityError, .sequenceError]
  | .FINAL => [.ok, .capacityError, .sequenceError]
  | .SQZ => [.ok, .capacityError, .sequenceError, .operandError]
  | .HXE_PFX => [.ok]
  | .HXE_BYTE => [.ok]
  | .HXD_START => [.ok]
  | .HXD_CHAR => [.ok, .formatError, .sequenceError]
  | .HXD_END => [.ok, .formatError, .sequenceError]
  | .NH_ROOT => [.ok]
  | .NH_CLR => [.ok]
  | .NH_LDB => [.ok, .sequenceError]
  | .NH_CHILD => [.ok, .capacityError, .sequenceError]
  | .NH_RD => [.ok, .sequenceError, .operandError]

/-- A command, executed in a state, gives a response of this status. -/
def AnswersStatus (i : Instr) (s : State) (st : Status) : Prop :=
  ∃ (t : State) (r : ResponseWord), exec i s = .next t ∧ t.respOut = s.respOut ++ [r] ∧ statusField r = st.code

/-- A code is a hex digit of this value (42_hex_codec.md R85), written with the ranges of the rule. -/
def IsHexDigit (c : Byte) (v : Nibble) : Prop :=
  (0x30 ≤ c.toNat ∧ c.toNat ≤ 0x39 ∧ v.toNat = c.toNat - 0x30)
    ∨ (0x61 ≤ c.toNat ∧ c.toNat ≤ 0x66 ∧ v.toNat = c.toNat - 0x61 + 10)
    ∨ (0x41 ≤ c.toNat ∧ c.toNat ≤ 0x46 ∧ v.toNat = c.toNat - 0x41 + 10)

/-- The instance accepts a message of `n` bytes: `MAXLEN = none` or `n <= MAXLEN` (41_digest_engine.md R80). -/
def Fits (s : State) (n : Nat) : Prop := ∀ k, s.maxLen = some k → n ≤ k

end Sys2Proof.Machine
end

