-- ==== Sys2Proof/Certificates/Slice0/Obligations.lean ====
section
/-! DEFINITION. The statements for the provers, each a rule of the spec or drawn from its rules. A response word is written out as
30_encoding.md R43 builds it: `0x000000` is `OK`, `0x100000` FormatError, `0x200000` CapacityError, `0x300000` SequenceError,
`0x400000` IllegalCommand, `0x500000` OperandError; `0x01....` carries one byte, `0x02....` two characters. -/

open Sys2Proof Sys2Proof.Machine

/-! ### Encoding -/

/-- R41, R45: a word is the command of a row exactly when it matches the row under its mask, and its operand is `cw[7:0]`. -/
def Obligations.DecodeSelectsTheMaskedRow : Prop :=
  ∀ cw : CommandWord,
    (cw &&& 0xFFFF = 0x0100 ↔ decode cw = some .status)
    ∧ (cw &&& 0xFFFF = 0x0200 ↔ decode cw = some .srst)
    ∧ (cw &&& 0xFFFF = 0x1000 ↔ decode cw = some .init)
    ∧ (cw &&& 0xFF00 = 0x1100 ↔ decode cw = some (.absorb (cw.setWidth 8)))
    ∧ (cw &&& 0xFFFF = 0x1200 ↔ decode cw = some .final)
    ∧ (cw &&& 0xFF00 = 0x1300 ↔ decode cw = some (.sqz (cw.setWidth 8)))
    ∧ (cw &&& 0xFFFF = 0x2000 ↔ decode cw = some .hxePfx)
    ∧ (cw &&& 0xFF00 = 0x2100 ↔ decode cw = some (.hxeByte (cw.setWidth 8)))
    ∧ (cw &&& 0xFFFF = 0x2800 ↔ decode cw = some .hxdStart)
    ∧ (cw &&& 0xFF00 = 0x2900 ↔ decode cw = some (.hxdChar (cw.setWidth 8)))
    ∧ (cw &&& 0xFFFF = 0x2A00 ↔ decode cw = some .hxdEnd)
    ∧ (cw &&& 0xFFFF = 0x3000 ↔ decode cw = some .nhRoot)
    ∧ (cw &&& 0xFFFF = 0x3100 ↔ decode cw = some .nhClr)
    ∧ (cw &&& 0xFF00 = 0x3200 ↔ decode cw = some (.nhLdb (cw.setWidth 8)))
    ∧ (cw &&& 0xFFFF = 0x3300 ↔ decode cw = some .nhChild)
    ∧ (cw &&& 0xFF00 = 0x3400 ↔ decode cw = some (.nhRd (cw.setWidth 8)))

/-- Every well-formed command, with every operand, has exactly one word, the encoder's, and every word that decodes is one. -/
def Obligations.DecodeAndEncodeAgree : Prop :=
  ∀ (cw : CommandWord) (i : Instr), decode cw = some i ↔ i.wellFormed = true ∧ cw = encode i

/-- R46: which words are illegal, how many are legal, and what an illegal word does. -/
def Obligations.IllegalWordsAreAnsweredAndChangeNothing : Prop :=
  (∀ cw : CommandWord, decode cw = none ↔
    ((cw >>> 8).toNat ∉ [0x01, 0x02, 0x10, 0x11, 0x12, 0x13, 0x20, 0x21, 0x28, 0x29, 0x2A, 0x30, 0x31, 0x32, 0x33, 0x34]
      ∨ ((cw >>> 8).toNat ∈ [0x01, 0x02, 0x10, 0x12, 0x20, 0x28, 0x2A, 0x30, 0x31, 0x33] ∧ cw &&& 0x00FF ≠ 0)))
  ∧ (∀ N : Nat, N = 2 ^ 16 →
      (List.range N).countP (fun n => (decode (BitVec.ofNat 16 n)).isSome) = 1546
      ∧ (List.range N).countP (fun n => (decode (BitVec.ofNat 16 n)).isNone) = 63990)
  ∧ (∀ (s : State) (cw : CommandWord) (rest : List CommandWord), s.cmdIn = cw :: rest → decode cw = none →
      step s = .next { s with cmdIn := rest, respOut := s.respOut ++ [0x400000#24] })

/-- The four example words of R49 and one word of each unit's other formats, read as the command they stand for. -/
def Obligations.ExampleWordsDecode : Prop :=
  decode 0x1168#16 = some (.absorb 0x68) ∧ decode 0x131F#16 = some (.sqz 31)
  ∧ decode 0x2978#16 = some (.hxdChar 0x78) ∧ decode 0x1200#16 = some .final
  ∧ decode 0x0100#16 = some .status ∧ decode 0x21C5#16 = some (.hxeByte 0xC5)
  ∧ decode 0x341F#16 = some (.nhRd 31) ∧ decode 0x3300#16 = some .nhChild

/-- R49: a command written as text, its operand a hexadecimal byte, assembles to the command. -/
def Obligations.AssemblerReadsWrittenCommands : Prop :=
  ∀ i : Instr, assemble i.line = some i

/-! ### The step and the response -/

/-- A step takes the oldest word presented and executes the command it decodes to; with no word presented the CORE holds its
state (this second half is the model's reading, log entry 2). -/
def Obligations.StepRunsTheDecodedCommand : Prop :=
  (∀ (s : State) (cw : CommandWord) (rest : List CommandWord) (i : Instr),
    s.cmdIn = cw :: rest → decode cw = some i → step s = exec i { s with cmdIn := rest })
  ∧ (∀ s : State, s.cmdIn = [] → step s = .next s)

/-- R43: one response word for each command word, legal or not; how it is built, its fields; what its data holds for each
number of payload items; no data with an error. -/
def Obligations.EveryCommandWordGetsOneResponse : Prop :=
  (∀ (st : Status) (n : BitVec 4) (d : BitVec 16),
    (responseWord st n d).toNat = st.code.toNat * 2 ^ 20 + n.toNat * 2 ^ 16 + d.toNat
      ∧ (responseWord st n d).extractLsb' 20 4 = st.code ∧ (responseWord st n d).extractLsb' 16 4 = n
      ∧ (responseWord st n d).extractLsb' 0 16 = d)
  ∧ (∀ (s : State) (cw : CommandWord) (rest : List CommandWord), s.cmdIn = cw :: rest →
      ∃ (t : State) (r : ResponseWord), step s = .next t ∧ t.cmdIn = rest ∧ t.respOut = s.respOut ++ [r]
        ∧ countField r ≤ 2 ∧ (countField r = 0 → dataField r = 0) ∧ (countField r = 1#4 → dataField r >>> 8 = 0)
        ∧ (countField r = 2#4 → (decode cw = some .status ∧ dataField r = statusWord s)
            ∨ (decode cw = some .hxePfx ∧ dataField r = 0x3078)
            ∨ ∃ b, decode cw = some (.hxeByte b) ∧ dataField r = hexchar (hiNibble b) ++ hexchar (loNibble b))
        ∧ statusField r ≤ 5 ∧ (statusField r ≠ 0 → countField r = 0 ∧ dataField r = 0))

/-- R5, R48: `step` is total; no run of the CORE ever stops. -/
def Obligations.EveryRunIsSafe : Prop :=
  ∀ (n : Nat) (s : State), SafeRun n s

/-- R24: the access matrix. A register with no `w` for the command keeps its value, also when the command ends in an error; and
the response, and what is written, depend on no register without an `r` (and on `MAXLEN`). -/
def Obligations.CommandsTouchOnlyTheirRegisters : Prop :=
  (∀ (i : Instr) (s : State), ∃ t : State, exec i s = .next t ∧ t.maxLen = s.maxLen ∧ t.cmdIn = s.cmdIn
      ∧ ∀ r : Register, writesRegister i.mnemonic r = false → r.same s t)
  ∧ (∀ (i : Instr) (s s' t t' : State), s.maxLen = s'.maxLen →
      (∀ r : Register, readsRegister i.mnemonic r = true → r.same s s') →
      exec i s = .next t → exec i s' = .next t' →
      (∃ w : ResponseWord, t.respOut = s.respOut ++ [w] ∧ t'.respOut = s'.respOut ++ [w])
      ∧ ∀ r : Register, r.same t t' ∨ (r.same s t ∧ r.same s' t'))

/-- R35: reads have no side effects. Any sequence of SQZ, NH_RD, STATUS, HXE_PFX, HXE_BYTE leaves every register as it was, and
each command is answered alike however often and in whatever order it is given. -/
def Obligations.ReadsHaveNoSideEffects : Prop :=
  ∀ s : State, ∃ answer : Instr → ResponseWord, ∀ is : List Instr,
    (∀ i ∈ is, i.mnemonic ∈ [Mnemonic.SQZ, .NH_RD, .STATUS, .HXE_PFX, .HXE_BYTE]) →
    runCommands is s = .next { s with respOut := s.respOut ++ is.map answer }

/-- R36 (c): commands of different units may be interleaved in any way. In a sequence without NH_CHILD, SRST and STATUS, the
commands of one unit are answered as if they had been given alone. -/
def Obligations.UnitsDoNotInterfere : Prop :=
  ∀ (u : CoreUnit) (s : State) (is : List Instr),
    (∀ i ∈ is, i.mnemonic ∉ [Mnemonic.NH_CHILD, .SRST, .STATUS]) →
    ∃ (t t' : State) (rs : List ResponseWord),
      runCommands is s = .next t ∧ rs.length = is.length ∧ t.respOut = s.respOut ++ rs
      ∧ runCommands (is.filter fun i => unitOf i.mnemonic = u) s = .next t'
      ∧ t'.respOut = s.respOut ++ ((is.zip rs).filter fun p => unitOf p.1.mnemonic = u).map Prod.snd

/-! ### Errors -/

/-- R126: exactly which command can give which status. -/
def Obligations.StatusesPossiblePerCommand : Prop :=
  ∀ (m : Mnemonic) (st : Status),
    (∃ (i : Instr) (s : State), i.mnemonic = m ∧ AnswersStatus i s st) ↔ st ∈ possibleStatuses m

/-- R123: the complete list of the cases of `SequenceError`. -/
def Obligations.SequenceErrorExactlyInAWrongPhase : Prop :=
  ∀ (i : Instr) (s : State), AnswersStatus i s .sequenceError ↔
    ((i.mnemonic = .ABSORB ∨ i.mnemonic = .FINAL) ∧ (s.ph = .idle ∨ s.ph = .squeeze))
    ∨ (i.mnemonic = .SQZ ∧ (s.ph = .idle ∨ s.ph = .absorb))
    ∨ (i.mnemonic = .NH_CHILD ∧ (s.ph = .idle ∨ s.ph = .absorb ∨ (s.ph = .squeeze ∧ s.np.val < 32)))
    ∨ ((i.mnemonic = .HXD_CHAR ∨ i.mnemonic = .HXD_END) ∧ s.hdPh = .hdIdle)
    ∨ (i.mnemonic = .NH_LDB ∧ s.np.val = 32)
    ∨ (i.mnemonic = .NH_RD ∧ s.np.val < 32)

/-- R125, and the command-level half of R122: when an index is refused, and when the capacity error is raised. -/
def Obligations.OperandAndCapacityErrorCauses : Prop :=
  ∀ (i : Instr) (s : State),
    (AnswersStatus i s .operandError ↔
      32 ≤ i.operand.toNat ∧ ((i.mnemonic = .SQZ ∧ s.ph = .squeeze) ∨ (i.mnemonic = .NH_RD ∧ s.np.val = 32)))
    ∧ (AnswersStatus i s .capacityError ↔
      (i.mnemonic ∈ [Mnemonic.ABSORB, .FINAL, .SQZ, .NH_CHILD] ∧ s.ph = .failed)
      ∨ (i.mnemonic = .ABSORB ∧ s.ph = .absorb ∧ s.maxLen = some s.cnt))

/-- R121: the causes of `FormatError`. -/
def Obligations.FormatErrorCauses : Prop :=
  ∀ (i : Instr) (s : State), AnswersStatus i s .formatError ↔
    (i.mnemonic = .HXD_CHAR ∧
      ((s.hdPh = .hdP0 ∧ i.operand ≠ 0x30) ∨ (s.hdPh = .hdP1 ∧ i.operand ≠ 0x78)
        ∨ ((s.hdPh = .hdHi ∨ s.hdPh = .hdLo) ∧ ∀ v, ¬ IsHexDigit i.operand v) ∨ s.hdPh = .hdFailed))
    ∨ (i.mnemonic = .HXD_END ∧ s.hdPh ≠ .hdIdle ∧ s.hdPh ≠ .hdHi)

/-- R128: errors are precise. A command word answered with an error changes no register but, in three cases, one phase. -/
def Obligations.ErrorsArePrecise : Prop :=
  ∀ (s t : State) (cw : CommandWord) (rest : List CommandWord) (r : ResponseWord),
    s.cmdIn = cw :: rest → step s = .next t → t.respOut = s.respOut ++ [r] → statusField r ≠ 0 →
    t = { s with cmdIn := rest, respOut := s.respOut ++ [r], ph := t.ph, hdPh := t.hdPh }
    ∧ (t.ph ≠ s.ph → (∃ b, decode cw = some (.absorb b)) ∧ s.ph = .absorb ∧ s.maxLen = some s.cnt
        ∧ t.ph = .failed ∧ statusField r = 2)
    ∧ (t.hdPh ≠ s.hdPh → statusField r = 1 ∧
        (((∃ c, decode cw = some (.hxdChar c)) ∧ s.hdPh ≠ .hdIdle ∧ t.hdPh = .hdFailed)
          ∨ (decode cw = some .hxdEnd ∧ t.hdPh = .hdIdle)))
    ∧ (statusField r ≠ 1 → statusField r ≠ 2 → t.ph = s.ph ∧ t.hdPh = s.hdPh)
    ∧ ((∃ b, decode cw = some (.absorb b)) → s.ph = .absorb → s.maxLen = some s.cnt → t.ph = .failed)
    ∧ ((∃ c, decode cw = some (.hxdChar c)) → s.hdPh ≠ .hdIdle → t.hdPh = .hdFailed)
    ∧ (decode cw = some .hxdEnd → statusField r = 1 → t.hdPh = .hdIdle)

/-- With no limit, no command is ever answered `CapacityError` and the Digest Engine never fails (R8, R122); and no step changes
the parameter. -/
def Obligations.NoLimitNoCapacityError : Prop :=
  ∀ (s t : State) (n : Nat), Host.Core.run Sys2Proof.core n s = .next t →
    t.maxLen = s.maxLen
    ∧ (s.maxLen = none → s.ph ≠ .failed →
        t.ph ≠ .failed ∧ ∃ rs, t.respOut = s.respOut ++ rs ∧ ∀ r ∈ rs, statusField r ≠ 2)

/-! ### System commands and reset -/

/-- R115 and R21: STATUS returns the status word, whose fields are those registers, and changes nothing. -/
def Obligations.StatusReturnsTheStatusWord : Prop :=
  decode 0x0100#16 = some .status
  ∧ (∀ s : State, ∃ d : BitVec 16,
      exec .status s = .next { s with respOut := s.respOut ++ [0x020000#24 + d.setWidth 24] }
      ∧ (d.extractLsb' 8 8).toNat = s.pos.val ∧ d.extractLsb' 6 2 = 0
      ∧ (d.getLsbD 5 = true ↔ s.np.val = 32)
      ∧ d.extractLsb' 2 3 = s.hdPh.code ∧ d.extractLsb' 0 2 = s.ph.code)
  ∧ exec .status State.reset = .next { State.reset with respOut := [0x020000#24] }

/-- R116: SRST puts every register into its reset value, in every phase, and answers `OK`. -/
def Obligations.SrstResetsEveryRegister : Prop :=
  decode 0x0200#16 = some .srst
  ∧ ∀ s : State, ∃ t : State, exec .srst s = .next t
      ∧ (∀ i : Fin 200, t.arr.byte i = 0x00) ∧ t.pos = 0 ∧ t.cnt = 0 ∧ t.ph = .idle ∧ t.hdPh = .hdIdle ∧ t.hdHi = 0
      ∧ (∀ i : Fin 32, t.node[i] = 0x00) ∧ t.np = 0
      ∧ t = { State.resetWith s.maxLen with cmdIn := s.cmdIn, respOut := s.respOut ++ [0x000000#24] }

/-- R25: the reset values. -/
def Obligations.ResetValues : Prop :=
  (∀ x y : Fin 5, State.reset.arr.lane x y = 0) ∧ (∀ i : Fin 200, State.reset.arr.byte i = 0x00)
  ∧ State.reset.pos = 0 ∧ State.reset.cnt = 0 ∧ State.reset.ph = .idle ∧ State.reset.hdPh = .hdIdle
  ∧ State.reset.hdHi = 0 ∧ (∀ i : Fin 32, State.reset.node[i] = 0x00) ∧ State.reset.np = 0

/-! ### The Digest Engine -/

/-- R76: INIT. -/
def Obligations.InitStartsAMessage : Prop :=
  decode 0x1000#16 = some .init
  ∧ ∃ a : StateArray, (∀ i : Fin 200, a.byte i = 0x00)
      ∧ ∀ s : State, exec .init s =
          .next { s with arr := a, pos := 0, cnt := 0, ph := .absorb, respOut := s.respOut ++ [0x000000#24] }

/-- R77: ABSORB, and that the messages `eps` and `0x00` have different digests. -/
def Obligations.AbsorbTakesOneByte : Prop :=
  digest [] ≠ digest [0x00]
  ∧ ∀ (b : Byte) (s : State),
    decode (0x1100#16 + b.setWidth 16) = some (.absorb b)
    ∧ (s.ph = .failed → exec (.absorb b) s = .next { s with respOut := s.respOut ++ [0x200000#24] })
    ∧ (s.ph = .idle ∨ s.ph = .squeeze → exec (.absorb b) s = .next { s with respOut := s.respOut ++ [0x300000#24] })
    ∧ (s.ph = .absorb → s.maxLen = some s.cnt →
        exec (.absorb b) s = .next { s with ph := .failed, respOut := s.respOut ++ [0x200000#24] })
    ∧ (s.ph = .absorb → s.maxLen ≠ some s.cnt → ∃ a : StateArray,
        (∀ j : Fin 200, a.byte j = if j.val = s.pos.val then s.arr.byte j ^^^ b else s.arr.byte j)
        ∧ (s.pos.val = 135 → exec (.absorb b) s =
            .next { s with arr := keccakF a, pos := 0, cnt := s.cnt + 1, respOut := s.respOut ++ [0x000000#24] })
        ∧ (∀ p : Fin 136, p.val = s.pos.val + 1 → exec (.absorb b) s =
            .next { s with arr := a, pos := p, cnt := s.cnt + 1, respOut := s.respOut ++ [0x000000#24] }))

/-- R78: FINAL. -/
def Obligations.FinalPadsAndPermutes : Prop :=
  decode 0x1200#16 = some .final
  ∧ ∀ s : State,
    (s.ph = .failed → exec .final s = .next { s with respOut := s.respOut ++ [0x200000#24] })
    ∧ (s.ph = .idle ∨ s.ph = .squeeze → exec .final s = .next { s with respOut := s.respOut ++ [0x300000#24] })
    ∧ (s.ph = .absorb → ∃ a : StateArray,
        (∀ j : Fin 200, a.byte j = s.arr.byte j ^^^
          ((if j.val = s.pos.val then 0x01#8 else 0x00#8) ^^^ (if j.val = 135 then 0x80#8 else 0x00#8)))
        ∧ exec .final s =
            .next { s with arr := keccakF a, pos := 0, ph := .squeeze, respOut := s.respOut ++ [0x000000#24] })

/-- R79: SQZ. -/
def Obligations.SqzReadsADigestByte : Prop :=
  ∀ (i : Byte) (s : State),
    decode (0x1300#16 + i.setWidth 16) = some (.sqz i)
    ∧ (s.ph = .failed → exec (.sqz i) s = .next { s with respOut := s.respOut ++ [0x200000#24] })
    ∧ (s.ph = .idle ∨ s.ph = .absorb → exec (.sqz i) s = .next { s with respOut := s.respOut ++ [0x300000#24] })
    ∧ (s.ph = .squeeze → 32 ≤ i.toNat → exec (.sqz i) s = .next { s with respOut := s.respOut ++ [0x500000#24] })
    ∧ (s.ph = .squeeze → i.toNat < 32 → ∀ k : Fin 200, k.val = i.toNat →
        exec (.sqz i) s = .next { s with respOut := s.respOut ++ [0x010000#24 + (s.arr.byte k).setWidth 24] })

/-- R75: the phase table of the Digest Engine. -/
def Obligations.DigestEnginePhaseTable : Prop :=
  ∀ (i : Instr) (s t : State), exec i s = .next t →
    (i.mnemonic = .INIT → t.ph = .absorb ∧ AnswersStatus i s .ok)
    ∧ (i.mnemonic = .SRST → t.ph = .idle ∧ AnswersStatus i s .ok)
    ∧ (i.mnemonic ∉ [Mnemonic.INIT, .ABSORB, .FINAL, .SQZ, .NH_CHILD, .SRST] → t.ph = s.ph)
    ∧ (i.mnemonic ∈ [Mnemonic.ABSORB, .FINAL, .SQZ, .NH_CHILD] →
        (s.ph = .idle → t.ph = s.ph ∧ AnswersStatus i s .sequenceError)
        ∧ (s.ph = .failed → t.ph = s.ph ∧ AnswersStatus i s .capacityError))
    ∧ (i.mnemonic = .ABSORB → s.ph = .absorb →
        (s.maxLen = some s.cnt → t.ph = .failed ∧ AnswersStatus i s .capacityError)
        ∧ (s.maxLen ≠ some s.cnt → t.ph = s.ph ∧ AnswersStatus i s .ok))
    ∧ (i.mnemonic = .FINAL → s.ph = .absorb → t.ph = .squeeze ∧ AnswersStatus i s .ok)
    ∧ (i.mnemonic ∈ [Mnemonic.SQZ, .NH_CHILD] → s.ph = .absorb → t.ph = s.ph ∧ AnswersStatus i s .sequenceError)
    ∧ (i.mnemonic ∈ [Mnemonic.ABSORB, .FINAL] → s.ph = .squeeze → t.ph = s.ph ∧ AnswersStatus i s .sequenceError)
    ∧ (i.mnemonic = .SQZ → s.ph = .squeeze → t.ph = s.ph
        ∧ (i.operand.toNat < 32 → AnswersStatus i s .ok) ∧ (32 ≤ i.operand.toNat → AnswersStatus i s .operandError))
    ∧ (i.mnemonic = .NH_CHILD → s.ph = .squeeze →
        (s.np.val = 32 → t.ph = .idle ∧ AnswersStatus i s .ok)
        ∧ (s.np.val < 32 → t.ph = s.ph ∧ AnswersStatus i s .sequenceError))

/-- R80: the command sequence computes the function `digest`, from every state. -/
def Obligations.HashSequenceComputesTheDigest : Prop :=
  ∀ (m : List Byte) (s : State), Fits s m.length →
    ∃ t : State, runCommands (hashSeq m) s = .next t
      ∧ t.respOut = s.respOut ++ List.replicate (m.length + 2) 0x000000#24
      ∧ t.ph = .squeeze ∧ t.arr.window = digest m
      ∧ ∀ (i : Fin 32) (u : State), u.ph = .squeeze → u.arr = t.arr →
          exec (.sqz (BitVec.ofNat 8 i.val)) u =
            .next { u with respOut := u.respOut ++ [0x010000#24 + ((digest m)[i]).setWidth 24] }

/-- R81: the responses to `DIGEST m` do not depend on the state in which the sequence starts, for messages of any length. -/
def Obligations.DigestResponsesIgnoreTheStartState : Prop :=
  ∀ (m : List Byte) (s s' : State), s.maxLen = s'.maxLen →
    ∃ (t t' : State) (rs : List ResponseWord),
      runCommands (digestSeq m) s = .next t ∧ t.respOut = s.respOut ++ rs
      ∧ runCommands (digestSeq m) s' = .next t' ∧ t'.respOut = s'.respOut ++ rs

/-- R83: more than `MAXLEN` ABSORBs after an INIT. Number `MAXLEN + 1` and every later ABSORB, FINAL, SQZ and NH_CHILD until the
next INIT or SRST is answered `CapacityError`, and `DIGEST m` as a whole fails with it. -/
def Obligations.MessagesOverTheLimitFail : Prop :=
  ∀ (s : State) (k : Nat), s.maxLen = some k →
    (∀ (m : List Byte) (later : List Instr), k < m.length →
      (∀ i ∈ later, i.mnemonic ≠ .INIT ∧ i.mnemonic ≠ .SRST) →
      ∃ (t : State) (rs : List ResponseWord),
        runCommands ([.init] ++ m.map .absorb ++ later) s = .next t
        ∧ t.respOut = s.respOut ++ List.replicate (k + 1) 0x000000#24 ++ List.replicate (m.length - k) 0x200000#24 ++ rs
        ∧ rs.length = later.length
        ∧ ∀ p ∈ later.zip rs, p.1.mnemonic ∈ [Mnemonic.ABSORB, .FINAL, .SQZ, .NH_CHILD] → p.2 = 0x200000#24)
    ∧ (∀ m : List Byte, k < m.length → ∃ (t : State) (rs : List ResponseWord),
        runCommands (digestSeq m) s = .next t ∧ t.respOut = s.respOut ++ rs ∧ hostResult rs = .error 2)

/-- R70: padding. -/
def Obligations.PaddingFillsTheLastBlock : Prop :=
  ∀ m : List Byte,
    (136 - m.length % 136 = 1 → pad m = m ++ [0x81])
    ∧ (2 ≤ 136 - m.length % 136 →
        pad m = m ++ 0x01 :: (List.replicate (136 - m.length % 136 - 2) 0x00 ++ [0x80]))
    ∧ (pad m).length % 136 = 0 ∧ m.length < (pad m).length
    ∧ (∀ n, n % 136 = 0 → m.length < n → (pad m).length ≤ n)

/-! ### The permutation -/

/-- R28 and R29: the two views of the state array are the same bits. -/
def Obligations.BytesAndLanesAreTheSameBits : Prop :=
  (∀ (a : StateArray) (x y : Fin 5) (b : Fin 8 → Fin 200), (∀ k, (b k).val = 8 * (x.val + 5 * y.val) + k.val) →
    a.lane x y = (a.byte (b 0)).setWidth 64 + ((a.byte (b 1)).setWidth 64 <<< 8) + ((a.byte (b 2)).setWidth 64 <<< 16)
      + ((a.byte (b 3)).setWidth 64 <<< 24) + ((a.byte (b 4)).setWidth 64 <<< 32) + ((a.byte (b 5)).setWidth 64 <<< 40)
      + ((a.byte (b 6)).setWidth 64 <<< 48) + ((a.byte (b 7)).setWidth 64 <<< 56))
  ∧ (∀ (a : StateArray) (i : Fin 200) (x y : Fin 5), x.val = i.val / 8 % 5 → y.val = i.val / 8 / 5 →
      a.byte i = (a.lane x y >>> (8 * (i.val % 8)) &&& 0xFF).setWidth 8
      ∧ ∀ j < 8, (a.byte i).getLsbD j = (a.lane x y).getLsbD (8 * (i.val % 8) + j))
  ∧ (∀ a b : StateArray, (∀ i : Fin 200, a.byte i = b.byte i) → a = b)
  ∧ (∀ f : Fin 200 → Byte, ∃ a : StateArray, ∀ i : Fin 200, a.byte i = f i)

/-- R58: rotation, its formula, and that it moves bit z to bit `(z + n) mod 64`. -/
def Obligations.RotationMovesEveryBit : Prop :=
  rol64 0x8000000000000000 1 = 0x0000000000000001
  ∧ ∀ (v : Lane) (n : Nat), n < 64 →
    (n = 0 → rol64 v n = v) ∧ (0 < n → rol64 v n = (v <<< n) ||| (v >>> (64 - n)))
    ∧ ∀ z, z < 64 → (rol64 v n).getLsbD ((z + n) % 64) = v.getLsbD z

/-- R59, R61, R62: theta, pi and chi, lane by lane; pi also by the two lists of lane indices. -/
def Obligations.ThetaPiAndChiLaneByLane : Prop :=
  (∀ (a : StateArray) (C D : Fin 5 → Lane),
    (∀ x, C x = a.lane x 0 ^^^ a.lane x 1 ^^^ a.lane x 2 ^^^ a.lane x 3 ^^^ a.lane x 4) →
    (∀ x, D x = C (x + 4) ^^^ rol64 (C (x + 1)) 1) →
    ∀ x y, (theta a).lane x y = a.lane x y ^^^ D x)
  ∧ (∀ (a : StateArray) (x y : Fin 5), (pi a).lane y (2 * x + 3 * y) = a.lane x y ∧ (pi a).lane x y = a.lane (x + 3 * y) x)
  ∧ (∀ (a : StateArray) (l : Fin 25) (dest src : Nat),
      [0, 10, 20, 5, 15, 16, 1, 11, 21, 6, 7, 17, 2, 12, 22, 23, 8, 18, 3, 13, 14, 24, 9, 19, 4][l.val]? = some dest →
      [0, 6, 12, 18, 24, 3, 9, 10, 16, 22, 1, 7, 13, 19, 20, 4, 5, 11, 17, 23, 2, 8, 14, 15, 21][l.val]? = some src →
      (pi a).lane (Fin.ofNat 5 dest) (Fin.ofNat 5 (dest / 5)) = a.lane (Fin.ofNat 5 l.val) (Fin.ofNat 5 (l.val / 5))
      ∧ (pi a).lane (Fin.ofNat 5 l.val) (Fin.ofNat 5 (l.val / 5)) = a.lane (Fin.ofNat 5 src) (Fin.ofNat 5 (src / 5)))
  ∧ (∀ (a : StateArray) (x y : Fin 5),
      (chi a).lane x y = a.lane x y ^^^ (~~~(a.lane (x + 1) y) &&& a.lane (x + 2) y))

/-- R60, R63, R64: the offsets of rho and the constants of iota, written out, and equal to what the procedures of R60 and R64
regenerate. -/
def Obligations.RhoAndIotaUseTheRegeneratedConstants : Prop :=
  (∀ (a : StateArray) (x y : Fin 5) (n : Nat),
    [0, 1, 62, 28, 27, 36, 44, 6, 55, 20, 3, 10, 43, 25, 39, 41, 45, 15, 21, 8, 18, 2, 61, 56, 14][x.val + 5 * y.val]? = some n →
    (rho a).lane x y = rol64 (a.lane x y) n)
  ∧ (∀ a : StateArray, (rho a).lane 0 0 = a.lane 0 0
    ∧ ∀ e ∈ rotWalk 24 0 1 0, (rho a).lane e.1 e.2.1 = rol64 (a.lane e.1 e.2.1) e.2.2)
  ∧ (∀ x y : Fin 5, (x = 0 ∧ y = 0) ∨ ∃ e ∈ rotWalk 24 0 1 0, e.1 = x ∧ e.2.1 = y)
  ∧ (∀ (a : StateArray) (k : Nat) (left right : Lane),
      [ (0x0000000000000001, 0x000000008000808B),
        (0x0000000000008082, 0x800000000000008B),
        (0x800000000000808A, 0x8000000000008089),
        (0x8000000080008000, 0x8000000000008003),
        (0x000000000000808B, 0x8000000000008002),
        (0x0000000080000001, 0x8000000000000080),
        (0x8000000080008081, 0x000000000000800A),
        (0x8000000000008009, 0x800000008000000A),
        (0x000000000000008A, 0x8000000080008081),
        (0x0000000000000088, 0x8000000000008080),
        (0x0000000080008009, 0x0000000080000001),
        (0x000000008000000A, 0x8000000080008008) ][k]?
        = some (left, right) →
      ∀ (ir : Fin 24) (c : Lane), (ir.val = k ∧ c = left) ∨ (ir.val = k + 12 ∧ c = right) →
        c = rcRegenerated ir ∧ (iota ir a).lane 0 0 = a.lane 0 0 ^^^ c
        ∧ ∀ x y : Fin 5, ¬ (x = 0 ∧ y = 0) → (iota ir a).lane x y = a.lane x y)

/-- R65, R66: 24 rounds, each theta to iota; `KeccakF` is a bijection on the states; its value on the zero state. -/
def Obligations.KeccakFIsABijection : Prop :=
  (∀ a : StateArray, keccakF a = (List.finRange 24).foldl (fun b ir => iota ir (chi (pi (rho (theta b))))) a)
  ∧ Function.Bijective keccakF
  ∧ (keccakF .zero).lane 0 0 = 0xF1258F7940E1DDE7

/-! ### The Hex Codec -/

/-- R91: HXE_PFX. -/
def Obligations.HxePfxReturnsTheTwoCharacters : Prop :=
  decode 0x2000#16 = some .hxePfx
  ∧ ∀ s : State, exec .hxePfx s = .next { s with respOut := s.respOut ++ [0x023078#24] }

/-- R92: HXE_BYTE. The digit of a value v is `0x30 + v` below 10 and `0x61 + (v - 10)` from 10 on (R85). -/
def Obligations.HxeByteReturnsTwoLowercaseDigits : Prop :=
  ∀ (b : Byte) (s : State) (hi lo : Nat),
    hi = (if b.toNat / 16 < 10 then 0x30 + b.toNat / 16 else 0x61 + (b.toNat / 16 - 10)) →
    lo = (if b.toNat % 16 < 10 then 0x30 + b.toNat % 16 else 0x61 + (b.toNat % 16 - 10)) →
    decode (0x2100#16 + b.setWidth 16) = some (.hxeByte b)
    ∧ exec (.hxeByte b) s = .next { s with respOut := s.respOut ++ [BitVec.ofNat 24 (0x020000 + 256 * hi + lo)] }

/-- R93: HXD_START. -/
def Obligations.HxdStartOpensAString : Prop :=
  decode 0x2800#16 = some .hxdStart
  ∧ ∀ s : State, exec .hxdStart s =
      .next { s with hdPh := .hdP0, hdHi := 0, respOut := s.respOut ++ [0x000000#24] }

/-- R94: HXD_CHAR. -/
def Obligations.HxdCharTakesOneCharacter : Prop :=
  ∀ (c : Byte) (s : State),
    decode (0x2900#16 + c.setWidth 16) = some (.hxdChar c)
    ∧ (s.hdPh = .hdIdle → exec (.hxdChar c) s = .next { s with respOut := s.respOut ++ [0x300000#24] })
    ∧ (s.hdPh = .hdFailed → exec (.hxdChar c) s = .next { s with respOut := s.respOut ++ [0x100000#24] })
    ∧ (s.hdPh = .hdP0 → c = 0x30 →
        exec (.hxdChar c) s = .next { s with hdPh := .hdP1, respOut := s.respOut ++ [0x000000#24] })
    ∧ (s.hdPh = .hdP1 → c = 0x78 →
        exec (.hxdChar c) s = .next { s with hdPh := .hdHi, respOut := s.respOut ++ [0x000000#24] })
    ∧ ((s.hdPh = .hdP0 ∧ c ≠ 0x30) ∨ (s.hdPh = .hdP1 ∧ c ≠ 0x78)
          ∨ ((s.hdPh = .hdHi ∨ s.hdPh = .hdLo) ∧ ∀ v, ¬ IsHexDigit c v) →
        exec (.hxdChar c) s = .next { s with hdPh := .hdFailed, respOut := s.respOut ++ [0x100000#24] })
    ∧ (∀ v : Nibble, s.hdPh = .hdHi → IsHexDigit c v →
        exec (.hxdChar c) s = .next { s with hdHi := v, hdPh := .hdLo, respOut := s.respOut ++ [0x000000#24] })
    ∧ (∀ v : Nibble, s.hdPh = .hdLo → IsHexDigit c v →
        exec (.hxdChar c) s = .next { s with hdPh := .hdHi, respOut :=
          s.respOut ++ [BitVec.ofNat 24 (0x010000 + 16 * s.hdHi.toNat + v.toNat)] })

/-- R95: HXD_END. -/
def Obligations.HxdEndGivesTheVerdict : Prop :=
  decode 0x2A00#16 = some .hxdEnd
  ∧ ∀ s : State,
    (s.hdPh = .hdIdle → exec .hxdEnd s = .next { s with respOut := s.respOut ++ [0x300000#24] })
    ∧ (s.hdPh = .hdHi → exec .hxdEnd s = .next { s with hdPh := .hdIdle, respOut := s.respOut ++ [0x000000#24] })
    ∧ (s.hdPh ≠ .hdIdle → s.hdPh ≠ .hdHi →
        exec .hxdEnd s = .next { s with hdPh := .hdIdle, respOut := s.respOut ++ [0x100000#24] })

/-- R90: the phase table of the hex decoder. -/
def Obligations.HexDecoderPhaseTable : Prop :=
  ∀ (i : Instr) (s t : State), exec i s = .next t →
    (i.mnemonic = .HXD_START → t.hdPh = .hdP0 ∧ AnswersStatus i s .ok)
    ∧ (i.mnemonic = .SRST → t.hdPh = .hdIdle ∧ AnswersStatus i s .ok)
    ∧ (i.mnemonic ∉ [Mnemonic.HXD_START, .HXD_CHAR, .HXD_END, .SRST] → t.hdPh = s.hdPh)
    ∧ (i.mnemonic = .HXD_CHAR →
        (s.hdPh = .hdIdle → t.hdPh = .hdIdle ∧ AnswersStatus i s .sequenceError)
        ∧ (s.hdPh = .hdP0 → if i.operand = 0x30 then t.hdPh = .hdP1 ∧ AnswersStatus i s .ok
            else t.hdPh = .hdFailed ∧ AnswersStatus i s .formatError)
        ∧ (s.hdPh = .hdP1 → if i.operand = 0x78 then t.hdPh = .hdHi ∧ AnswersStatus i s .ok
            else t.hdPh = .hdFailed ∧ AnswersStatus i s .formatError)
        ∧ (s.hdPh = .hdHi → ((∃ v, IsHexDigit i.operand v) → t.hdPh = .hdLo ∧ t.respOut = s.respOut ++ [0x000000#24])
            ∧ ((∀ v, ¬ IsHexDigit i.operand v) → t.hdPh = .hdFailed ∧ AnswersStatus i s .formatError))
        ∧ (s.hdPh = .hdLo → ((∃ v, IsHexDigit i.operand v) → t.hdPh = .hdHi ∧
              ∃ r, t.respOut = s.respOut ++ [r] ∧ statusField r = 0 ∧ countField r = 1#4)
            ∧ ((∀ v, ¬ IsHexDigit i.operand v) → t.hdPh = .hdFailed ∧ AnswersStatus i s .formatError))
        ∧ (s.hdPh = .hdFailed → t.hdPh = .hdFailed ∧ AnswersStatus i s .formatError))
    ∧ (i.mnemonic = .HXD_END → t.hdPh = .hdIdle
        ∧ (s.hdPh = .hdIdle → AnswersStatus i s .sequenceError) ∧ (s.hdPh = .hdHi → AnswersStatus i s .ok)
        ∧ (s.hdPh ≠ .hdIdle → s.hdPh ≠ .hdHi → AnswersStatus i s .formatError))

/-- R87: `toHex`, character by character: the prefix, then two lowercase digits for each byte, the high one first. -/
def Obligations.ToHexWritesTwoDigitsPerByte : Prop :=
  ∀ b : List Byte, (toHex b).length = 2 + 2 * b.length ∧ (toHex b)[0]? = some 0x30 ∧ (toHex b)[1]? = some 0x78
    ∧ ∀ (j : Nat) (x : Byte) (hi lo : Nat), b[j]? = some x →
      hi = (if x.toNat / 16 < 10 then 0x30 + x.toNat / 16 else 0x61 + (x.toNat / 16 - 10)) →
      lo = (if x.toNat % 16 < 10 then 0x30 + x.toNat % 16 else 0x61 + (x.toNat % 16 - 10)) →
      (toHex b)[2 + 2 * j]? = some (BitVec.ofNat 8 hi) ∧ (toHex b)[3 + 2 * j]? = some (BitVec.ofNat 8 lo)

/-- R98: the encoder's command sequence computes `toHex`, from every state, and changes no register. -/
def Obligations.ToHexSequenceComputesToHex : Prop :=
  ∀ (b : List Byte) (s : State), ∃ rs : List ResponseWord,
    runCommands (toHexSeq b) s = .next { s with respOut := s.respOut ++ rs }
    ∧ rs.length = b.length + 1 ∧ (∀ r ∈ rs, statusField r = 0) ∧ rs.flatMap payload = toHex b

/-- R99: the decoder's command sequence computes `fromHex`, from every state, and answers `FormatError` where it fails. -/
def Obligations.FromHexSequenceComputesFromHex : Prop :=
  ∀ (str : List Byte) (s : State), ∃ (t : State) (rs : List ResponseWord),
    runCommands (fromHexSeq str) s = .next t ∧ t.respOut = s.respOut ++ rs ∧ rs.length = str.length + 2
    ∧ t.hdPh = .hdIdle
    ∧ (∀ bs, fromHex str = .ok bs →
        (∀ r ∈ rs, statusField r = 0) ∧ (rs.filter fun r => countField r = 1#4).flatMap payload = bs)
    ∧ ((∀ bs, fromHex str ≠ .ok bs) →
        rs.getLast? = some 0x100000#24 ∧ ∀ r ∈ rs, statusField r = 0 ∨ statusField r = 1)
    ∧ (∀ s' : State, ∃ t' : State, runCommands (fromHexSeq str) s' = .next t' ∧ t'.respOut = s'.respOut ++ rs)

/-- R89: the round-trip law. -/
def Obligations.HexRoundTripLaw : Prop :=
  (∀ b : List Byte, fromHex (toHex b) = .ok b)
  ∧ (∀ str b : List Byte, fromHex str = .ok b → toHex b = str.map lowerHex ∧ fromHex (toHex b) = .ok b)

/-- R88: `fromHex` fails in exactly three cases, and its result is the digits packed two by two. -/
def Obligations.FromHexAcceptsExactlyWellFormedStrings : Prop :=
  ∀ str : List Byte,
    ((str.length < 2 ∨ str[0]? ≠ some 0x30 ∨ str[1]? ≠ some 0x78
        ∨ (∃ k c, 2 ≤ k ∧ str[k]? = some c ∧ ∀ v, ¬ IsHexDigit c v) ∨ (str.length - 2) % 2 = 1) ↔
      fromHex str = .error .formatError)
    ∧ (∀ bs, fromHex str = .ok bs → 2 * bs.length = str.length - 2 ∧
        ∀ (j : Nat) (b : Byte), bs[j]? = some b → ∃ (c d : Byte) (hi lo : Nibble),
          str[2 + 2 * j]? = some c ∧ str[3 + 2 * j]? = some d ∧ IsHexDigit c hi ∧ IsHexDigit d lo
          ∧ b.toNat = 16 * hi.toNat + lo.toNat)

/-! ### The Name Hasher -/

/-- R107: NH_ROOT loads the 32 bytes that R101 writes out. -/
def Obligations.NhRootLoadsTheRootNode : Prop :=
  decode 0x3000#16 = some .nhRoot
  ∧ ∀ s : State, exec .nhRoot s = .next { s with
      node := #v[0xc5, 0xd2, 0x46, 0x01, 0x86, 0xf7, 0x23, 0x3c, 0x92, 0x7e, 0x7d, 0xb2, 0xdc, 0xc7, 0x03, 0xc0,
                 0xe5, 0x00, 0xb6, 0x53, 0xca, 0x82, 0x27, 0x3b, 0x7b, 0xfa, 0xd8, 0x04, 0x5d, 0x85, 0xa4, 0x70],
      np := 32, respOut := s.respOut ++ [0x000000#24] }

/-- R101: the root node is the digest of the empty message, and its value. -/
def Obligations.RootNodeIsTheDigestOfNothing : Prop :=
  rootNode = digest [] ∧ kRoot = rootNode
  ∧ rootNode =
      #v[0xc5, 0xd2, 0x46, 0x01, 0x86, 0xf7, 0x23, 0x3c, 0x92, 0x7e, 0x7d, 0xb2, 0xdc, 0xc7, 0x03, 0xc0,
         0xe5, 0x00, 0xb6, 0x53, 0xca, 0x82, 0x27, 0x3b, 0x7b, 0xfa, 0xd8, 0x04, 0x5d, 0x85, 0xa4, 0x70]

/-- R108: NH_CLR. -/
def Obligations.NhClrOpensALoad : Prop :=
  decode 0x3100#16 = some .nhClr
  ∧ ∀ s : State, exec .nhClr s = .next { s with np := 0, respOut := s.respOut ++ [0x000000#24] }

/-- R109: NH_LDB. -/
def Obligations.NhLdbLoadsOneByte : Prop :=
  ∀ (b : Byte) (s : State),
    decode (0x3200#16 + b.setWidth 16) = some (.nhLdb b)
    ∧ (s.np.val = 32 → exec (.nhLdb b) s = .next { s with respOut := s.respOut ++ [0x300000#24] })
    ∧ (s.np.val < 32 → ∃ (p : Fin 33) (nd : Vector Byte 32), p.val = s.np.val + 1
        ∧ (∀ j : Fin 32, nd[j] = if j.val = s.np.val then b else s.node[j])
        ∧ exec (.nhLdb b) s = .next { s with node := nd, np := p, respOut := s.respOut ++ [0x000000#24] })

/-- R110: NH_CHILD. The new node is the digest of the old node followed by the label digest. -/
def Obligations.NhChildReplacesTheNode : Prop :=
  decode 0x3300#16 = some .nhChild
  ∧ ∀ s : State,
    (s.ph = .failed → exec .nhChild s = .next { s with respOut := s.respOut ++ [0x200000#24] })
    ∧ (s.ph = .idle ∨ s.ph = .absorb → exec .nhChild s = .next { s with respOut := s.respOut ++ [0x300000#24] })
    ∧ (s.ph = .squeeze → s.np.val < 32 → exec .nhChild s = .next { s with respOut := s.respOut ++ [0x300000#24] })
    ∧ (s.ph = .squeeze → s.np.val = 32 → ∃ (T a : StateArray) (nd : Vector Byte 32),
        (∀ j : Fin 200, T.byte j =
          if h : j.val < 32 then s.node[j.val]
          else if h' : j.val < 64 then s.arr.byte ⟨j.val - 32, by omega⟩
          else if j.val = 64 then 0x01 else if j.val = 135 then 0x80 else 0x00)
        ∧ (∀ j : Fin 32, nd[j] = (keccakF T).byte (j.castLE (by omega)))
        ∧ nd = digest (s.node.toList ++ s.arr.window.toList)
        ∧ (∀ j : Fin 200, a.byte j = 0x00)
        ∧ exec .nhChild s = .next { s with node := nd, arr := a, pos := 0, cnt := 0, ph := .idle,
                                           respOut := s.respOut ++ [0x000000#24] })

/-- R111: NH_RD. -/
def Obligations.NhRdReadsANodeByte : Prop :=
  ∀ (i : Byte) (s : State),
    decode (0x3400#16 + i.setWidth 16) = some (.nhRd i)
    ∧ (s.np.val < 32 → exec (.nhRd i) s = .next { s with respOut := s.respOut ++ [0x300000#24] })
    ∧ (s.np.val = 32 → 32 ≤ i.toNat → exec (.nhRd i) s = .next { s with respOut := s.respOut ++ [0x500000#24] })
    ∧ (s.np.val = 32 → ∀ k : Fin 32, k.val = i.toNat →
        exec (.nhRd i) s = .next { s with respOut := s.respOut ++ [0x010000#24 + (s.node[k]).setWidth 24] })

/-- R106: the table of `np`. -/
def Obligations.NodePointerTable : Prop :=
  ∀ (i : Instr) (s t : State), exec i s = .next t →
    (i.mnemonic = .NH_ROOT → t.np.val = 32 ∧ AnswersStatus i s .ok)
    ∧ (i.mnemonic = .NH_CLR → t.np.val = 0 ∧ AnswersStatus i s .ok)
    ∧ (i.mnemonic = .SRST → t.np.val = 0 ∧ AnswersStatus i s .ok)
    ∧ (i.mnemonic = .NH_LDB → (s.np.val < 32 → t.np.val = s.np.val + 1 ∧ AnswersStatus i s .ok)
        ∧ (s.np.val = 32 → t.np.val = 32 ∧ AnswersStatus i s .sequenceError))
    ∧ (i.mnemonic = .NH_CHILD → t.np = s.np
        ∧ (s.np.val < 32 → if s.ph = .failed then AnswersStatus i s .capacityError else AnswersStatus i s .sequenceError)
        ∧ (s.np.val = 32 → s.ph = .squeeze → AnswersStatus i s .ok))
    ∧ (i.mnemonic = .NH_RD → t.np = s.np ∧ (s.np.val < 32 → AnswersStatus i s .sequenceError)
        ∧ (s.np.val = 32 → if i.operand.toNat < 32 then AnswersStatus i s .ok else AnswersStatus i s .operandError))
    ∧ (i.mnemonic ∉ [Mnemonic.NH_ROOT, .NH_CLR, .NH_LDB, .NH_CHILD, .NH_RD, .SRST] → t.np = s.np)

/-- R112: loading a parent, hashing a label and combining them computes `digest(p || digest(u))`, from every state; and the
expansion of `NAMEHASH name` leaves `nameHash(name)` in `NODE`, every response `OK`. -/
def Obligations.NodeSequencesComputeNodeHashes : Prop :=
  (∀ (p : Vector Byte 32) (u : List Byte) (s : State), Fits s u.length →
    ∃ t : State, runCommands (loadNodeSeq p ++ childStepSeq u) s = .next t
      ∧ t.respOut = s.respOut ++ List.replicate (u.length + 36) 0x000000#24
      ∧ t.node = digest (p.toList ++ (digest u).toList) ∧ t.np = 32 ∧ t.ph = .idle)
  ∧ (∀ (p : Vector Byte 32) (l : List Char), childNode p l = digest (p.toList ++ (digest (utf8 l)).toList))
  ∧ (∀ (name : List Char) (s : State), (∀ l ∈ labels name, Fits s (utf8 l).length) →
      ∃ (t : State) (rs : List ResponseWord), runCommands (nameHashSeq name) s = .next t
        ∧ t.respOut = s.respOut ++ rs ∧ (∀ r ∈ rs, statusField r = 0) ∧ t.node = nameHash name ∧ t.np = 32)

/-- R39: each code point of a text becomes bytes of the forms of R39, whose x bits are the code point's. -/
def Obligations.Utf8CarriesTheCodePoint : Prop :=
  ∀ c : Char,
    (c.toNat ≤ 0x7F → utf8Char c = [BitVec.ofNat 8 c.toNat])
    ∧ (0x80 ≤ c.toNat → c.toNat ≤ 0x7FF → ∃ (x : BitVec 5) (y : BitVec 6),
        utf8Char c = [0b110#3 ++ x, 0b10#2 ++ y] ∧ (x ++ y).toNat = c.toNat)
    ∧ (0x800 ≤ c.toNat → c.toNat ≤ 0xFFFF → ∃ (x : BitVec 4) (y z : BitVec 6),
        utf8Char c = [0b1110#4 ++ x, 0b10#2 ++ y, 0b10#2 ++ z] ∧ (x ++ y ++ z).toNat = c.toNat)
    ∧ (0x10000 ≤ c.toNat → ∃ (x : BitVec 3) (y z w : BitVec 6),
        utf8Char c = [0b11110#5 ++ x, 0b10#2 ++ y, 0b10#2 ++ z, 0b10#2 ++ w] ∧ (x ++ y ++ z ++ w).toNat = c.toNat)

/-- R103: the labels of a name are its segments between the `.` characters, and the empty name has none; the node hash of a name is
folded from the root, the rightmost label first. -/
def Obligations.NameHashFoldsLabelsFromTheRight : Prop :=
  labels [] = [] ∧ nameHash [] = rootNode
  ∧ (∀ name : List Char, name ≠ [] →
      ['.'].intercalate (labels name) = name ∧ (labels name).length = name.count '.' + 1
      ∧ ∀ l ∈ labels name, '.' ∉ l)
  ∧ (∀ l : List Char, '.' ∉ l →
      (l ≠ [] → nameHash l = childNode rootNode l)
      ∧ nameHash (l ++ ['.']) = childNode (childNode rootNode []) l
      ∧ ∀ rest : List Char, rest ≠ [] → nameHash (l ++ '.' :: rest) = childNode (nameHash rest) l)

/-! ### Whole operations and whole runs -/

/-- R50, R51, R52, R54, R55, R56: what the host takes from the responses to a pseudo-command is the function's value. -/
def Obligations.PseudoCommandsComputeTheirFunctions : Prop :=
  ∀ s : State,
    (∀ m : List Byte, Fits s m.length → ∃ (t : State) (rs : List ResponseWord),
      runCommands (digestSeq m) s = .next t ∧ t.respOut = s.respOut ++ rs ∧ hostResult rs = .ok (digest m).toList)
    ∧ (∀ b : List Byte, ∃ (t : State) (rs : List ResponseWord),
      runCommands (toHexSeq b) s = .next t ∧ t.respOut = s.respOut ++ rs ∧ hostResult rs = .ok (toHex b))
    ∧ (∀ str : List Byte, ∃ (t : State) (rs : List ResponseWord),
      runCommands (fromHexSeq str) s = .next t ∧ t.respOut = s.respOut ++ rs
      ∧ (∀ bs, fromHex str = .ok bs → hostResult rs = .ok bs)
      ∧ ((∀ bs, fromHex str ≠ .ok bs) → hostResult rs = .error 1))
    ∧ (∃ (t : State) (rs : List ResponseWord),
      runCommands rootNodeSeq s = .next t ∧ t.respOut = s.respOut ++ rs ∧ hostResult rs = .ok rootNode.toList)
    ∧ (∀ (p : Vector Byte 32) (l : List Char), Fits s (utf8 l).length → ∃ (t : State) (rs : List ResponseWord),
      runCommands (childNodeSeq p (utf8 l)) s = .next t ∧ t.respOut = s.respOut ++ rs
      ∧ hostResult rs = .ok (childNode p l).toList)
    ∧ (∀ name : List Char, (∀ l ∈ labels name, Fits s (utf8 l).length) → ∃ (t : State) (rs : List ResponseWord),
      runCommands (nameHashSeq name) s = .next t ∧ t.respOut = s.respOut ++ rs
      ∧ hostResult rs = .ok (nameHash name).toList)

/-- R53: the host runs DIGEST and, with the result it got, TOHEX, 33 commands more; what it takes the result to be is the 66
characters of the digest in hex. DIGESTTEXT is the same for the UTF-8 bytes of a text. R53 says nothing of failure: that where DIGEST
fails its error is the result of the whole and no TOHEX is given, the two clauses with `k` below, is the model's reading
of 30_encoding.md section 8 (log entry 13, DEDUCED). -/
def Obligations.DigestHexWritesTheDigest : Prop :=
  (∀ m d : List Byte, digestHexSeq m d = digestSeq m ++ toHexSeq d)
  ∧ (∀ (text : List Char) (d : List Byte), digestTextSeq text d = digestSeq (utf8 text) ++ toHexSeq d)
  ∧ (∀ (m : List Byte) (s : State), Fits s m.length → ∃ t : State,
    runDigestHex m s = .next (t, .ok (toHex (digest m).toList)) ∧ (toHex (digest m).toList).length = 66
    ∧ runCommands (digestHexSeq m (digest m).toList) s = .next t
    ∧ t.respOut.length = s.respOut.length + (m.length + 34) + (1 + 32))
  ∧ (∀ (m : List Byte) (s : State) (k : Nat), s.maxLen = some k → k < m.length → ∃ t : State,
    runDigestHex m s = .next (t, .error 2) ∧ runCommands (digestSeq m) s = .next t)
  ∧ (∀ (text : List Char) (s : State), Fits s (utf8 text).length → ∃ t : State,
    runDigestText text s = .next (t, .ok (digestOfText text))
    ∧ digestOfText text = toHex (digest (utf8 text)).toList ∧ (digestOfText text).length = 66
    ∧ runCommands (digestTextSeq text (digest (utf8 text)).toList) s = .next t)
  ∧ (∀ (text : List Char) (s : State) (k : Nat), s.maxLen = some k → k < (utf8 text).length → ∃ t : State,
    runDigestText text s = .next (t, .error 2))

/-- The invariant of R26 holds at reset, whatever the limit. -/
def Obligations.InvariantHoldsAtReset : Prop :=
  Inv State.reset [] ∧ ∀ limit : Option Nat, Inv (State.resetWith limit) []

/-- Every step keeps the invariant of R26, from every state that meets it. -/
def Obligations.EveryStepKeepsTheInvariant : Prop :=
  ∀ (s t : State) (m : List Byte), Inv s m → step s = .next t → Inv t (messageAfterStep s t m)

/-- R26: the invariant holds in every state reached from reset by any sequence of command words, whatever the limit; the
message it speaks of is read off the words taken so far and their responses. -/
def Obligations.ReachableStatesMeetTheInvariant : Prop :=
  ∀ (limit : Option Nat) (words : List CommandWord) (n : Nat) (t : State),
    Host.Core.run Sys2Proof.core n { State.resetWith limit with cmdIn := words } = .next t →
    Inv t ((words.zip t.respOut).foldl (fun m p => messageAfter p.1 p.2 m) [])
    ∧ t.pos.val ≤ 135 ∧ t.hdPh.code ≤ 5 ∧ t.hdHi.toNat ≤ 15 ∧ t.np.val ≤ 32
end

