-- ==== Sys2Proof/Laws/State.lean ====
section
/-! SUPPORT. The small lemmas of the state: one per field per named update, so that no proof unfolds an update. -/

namespace Sys2Proof.Machine

variable (s : State) (r : ResponseWord) (n w : Nat) (is : List Instr) (l : Option Nat)

@[simp] theorem reply_arr : (s.reply r).arr = s.arr := rfl
@[simp] theorem reply_pos : (s.reply r).pos = s.pos := rfl
@[simp] theorem reply_cnt : (s.reply r).cnt = s.cnt := rfl
@[simp] theorem reply_ph : (s.reply r).ph = s.ph := rfl
@[simp] theorem reply_hdPh : (s.reply r).hdPh = s.hdPh := rfl
@[simp] theorem reply_hdHi : (s.reply r).hdHi = s.hdHi := rfl
@[simp] theorem reply_node : (s.reply r).node = s.node := rfl
@[simp] theorem reply_np : (s.reply r).np = s.np := rfl
@[simp] theorem reply_maxLen : (s.reply r).maxLen = s.maxLen := rfl
@[simp] theorem reply_cmdIn : (s.reply r).cmdIn = s.cmdIn := rfl
@[simp] theorem reply_respOut : (s.reply r).respOut = s.respOut ++ [r] := rfl

@[simp] theorem withFetchWord_arr : (s.withFetchWord n w).arr = s.arr := rfl
@[simp] theorem withFetchWord_pos : (s.withFetchWord n w).pos = s.pos := rfl
@[simp] theorem withFetchWord_cnt : (s.withFetchWord n w).cnt = s.cnt := rfl
@[simp] theorem withFetchWord_ph : (s.withFetchWord n w).ph = s.ph := rfl
@[simp] theorem withFetchWord_hdPh : (s.withFetchWord n w).hdPh = s.hdPh := rfl
@[simp] theorem withFetchWord_hdHi : (s.withFetchWord n w).hdHi = s.hdHi := rfl
@[simp] theorem withFetchWord_node : (s.withFetchWord n w).node = s.node := rfl
@[simp] theorem withFetchWord_np : (s.withFetchWord n w).np = s.np := rfl
@[simp] theorem withFetchWord_maxLen : (s.withFetchWord n w).maxLen = s.maxLen := rfl
@[simp] theorem withFetchWord_respOut : (s.withFetchWord n w).respOut = s.respOut := rfl

@[simp] theorem present_arr : (s.present is).arr = s.arr := rfl
@[simp] theorem present_pos : (s.present is).pos = s.pos := rfl
@[simp] theorem present_cnt : (s.present is).cnt = s.cnt := rfl
@[simp] theorem present_ph : (s.present is).ph = s.ph := rfl
@[simp] theorem present_hdPh : (s.present is).hdPh = s.hdPh := rfl
@[simp] theorem present_hdHi : (s.present is).hdHi = s.hdHi := rfl
@[simp] theorem present_node : (s.present is).node = s.node := rfl
@[simp] theorem present_np : (s.present is).np = s.np := rfl
@[simp] theorem present_maxLen : (s.present is).maxLen = s.maxLen := rfl
@[simp] theorem present_respOut : (s.present is).respOut = s.respOut := rfl
@[simp] theorem present_cmdIn : (s.present is).cmdIn = is.map encode ++ s.cmdIn := rfl

@[simp] theorem resetWith_ph : (State.resetWith l).ph = .idle := rfl
@[simp] theorem resetWith_pos : (State.resetWith l).pos = 0 := rfl
@[simp] theorem resetWith_cnt : (State.resetWith l).cnt = 0 := rfl
@[simp] theorem resetWith_arr : (State.resetWith l).arr = .zero := rfl
@[simp] theorem resetWith_hdPh : (State.resetWith l).hdPh = .hdIdle := rfl
@[simp] theorem resetWith_hdHi : (State.resetWith l).hdHi = 0 := rfl
@[simp] theorem resetWith_node : (State.resetWith l).node = Vector.replicate 32 0 := rfl
@[simp] theorem resetWith_np : (State.resetWith l).np = 0 := rfl
@[simp] theorem resetWith_maxLen : (State.resetWith l).maxLen = l := rfl
@[simp] theorem resetWith_cmdIn : (State.resetWith l).cmdIn = [] := rfl
@[simp] theorem resetWith_respOut : (State.resetWith l).respOut = [] := rfl

/-- What ABSORB's byte step does to each register it does not move by position (41_digest_engine.md R77). -/
@[simp] theorem absorbByte_cnt (b : Byte) : (absorbByte b s).cnt = s.cnt + 1 := by unfold absorbByte; split <;> rfl
@[simp] theorem absorbByte_ph (b : Byte) : (absorbByte b s).ph = s.ph := by unfold absorbByte; split <;> rfl
@[simp] theorem absorbByte_hdPh (b : Byte) : (absorbByte b s).hdPh = s.hdPh := by unfold absorbByte; split <;> rfl
@[simp] theorem absorbByte_hdHi (b : Byte) : (absorbByte b s).hdHi = s.hdHi := by unfold absorbByte; split <;> rfl
@[simp] theorem absorbByte_node (b : Byte) : (absorbByte b s).node = s.node := by unfold absorbByte; split <;> rfl
@[simp] theorem absorbByte_np (b : Byte) : (absorbByte b s).np = s.np := by unfold absorbByte; split <;> rfl
@[simp] theorem absorbByte_maxLen (b : Byte) : (absorbByte b s).maxLen = s.maxLen := by unfold absorbByte; split <;> rfl
@[simp] theorem absorbByte_cmdIn (b : Byte) : (absorbByte b s).cmdIn = s.cmdIn := by unfold absorbByte; split <;> rfl
@[simp] theorem absorbByte_respOut (b : Byte) : (absorbByte b s).respOut = s.respOut := by unfold absorbByte; split <;> rfl

/-- The three phase-only updates that errors make (60_exceptions.md R128) and the answer leave the other fields alone; with
these, `respond` says everything it can do: it answers, and changes no register. -/
theorem respond_next (st : Status) (k : BitVec 4) (d : BitVec 16) :
    respond st k d s = .next { s with respOut := s.respOut ++ [responseWord st k d] } := rfl

theorem respondOk_next : respondOk s = .next { s with respOut := s.respOut ++ [0x000000#24] } := rfl

theorem respondByte_next (b : Byte) :
    respondByte b s = .next { s with respOut := s.respOut ++ [responseWord .ok 1 (b.setWidth 16)] } := rfl

/-- Raising an error (60_exceptions.md R120, R128): the response is the code, and no register changes. -/
theorem raise_next (e : Status) : raise e s = .next { s with respOut := s.respOut ++ [responseWord e 0 0] } := rfl

/-- Fetching takes the oldest word (20_memory.md R36). -/
theorem fetch_cons (cw : CommandWord) (rest : List CommandWord) (h : s.cmdIn = cw :: rest) :
    fetch s = some (cw, { s with cmdIn := rest }) := by
  simp [fetch, h]

theorem fetch_nil (h : s.cmdIn = []) : fetch s = none := by simp [fetch, h]

end Sys2Proof.Machine
end

