-- ==== Sys2Proof/Laws/Words.lean ====
section
/-! SUPPORT. The fields of response words and of command words, and the decoder and encoder in the terms of each other. -/

namespace Sys2Proof.Machine

/-- The fields of a response word are what it was built from (30_encoding.md R43). -/
@[simp] theorem statusField_responseWord (st : Status) (n : BitVec 4) (d : BitVec 16) :
    statusField (responseWord st n d) = st.code := by
  unfold statusField responseWord
  apply BitVec.eq_of_toNat_eq
  have h1 := st.code.isLt
  have h2 := n.isLt
  have h3 := d.isLt
  simp [BitVec.toNat_add, BitVec.toNat_shiftLeft, Nat.shiftLeft_eq, Nat.shiftRight_eq_div_pow]
  omega

@[simp] theorem countField_responseWord (st : Status) (n : BitVec 4) (d : BitVec 16) :
    countField (responseWord st n d) = n := by
  unfold countField responseWord
  apply BitVec.eq_of_toNat_eq
  have h1 := st.code.isLt
  have h2 := n.isLt
  have h3 := d.isLt
  simp [BitVec.toNat_add, BitVec.toNat_shiftLeft, Nat.shiftLeft_eq, Nat.shiftRight_eq_div_pow]
  omega

@[simp] theorem dataField_responseWord (st : Status) (n : BitVec 4) (d : BitVec 16) :
    dataField (responseWord st n d) = d := by
  unfold dataField responseWord
  apply BitVec.eq_of_toNat_eq
  have h1 := st.code.isLt
  have h2 := n.isLt
  have h3 := d.isLt
  simp [BitVec.toNat_add, BitVec.toNat_shiftLeft, Nat.shiftLeft_eq, Nat.shiftRight_eq_div_pow]
  omega

/-- Different statuses have different codes (30_encoding.md R44). -/
theorem Status.code_inj {a b : Status} (h : a.code = b.code) : a = b := by
  cases a <;> cases b <;> first | rfl | exact absurd h (by decide)

end Sys2Proof.Machine

namespace Sys2Proof

/-- A word is its two fields (30_encoding.md R40). -/
theorem word_of_fields (cw : CommandWord) :
    cw = ((opcodeField cw).setWidth 16 <<< 8) + (operandField cw).setWidth 16 := by
  unfold opcodeField operandField
  apply BitVec.eq_of_toNat_eq
  have h := cw.isLt
  simp [BitVec.toNat_add, BitVec.toNat_shiftLeft, Nat.shiftLeft_eq, Nat.shiftRight_eq_div_pow]
  omega

@[simp] theorem opcodeField_word (op b : Byte) :
    opcodeField ((op.setWidth 16 <<< 8) + b.setWidth 16) = op := by
  unfold opcodeField
  apply BitVec.eq_of_toNat_eq
  have h1 := op.isLt
  have h2 := b.isLt
  simp [BitVec.toNat_add, BitVec.toNat_shiftLeft, Nat.shiftLeft_eq, Nat.shiftRight_eq_div_pow]
  omega

@[simp] theorem operandField_word (op b : Byte) :
    operandField ((op.setWidth 16 <<< 8) + b.setWidth 16) = b := by
  unfold operandField
  apply BitVec.eq_of_toNat_eq
  have h1 := op.isLt
  have h2 := b.isLt
  simp [BitVec.toNat_add, BitVec.toNat_shiftLeft, Nat.shiftLeft_eq, Nat.shiftRight_eq_div_pow]
  omega

/-- The fields of an encoded command are its opcode and its operand (30_encoding.md R40, R49). -/
@[simp] theorem opcodeField_encode (i : Instr) : opcodeField (encode i) = i.mnemonic.opcode := opcodeField_word _ _

@[simp] theorem operandField_encode (i : Instr) : operandField (encode i) = i.operand := operandField_word _ _

/-- All 16 opcodes differ (30_encoding.md R41). -/
theorem Mnemonic.opcode_inj {a b : Mnemonic} (h : a.opcode = b.opcode) : a = b := by
  cases a <;> cases b <;> first | rfl | exact absurd h (by decide)

/-- No two rows of the opcode table can match the same word (30_encoding.md R41). -/
theorem opcodeTable_rows_disjoint :
    opcodeTable.Pairwise fun r q => (r.pattern &&& q.mask &&& r.mask) ≠ (q.pattern &&& q.mask &&& r.mask) := by
  decide

/-- The table has the 16 mnemonics, each once. -/
theorem opcodeTable_mnemonics_nodup : (opcodeTable.map OpcodeRow.mnemonic).Nodup ∧ opcodeTable.length = 16 := by decide

/-- A command that decodes has the opcode and the operand of its word: no bit of the word is dropped. -/
theorem decode_fields {cw : CommandWord} {i : Instr} (h : decode cw = some i) :
    opcodeField cw = i.mnemonic.opcode ∧ operandField cw = i.operand := by
  unfold decode at h
  split at h <;> rename_i hop <;> simp only [formatZ] at h
  all_goals first
    | (split at h
       · rename_i hb
         cases h
         exact ⟨hop, hb⟩
       · cases h)
    | (cases h
       exact ⟨hop, rfl⟩)
    | cases h

/-- Decoding the word of a command gives the command, with every operand (30_encoding.md R48, R49). -/
@[simp] theorem decode_encode (i : Instr) : decode (encode i) = some i := by
  have h1 := opcodeField_encode i
  have h2 := operandField_encode i
  cases i <;> simp only [Instr.mnemonic, Mnemonic.opcode, Instr.operand] at h1 h2 <;> simp [decode, formatZ, h1, h2]

end Sys2Proof
end

