-- ==== Sys2Proof/Laws/Exec.lean ====
section
/-! SUPPORT. What executing a command can do, said once, case by case: `Effect`. `exec_of_effect` and `effect_of_exec` say that exec
does exactly that; every other proof about commands takes `Effect` apart and unfolds no meaning. -/

namespace Sys2Proof.Machine

/-- The number of an index operand below 32 (30_encoding.md R42). -/
theorem indexOperand_lt (i : Byte) (h : i.toNat < 32) : indexOperand i = some ⟨i.toNat, h⟩ := by
  simp [indexOperand, h]

/-- An index operand of 32 or more is refused (60_exceptions.md R125). -/
theorem indexOperand_ge (i : Byte) (h : 32 ≤ i.toNat) : indexOperand i = none := by
  simp [indexOperand, h]

/-- `Effect i s u st n d`: in the state `s` the command `i` changes the registers to those of `u` and is answered
`respond(st, n, d)`. One case for each path through the command's rule. -/
inductive Effect : Instr → State → State → Status → BitVec 4 → BitVec 16 → Prop where
  | status (s) : Effect .status s s .ok 2 (statusWord s)
  | srst (s) : Effect .srst s { s with arr := .zero, pos := 0, cnt := 0, ph := .idle, hdPh := .hdIdle, hdHi := 0,
                                       node := Vector.replicate 32 0x00, np := 0 } .ok 0 0
  | init (s) : Effect .init s { s with arr := .zero, pos := 0, cnt := 0, ph := .absorb } .ok 0 0
  | absorbFailed (s b) (h : s.ph = .failed) : Effect (.absorb b) s s .capacityError 0 0
  | absorbIdle (s b) (h : s.ph = .idle) : Effect (.absorb b) s s .sequenceError 0 0
  | absorbSqueeze (s b) (h : s.ph = .squeeze) : Effect (.absorb b) s s .sequenceError 0 0
  | absorbFull (s b) (h : s.ph = .absorb) (hm : s.maxLen = some s.cnt) :
      Effect (.absorb b) s { s with ph := .failed } .capacityError 0 0
  | absorb (s b) (h : s.ph = .absorb) (hm : s.maxLen ≠ some s.cnt) : Effect (.absorb b) s (absorbByte b s) .ok 0 0
  | finalFailed (s) (h : s.ph = .failed) : Effect .final s s .capacityError 0 0
  | finalIdle (s) (h : s.ph = .idle) : Effect .final s s .sequenceError 0 0
  | finalSqueeze (s) (h : s.ph = .squeeze) : Effect .final s s .sequenceError 0 0
  | final (s) (h : s.ph = .absorb) :
      Effect .final s { s with arr := keccakF (padArray s.arr s.posIndex), pos := 0, ph := .squeeze } .ok 0 0
  | sqzFailed (s i) (h : s.ph = .failed) : Effect (.sqz i) s s .capacityError 0 0
  | sqzIdle (s i) (h : s.ph = .idle) : Effect (.sqz i) s s .sequenceError 0 0
  | sqzAbsorb (s i) (h : s.ph = .absorb) : Effect (.sqz i) s s .sequenceError 0 0
  | sqzIndex (s i) (h : s.ph = .squeeze) (hi : 32 ≤ i.toNat) : Effect (.sqz i) s s .operandError 0 0
  | sqz (s i) (h : s.ph = .squeeze) (hi : i.toNat < 32) :
      Effect (.sqz i) s s .ok 1 ((s.arr.byte ⟨i.toNat, by omega⟩).setWidth 16)
  | hxePfx (s) : Effect .hxePfx s s .ok 2 (twoChars charZero charX)
  | hxeByte (s b) : Effect (.hxeByte b) s s .ok 2 (twoChars (hexchar (hiNibble b)) (hexchar (loNibble b)))
  | hxdStart (s) : Effect .hxdStart s { s with hdPh := .hdP0, hdHi := 0 } .ok 0 0
  | charIdle (s c) (h : s.hdPh = .hdIdle) : Effect (.hxdChar c) s s .sequenceError 0 0
  | charFailed (s c) (h : s.hdPh = .hdFailed) : Effect (.hxdChar c) s s .formatError 0 0
  | charZero (s) (h : s.hdPh = .hdP0) : Effect (.hxdChar charZero) s { s with hdPh := .hdP1 } .ok 0 0
  | charNotZero (s c) (h : s.hdPh = .hdP0) (hc : c ≠ Machine.charZero) :
      Effect (.hxdChar c) s { s with hdPh := .hdFailed } .formatError 0 0
  | charX (s) (h : s.hdPh = .hdP1) : Effect (.hxdChar charX) s { s with hdPh := .hdHi } .ok 0 0
  | charNotX (s c) (h : s.hdPh = .hdP1) (hc : c ≠ Machine.charX) :
      Effect (.hxdChar c) s { s with hdPh := .hdFailed } .formatError 0 0
  | charHigh (s c v) (h : s.hdPh = .hdHi) (hv : hexval c = some v) :
      Effect (.hxdChar c) s { s with hdHi := v, hdPh := .hdLo } .ok 0 0
  | charNotHigh (s c) (h : s.hdPh = .hdHi) (hv : hexval c = none) :
      Effect (.hxdChar c) s { s with hdPh := .hdFailed } .formatError 0 0
  | charLow (s c v) (h : s.hdPh = .hdLo) (hv : hexval c = some v) :
      Effect (.hxdChar c) s { s with hdPh := .hdHi } .ok 1 ((pack s.hdHi v).setWidth 16)
  | charNotLow (s c) (h : s.hdPh = .hdLo) (hv : hexval c = none) :
      Effect (.hxdChar c) s { s with hdPh := .hdFailed } .formatError 0 0
  | endIdle (s) (h : s.hdPh = .hdIdle) : Effect .hxdEnd s s .sequenceError 0 0
  | endWellFormed (s) (h : s.hdPh = .hdHi) : Effect .hxdEnd s { s with hdPh := .hdIdle } .ok 0 0
  | endMalformed (s) (h : s.hdPh ≠ .hdIdle) (h' : s.hdPh ≠ .hdHi) :
      Effect .hxdEnd s { s with hdPh := .hdIdle } .formatError 0 0
  | nhRoot (s) : Effect .nhRoot s { s with node := kRoot, np := 32 } .ok 0 0
  | nhClr (s) : Effect .nhClr s { s with np := 0 } .ok 0 0
  | ldbFull (s b) (h : s.np = 32) : Effect (.nhLdb b) s s .sequenceError 0 0
  | ldb (s b) (h : s.np.val < 32) :
      Effect (.nhLdb b) s { s with node := s.node.set s.np.val b h, np := ⟨s.np.val + 1, by omega⟩ } .ok 0 0
  | childFailed (s) (h : s.ph = .failed) : Effect .nhChild s s .capacityError 0 0
  | childIdle (s) (h : s.ph = .idle) : Effect .nhChild s s .sequenceError 0 0
  | childAbsorb (s) (h : s.ph = .absorb) : Effect .nhChild s s .sequenceError 0 0
  | childNoParent (s) (h : s.ph = .squeeze) (hn : s.np ≠ 32) : Effect .nhChild s s .sequenceError 0 0
  | child (s) (h : s.ph = .squeeze) (hn : s.np = 32) :
      Effect .nhChild s { s with node := (keccakF (childArray s.node s.arr.window)).window,
                                 arr := .zero, pos := 0, cnt := 0, ph := .idle } .ok 0 0
  | rdNotValid (s i) (h : s.np ≠ 32) : Effect (.nhRd i) s s .sequenceError 0 0
  | rdIndex (s i) (h : s.np = 32) (hi : 32 ≤ i.toNat) : Effect (.nhRd i) s s .operandError 0 0
  | rd (s i) (h : s.np = 32) (hi : i.toNat < 32) : Effect (.nhRd i) s s .ok 1 (s.node[i.toNat].setWidth 16)

/-- An effect is what exec does. -/
theorem exec_of_effect {i s u st n d} (h : Effect i s u st n d) : exec i s = .next (u.reply (responseWord st n d)) := by
  cases h with
  | ldbFull _ b h => simp [exec, execNhLdb, h, raise, respond]
  | ldb _ b h => simp [exec, execNhLdb, h, respondOk, respond]
  | endMalformed _ h h' =>
    cases hp : s.hdPh <;> simp_all [exec, execHxdEnd, raise, respond]
  | sqz _ i h hi =>
    simp [exec, execSqz, h, indexOperand_lt i hi, respondByte, respond, windowIndex]
  | rd _ i h hi => simp [exec, execNhRd, h, indexOperand_lt i hi, respondByte, respond]
  | _ =>
    simp_all [exec, execStatus, execSrst, execInit, execAbsorb, execFinal, execSqz, execHxePfx, execHxeByte, execHxdStart,
      execHxdChar, execHxdEnd, execNhRoot, execNhClr, execNhChild, execNhRd, hexFail, raise, respond, respondOk,
      respondByte, indexOperand_ge]

/-- Every command has an effect in every state: no command is without a rule that applies. -/
theorem exists_effect (i : Instr) (s : State) : ∃ u st n d, Effect i s u st n d := by
  cases i with
  | status => exact ⟨_, _, _, _, .status s⟩
  | srst => exact ⟨_, _, _, _, .srst s⟩
  | init => exact ⟨_, _, _, _, .init s⟩
  | absorb b =>
    cases h : s.ph with
    | idle => exact ⟨_, _, _, _, .absorbIdle s b h⟩
    | squeeze => exact ⟨_, _, _, _, .absorbSqueeze s b h⟩
    | failed => exact ⟨_, _, _, _, .absorbFailed s b h⟩
    | absorb =>
      by_cases hm : s.maxLen = some s.cnt
      · exact ⟨_, _, _, _, .absorbFull s b h hm⟩
      · exact ⟨_, _, _, _, .absorb s b h hm⟩
  | final =>
    cases h : s.ph with
    | idle => exact ⟨_, _, _, _, .finalIdle s h⟩
    | squeeze => exact ⟨_, _, _, _, .finalSqueeze s h⟩
    | failed => exact ⟨_, _, _, _, .finalFailed s h⟩
    | absorb => exact ⟨_, _, _, _, .final s h⟩
  | sqz i =>
    cases h : s.ph with
    | idle => exact ⟨_, _, _, _, .sqzIdle s i h⟩
    | absorb => exact ⟨_, _, _, _, .sqzAbsorb s i h⟩
    | failed => exact ⟨_, _, _, _, .sqzFailed s i h⟩
    | squeeze =>
      by_cases hi : i.toNat < 32
      · exact ⟨_, _, _, _, .sqz s i h hi⟩
      · exact ⟨_, _, _, _, .sqzIndex s i h (by omega)⟩
  | hxePfx => exact ⟨_, _, _, _, .hxePfx s⟩
  | hxeByte b => exact ⟨_, _, _, _, .hxeByte s b⟩
  | hxdStart => exact ⟨_, _, _, _, .hxdStart s⟩
  | hxdChar c =>
    cases h : s.hdPh with
    | hdIdle => exact ⟨_, _, _, _, .charIdle s c h⟩
    | hdFailed => exact ⟨_, _, _, _, .charFailed s c h⟩
    | hdP0 =>
      by_cases hc : c = charZero
      · subst hc
        exact ⟨_, _, _, _, .charZero s h⟩
      · exact ⟨_, _, _, _, .charNotZero s c h hc⟩
    | hdP1 =>
      by_cases hc : c = charX
      · subst hc
        exact ⟨_, _, _, _, .charX s h⟩
      · exact ⟨_, _, _, _, .charNotX s c h hc⟩
    | hdHi =>
      cases hv : hexval c with
      | none => exact ⟨_, _, _, _, .charNotHigh s c h hv⟩
      | some v => exact ⟨_, _, _, _, .charHigh s c v h hv⟩
    | hdLo =>
      cases hv : hexval c with
      | none => exact ⟨_, _, _, _, .charNotLow s c h hv⟩
      | some v => exact ⟨_, _, _, _, .charLow s c v h hv⟩
  | hxdEnd =>
    by_cases h : s.hdPh = .hdIdle
    · exact ⟨_, _, _, _, .endIdle s h⟩
    · by_cases h' : s.hdPh = .hdHi
      · exact ⟨_, _, _, _, .endWellFormed s h'⟩
      · exact ⟨_, _, _, _, .endMalformed s h h'⟩
  | nhRoot => exact ⟨_, _, _, _, .nhRoot s⟩
  | nhClr => exact ⟨_, _, _, _, .nhClr s⟩
  | nhLdb b =>
    by_cases h : s.np.val < 32
    · exact ⟨_, _, _, _, .ldb s b h⟩
    · exact ⟨_, _, _, _, .ldbFull s b (Fin.ext (by have := s.np.isLt; simp; omega))⟩
  | nhChild =>
    cases h : s.ph with
    | idle => exact ⟨_, _, _, _, .childIdle s h⟩
    | absorb => exact ⟨_, _, _, _, .childAbsorb s h⟩
    | failed => exact ⟨_, _, _, _, .childFailed s h⟩
    | squeeze =>
      by_cases hn : s.np = 32
      · exact ⟨_, _, _, _, .child s h hn⟩
      · exact ⟨_, _, _, _, .childNoParent s h hn⟩
  | nhRd i =>
    by_cases h : s.np = 32
    · by_cases hi : i.toNat < 32
      · exact ⟨_, _, _, _, .rd s i h hi⟩
      · exact ⟨_, _, _, _, .rdIndex s i h (by omega)⟩
    · exact ⟨_, _, _, _, .rdNotValid s i h⟩

/-- What exec answers is the answer of an effect: the inversion lemma of exec. -/
theorem effect_of_exec {i s t} (h : exec i s = .next t) :
    ∃ u st n d, Effect i s u st n d ∧ t = u.reply (responseWord st n d) := by
  obtain ⟨u, st, n, d, he⟩ := exists_effect i s
  refine ⟨u, st, n, d, he, ?_⟩
  rw [exec_of_effect he] at h
  cases h
  rfl

/-- A command changes neither stream (but by its answer) nor the parameter. -/
theorem Effect.streams {i s u st n d} (h : Effect i s u st n d) :
    u.cmdIn = s.cmdIn ∧ u.respOut = s.respOut ∧ u.maxLen = s.maxLen := by
  cases h <;> first | exact ⟨rfl, rfl, rfl⟩ | (unfold absorbByte; split <;> exact ⟨rfl, rfl, rfl⟩)

/-- A command looks at neither stream. -/
theorem Effect.withStreams {i s u st n d} (h : Effect i s u st n d) (c : List CommandWord) (o : List ResponseWord) :
    Effect i { s with cmdIn := c, respOut := o } { u with cmdIn := c, respOut := o } st n d := by
  cases h with
  | absorb _ b h hm =>
    have e : { absorbByte b s with cmdIn := c, respOut := o } = absorbByte b { s with cmdIn := c, respOut := o } := by
      unfold absorbByte
      by_cases hp : s.pos.val + 1 = 136 <;> simp [hp, State.posIndex]
    rw [e]
    exact .absorb _ b h hm
  | status => exact .status _
  | srst => exact .srst _
  | init => exact .init _
  | absorbFailed _ b h => exact .absorbFailed _ b h
  | absorbIdle _ b h => exact .absorbIdle _ b h
  | absorbSqueeze _ b h => exact .absorbSqueeze _ b h
  | absorbFull _ b h hm => exact .absorbFull _ b h hm
  | finalFailed _ h => exact .finalFailed _ h
  | finalIdle _ h => exact .finalIdle _ h
  | finalSqueeze _ h => exact .finalSqueeze _ h
  | final _ h => exact .final _ h
  | sqzFailed _ i h => exact .sqzFailed _ i h
  | sqzIdle _ i h => exact .sqzIdle _ i h
  | sqzAbsorb _ i h => exact .sqzAbsorb _ i h
  | sqzIndex _ i h hi => exact .sqzIndex _ i h hi
  | sqz _ i h hi => exact .sqz { s with cmdIn := c, respOut := o } i h hi
  | hxePfx => exact .hxePfx _
  | hxeByte _ b => exact .hxeByte _ b
  | hxdStart => exact .hxdStart _
  | charIdle _ ch h => exact .charIdle _ ch h
  | charFailed _ ch h => exact .charFailed _ ch h
  | charZero _ h => exact .charZero _ h
  | charNotZero _ ch h hc => exact .charNotZero _ ch h hc
  | charX _ h => exact .charX _ h
  | charNotX _ ch h hc => exact .charNotX _ ch h hc
  | charHigh _ ch v h hv => exact .charHigh _ ch v h hv
  | charNotHigh _ ch h hv => exact .charNotHigh _ ch h hv
  | charLow _ ch v h hv => exact .charLow { s with cmdIn := c, respOut := o } ch v h hv
  | charNotLow _ ch h hv => exact .charNotLow _ ch h hv
  | endIdle _ h => exact .endIdle _ h
  | endWellFormed _ h => exact .endWellFormed _ h
  | endMalformed _ h h' => exact .endMalformed _ h h'
  | nhRoot => exact .nhRoot _
  | nhClr => exact .nhClr _
  | ldbFull _ b h => exact .ldbFull _ b h
  | ldb _ b h => exact .ldb { s with cmdIn := c, respOut := o } b h
  | childFailed _ h => exact .childFailed _ h
  | childIdle _ h => exact .childIdle _ h
  | childAbsorb _ h => exact .childAbsorb _ h
  | childNoParent _ h hn => exact .childNoParent _ h hn
  | child _ h hn => exact .child { s with cmdIn := c, respOut := o } h hn
  | rdNotValid _ i h => exact .rdNotValid _ i h
  | rdIndex _ i h hi => exact .rdIndex _ i h hi
  | rd _ i h hi => exact .rd { s with cmdIn := c, respOut := o } i h hi

/-- Every command is answered with a next state and exactly one response (00_scope.md R5, 30_encoding.md R43), leaves the
command stream and the parameter alone, and does the same whatever the two streams hold. -/
theorem exec_answers (i : Instr) (s : State) :
    ∃ (t : State) (r : ResponseWord), exec i s = .next t ∧ t.respOut = s.respOut ++ [r] ∧ t.cmdIn = s.cmdIn
      ∧ t.maxLen = s.maxLen
      ∧ ∀ (c : List CommandWord) (o : List ResponseWord),
          exec i { s with cmdIn := c, respOut := o } = .next { t with cmdIn := c, respOut := o ++ [r] } := by
  obtain ⟨u, st, n, d, he⟩ := exists_effect i s
  obtain ⟨hc, ho, hm⟩ := he.streams
  exact ⟨_, responseWord st n d, exec_of_effect he, by simp [ho], by simp [hc], by simp [hm],
    fun c o => exec_of_effect (he.withStreams c o)⟩

end Sys2Proof.Machine
end

