-- ==== Sys2Proof/Laws/Hex.lean ====
section
/-! SUPPORT. Hex digits: the decoder's table in the terms of its ranges, and the conversions between bytes, nibbles and digits
(42_hex_codec.md R85, R86). -/

namespace Sys2Proof.Machine

/-- The table of R85 says what its ranges say. -/
theorem hexval_eq_some_iff (c : Byte) (v : Nibble) : hexval c = some v ↔ IsHexDigit c v := by
  have h : ∀ (c : Byte) (v : Nibble), hexval c = some v ↔
      ((0x30 ≤ c.toNat ∧ c.toNat ≤ 0x39 ∧ v.toNat = c.toNat - 0x30)
        ∨ (0x61 ≤ c.toNat ∧ c.toNat ≤ 0x66 ∧ v.toNat = c.toNat - 0x61 + 10)
        ∨ (0x41 ≤ c.toNat ∧ c.toNat ≤ 0x46 ∧ v.toNat = c.toNat - 0x41 + 10)) := by
    decide +kernel
  exact h c v

/-- A character that is the digit of no value. -/
theorem hexval_eq_none_iff (c : Byte) : hexval c = none ↔ ∀ v, ¬ IsHexDigit c v := by
  rw [Option.eq_none_iff_forall_not_mem]
  exact forall_congr' fun v => not_congr (hexval_eq_some_iff c v)

/-- A digit of a value reads as that value. -/
@[simp] theorem hexval_hexchar (v : Nibble) : hexval (hexchar v) = some v := by
  revert v
  decide +kernel

/-- The digit of a character's value is the character in lower case. -/
theorem hexchar_of_hexval {c : Byte} {v : Nibble} (h : hexval c = some v) : hexchar v = lowerHex c := by
  have h' : ∀ (c : Byte) (v : Nibble), hexval c = some v → hexchar v = lowerHex c := by decide +kernel
  exact h' c v h

/-- A digit is no upper-case letter. -/
@[simp] theorem lowerHex_hexchar (v : Nibble) : lowerHex (hexchar v) = hexchar v := by
  revert v
  decide +kernel

/-- A byte is its two nibbles (R86). -/
@[simp] theorem pack_nibbles (b : Byte) : pack (hiNibble b) (loNibble b) = b := by
  revert b
  decide +kernel

@[simp] theorem hiNibble_pack (hi lo : Nibble) : hiNibble (pack hi lo) = hi := by
  revert hi lo
  decide +kernel

@[simp] theorem loNibble_pack (hi lo : Nibble) : loNibble (pack hi lo) = lo := by
  revert hi lo
  decide +kernel

/-- The value of a packed byte (R86). -/
theorem pack_toNat (hi lo : Nibble) : (pack hi lo).toNat = 16 * hi.toNat + lo.toNat := by
  revert hi lo
  decide +kernel

/-- Reading the digits of bytes gives their nibbles. -/
theorem hexvals_hexDigits (b : List Byte) :
    hexvals (b.flatMap hexDigits) = some (b.flatMap fun x => [hiNibble x, loNibble x]) := by
  induction b with
  | nil => rfl
  | cons x b ih =>
    rw [hexvals] at ih
    simp only [hexvals, List.flatMap_cons, hexDigits, List.cons_append, List.nil_append, List.mapM_cons, hexval_hexchar] at ih ⊢
    simp only [ih]
    rfl

/-- Reading a string of digits, its first one first. -/
theorem hexvals_cons (c : Byte) (ds : List Byte) :
    hexvals (c :: ds) = (hexval c).bind fun v => (hexvals ds).map (v :: ·) := by
  simp only [hexvals, List.mapM_cons]
  cases hexval c <;> cases List.mapM hexval ds <;> rfl

/-- A value for each digit. -/
theorem length_of_hexvals {ds : List Byte} {v : List Nibble} (h : hexvals ds = some v) : v.length = ds.length := by
  induction ds generalizing v with
  | nil =>
    cases h
    rfl
  | cons c ds ih =>
    rw [hexvals_cons] at h
    cases hc : hexval c <;> cases hl : hexvals ds <;> simp only [hc, hl, Option.bind_none, Option.bind_some, Option.map_none,
      Option.map_some, reduceCtorEq, Option.some.injEq] at h
    subst h
    simp [ih hl]

/-- Packing the nibbles of bytes gives the bytes. -/
theorem packPairs_nibbles (b : List Byte) : packPairs (b.flatMap fun x => [hiNibble x, loNibble x]) = some b := by
  induction b with
  | nil => rfl
  | cons x b ih => simp [packPairs, ih]

/-- What it means that `fromHex` succeeds (R88). -/
theorem fromHex_eq_ok_iff (s : List Byte) (b : List Byte) :
    fromHex s = .ok b ↔ ∃ ds v, s = charZero :: charX :: ds ∧ hexvals ds = some v ∧ packPairs v = some b := by
  unfold fromHex
  split
  · rename_i c d ds
    split
    · rename_i h
      obtain ⟨rfl, rfl⟩ := h
      cases hv : hexvals ds with
      | none => simp [hv]
      | some v =>
        cases hp : packPairs v with
        | none => simp [hv, hp]
        | some bs => simp [hv, hp]
    · rename_i h
      simp only [reduceCtorEq, false_iff, List.cons.injEq]
      rintro ⟨_, _, ⟨rfl, rfl, rfl⟩, _⟩
      exact h ⟨rfl, rfl⟩
  · rename_i h
    simp only [reduceCtorEq, false_iff]
    rintro ⟨ds, _, rfl, _⟩
    exact h _ _ _ rfl

/-- `fromHex` has one error (R88). -/
theorem fromHex_error_of_ne_ok {s : List Byte} (h : ∀ b, fromHex s ≠ .ok b) : fromHex s = .error .formatError := by
  cases he : fromHex s with
  | ok b => exact absurd he (h b)
  | error e =>
    unfold fromHex at he
    split at he
    · split at he
      · split at he <;> cases he
        rfl
      · cases he
        rfl
    · cases he
      rfl

end Sys2Proof.Machine
end

