-- ==== Sys2Proof/Laws/PerInstr.lean ====
section
/-! SUPPORT. One lemma per command: its encoded word matches the row of spec/opcode_table.json that carries its mnemonic, under
the row's mask, and the row reads the word as the command again (30_encoding.md R41, R45). -/

namespace Sys2Proof.Laws.OpcodeRow

/-- The command has a row of the opcode table that selects its word and reads it back. -/
def Statement (i : Instr) : Prop :=
  ∃ r ∈ opcodeTable, r.mnemonic = i.mnemonic ∧ r.selects (encode i) = true ∧ r.instr (encode i) = i

theorem status : Statement .status := ⟨opcodeTable[0], by decide, rfl, by decide, rfl⟩

theorem srst : Statement .srst := ⟨opcodeTable[1], by decide, rfl, by decide, rfl⟩

theorem init : Statement .init := ⟨opcodeTable[2], by decide, rfl, by decide, rfl⟩

theorem absorb (b : Byte) : Statement (.absorb b) := by
  refine ⟨opcodeTable[3], by decide, rfl, ?_⟩
  revert b
  decide +kernel

theorem final : Statement .final := ⟨opcodeTable[4], by decide, rfl, by decide, rfl⟩

theorem sqz (i : Byte) : Statement (.sqz i) := by
  refine ⟨opcodeTable[5], by decide, rfl, ?_⟩
  revert i
  decide +kernel

theorem hxePfx : Statement .hxePfx := ⟨opcodeTable[6], by decide, rfl, by decide, rfl⟩

theorem hxeByte (b : Byte) : Statement (.hxeByte b) := by
  refine ⟨opcodeTable[7], by decide, rfl, ?_⟩
  revert b
  decide +kernel

theorem hxdStart : Statement .hxdStart := ⟨opcodeTable[8], by decide, rfl, by decide, rfl⟩

theorem hxdChar (c : Byte) : Statement (.hxdChar c) := by
  refine ⟨opcodeTable[9], by decide, rfl, ?_⟩
  revert c
  decide +kernel

theorem hxdEnd : Statement .hxdEnd := ⟨opcodeTable[10], by decide, rfl, by decide, rfl⟩

theorem nhRoot : Statement .nhRoot := ⟨opcodeTable[11], by decide, rfl, by decide, rfl⟩

theorem nhClr : Statement .nhClr := ⟨opcodeTable[12], by decide, rfl, by decide, rfl⟩

theorem nhLdb (b : Byte) : Statement (.nhLdb b) := by
  refine ⟨opcodeTable[13], by decide, rfl, ?_⟩
  revert b
  decide +kernel

theorem nhChild : Statement .nhChild := ⟨opcodeTable[14], by decide, rfl, by decide, rfl⟩

theorem nhRd (i : Byte) : Statement (.nhRd i) := by
  refine ⟨opcodeTable[15], by decide, rfl, ?_⟩
  revert i
  decide +kernel

end Sys2Proof.Laws.OpcodeRow
end

