-- ==== Sys2Proof/Laws/Run.lean ====
section
/-! SUPPORT. Runs: a step of the machine and a run over a sequence of commands, one command at a time. -/

namespace Sys2Proof.Machine

/-- A step takes the oldest word and executes the command it decodes to (30_encoding.md R48). -/
theorem step_cons {s : State} {cw : CommandWord} {rest : List CommandWord} {i : Instr} (h : s.cmdIn = cw :: rest)
    (hd : decode cw = some i) : step s = exec i { s with cmdIn := rest } := by
  simp [step, fetch_cons s cw rest h, hd]

/-- A step takes an illegal word and answers `IllegalCommand` (30_encoding.md R46). -/
theorem step_illegal {s : State} {cw : CommandWord} {rest : List CommandWord} (h : s.cmdIn = cw :: rest)
    (hd : decode cw = none) :
    step s = .next { s with cmdIn := rest, respOut := s.respOut ++ [responseWord .illegalCommand 0 0] } := by
  simp [step, fetch_cons s cw rest h, hd, execIllegal, raise, respond, State.reply]

/-- With no word presented the state stays (log entry 2). -/
theorem step_nil {s : State} (h : s.cmdIn = []) : step s = .next s := by
  simp [step, fetch_nil s h]

/-- The three things a step can do, said once. -/
theorem step_cases {s t : State} (h : step s = .next t) :
    (s.cmdIn = [] ∧ t = s)
    ∨ (∃ cw rest, s.cmdIn = cw :: rest ∧ decode cw = none
        ∧ t = { s with cmdIn := rest, respOut := s.respOut ++ [responseWord .illegalCommand 0 0] })
    ∨ (∃ cw rest i u st n d, s.cmdIn = cw :: rest ∧ decode cw = some i
        ∧ Effect i { s with cmdIn := rest } u st n d ∧ t = u.reply (responseWord st n d)) := by
  cases hc : s.cmdIn with
  | nil =>
    rw [step_nil hc] at h
    cases h
    exact .inl ⟨rfl, rfl⟩
  | cons cw rest =>
    cases hd : decode cw with
    | none =>
      rw [step_illegal hc hd] at h
      cases h
      exact .inr (.inl ⟨cw, rest, rfl, hd, rfl⟩)
    | some i =>
      rw [step_cons hc hd] at h
      obtain ⟨u, st, n, d, he, ht⟩ := effect_of_exec h
      exact .inr (.inr ⟨cw, rest, i, u, st, n, d, rfl, hd, he, ht⟩)

/-- A step always answers a next state (00_scope.md R5). -/
theorem exists_step (s : State) : ∃ t, step s = .next t := by
  cases hc : s.cmdIn with
  | nil => exact ⟨s, step_nil hc⟩
  | cons cw rest =>
    cases hd : decode cw with
    | none => exact ⟨_, step_illegal hc hd⟩
    | some i =>
      obtain ⟨t, _, ht, _⟩ := exec_answers i { s with cmdIn := rest }
      exact ⟨t, by rw [step_cons hc hd, ht]⟩

@[simp] theorem run_zero (s : State) : Host.Core.run Sys2Proof.core 0 s = .next s := rfl

/-- One step more of a run of any machine. -/
theorem core_run_succ (M : Host.Core) (n : Nat) {s t : M.State} (h : M.step s = .next t) :
    M.run (n + 1) s = M.run n t := by
  simp only [Host.Core.run, h]

/-- One step more of a run. -/
theorem run_succ {s t : State} (n : Nat) (h : step s = .next t) :
    Host.Core.run Sys2Proof.core (n + 1) s = Host.Core.run Sys2Proof.core n t := core_run_succ Sys2Proof.core n h

@[simp] theorem runCommands_nil (s : State) : runCommands [] s = .next s := rfl

/-- A run over a sequence executes its first command and goes on with the others. -/
theorem runCommands_cons {i : Instr} {is : List Instr} {s t : State} (h : exec i s = .next t) :
    runCommands (i :: is) s = runCommands is t := by
  obtain ⟨t', r, ht', ho, hc, _, hx⟩ := exec_answers i s
  rw [h] at ht'
  cases ht'
  have e : exec i { s with cmdIn := is.map encode ++ s.cmdIn } = .next (t.present is) := by
    have := hx (is.map encode ++ s.cmdIn) s.respOut
    rw [show ({ s with cmdIn := is.map encode ++ s.cmdIn, respOut := s.respOut } : State)
      = { s with cmdIn := is.map encode ++ s.cmdIn } from rfl] at this
    rw [this, ← ho, State.present, hc]
  exact run_succ is.length ((step_cons (s := s.present (i :: is)) rfl (decode_encode i)).trans e)

/-- A run over two sequences, one after the other. -/
theorem runCommands_append {xs ys : List Instr} {s t : State} (h : runCommands xs s = .next t) :
    runCommands (xs ++ ys) s = runCommands ys t := by
  induction xs generalizing s with
  | nil =>
    rw [runCommands_nil] at h
    cases h
    rfl
  | cons x xs ih =>
    obtain ⟨u, _, hu, _⟩ := exec_answers x s
    rw [runCommands_cons hu] at h
    rw [List.cons_append, runCommands_cons hu, ih h]

/-- A run over a sequence always ends in a next state, with one response for each command. -/
theorem exists_runCommands (is : List Instr) (s : State) :
    ∃ (t : State) (rs : List ResponseWord), runCommands is s = .next t ∧ rs.length = is.length
      ∧ t.respOut = s.respOut ++ rs ∧ t.cmdIn = s.cmdIn ∧ t.maxLen = s.maxLen := by
  induction is generalizing s with
  | nil => exact ⟨s, [], rfl, rfl, by simp, rfl, rfl⟩
  | cons i is ih =>
    obtain ⟨u, r, hu, ho, hc, hm, _⟩ := exec_answers i s
    obtain ⟨t, rs, ht, hl, ho', hc', hm'⟩ := ih u
    exact ⟨t, r :: rs, by rw [runCommands_cons hu, ht], by simp [hl], by simp [ho', ho], by rw [hc', hc], by rw [hm', hm]⟩

/-- What the host makes of a run: its end state, and its result from the responses the run has given. -/
theorem hostRun_of_runCommands {is : List Instr} {s t : State} {rs : List ResponseWord} (h : runCommands is s = .next t)
    (ho : t.respOut = s.respOut ++ rs) : hostRun is s = .next (t, hostResult rs) := by
  simp [hostRun, h, ho]

/-- DIGESTHEX where DIGEST has answered the bytes `d`: the commands given are those of `digestHexSeq m d`, and the result is that
of TOHEX (30_encoding.md R53). -/
theorem runDigestHex_of_ok {m d : List Byte} {s t u : State} {rs hs : List ResponseWord}
    (h : runCommands (digestSeq m) s = .next t) (ho : t.respOut = s.respOut ++ rs) (hr : hostResult rs = .ok d)
    (h' : runCommands (toHexSeq d) t = .next u) (ho' : u.respOut = t.respOut ++ hs) :
    runDigestHex m s = .next (u, hostResult hs) ∧ runCommands (digestHexSeq m d) s = .next u := by
  refine ⟨?_, (runCommands_append h).trans h'⟩
  simp only [runDigestHex, hostRun_of_runCommands h ho, hr]
  exact hostRun_of_runCommands h' ho'

/-- DIGESTHEX where DIGEST has failed: the same error, and no command more (30_encoding.md section 8). -/
theorem runDigestHex_of_error {m : List Byte} {s t : State} {rs : List ResponseWord} {e : BitVec 4}
    (h : runCommands (digestSeq m) s = .next t) (ho : t.respOut = s.respOut ++ rs) (hr : hostResult rs = .error e) :
    runDigestHex m s = .next (t, .error e) := by
  simp only [runDigestHex, hostRun_of_runCommands h ho, hr]

end Sys2Proof.Machine
end

