-- ==== Sys2Proof/Laws/StateArray.lean ====
section
/-! SUPPORT. The state array: its lanes and its bytes are the same bits, and each write changes what it says and nothing else. -/

namespace Sys2Proof.Machine

/-- A choice between five values by an index below 5 is one of the five equations. -/
theorem forall_fin5 {p : Fin 5 → Prop} (h0 : p 0) (h1 : p 1) (h2 : p 2) (h3 : p 3) (h4 : p 4) : ∀ x, p x := by
  intro x
  match x with
  | 0 => exact h0
  | 1 => exact h1
  | 2 => exact h2
  | 3 => exact h3
  | 4 => exact h4

/-- Reading a lane of an array built lane by lane. -/
@[simp] theorem lane_build (f : Fin 5 → Fin 5 → Lane) (x y : Fin 5) : (StateArray.build f).lane x y = f x y := by
  revert x y
  apply forall_fin5 <;> apply forall_fin5 <;> rfl

/-- Two state arrays with the same lanes are the same. -/
theorem StateArray.ext_lane {a b : StateArray} (h : ∀ x y, a.lane x y = b.lane x y) : a = b := by
  obtain ⟨⟨_, _, _, _, _⟩, ⟨_, _, _, _, _⟩, ⟨_, _, _, _, _⟩, ⟨_, _, _, _, _⟩, ⟨_, _, _, _, _⟩⟩ := a
  obtain ⟨⟨_, _, _, _, _⟩, ⟨_, _, _, _, _⟩, ⟨_, _, _, _, _⟩, ⟨_, _, _, _, _⟩, ⟨_, _, _, _, _⟩⟩ := b
  simp only [StateArray.mk.injEq, Plane.mk.injEq]
  refine ⟨⟨h 0 0, h 1 0, h 2 0, h 3 0, h 4 0⟩, ⟨h 0 1, h 1 1, h 2 1, h 3 1, h 4 1⟩,
    ⟨h 0 2, h 1 2, h 2 2, h 3 2, h 4 2⟩, ⟨h 0 3, h 1 3, h 2 3, h 3 3, h 4 3⟩, ⟨h 0 4, h 1 4, h 2 4, h 3 4, h 4 4⟩⟩

/-- `A[x,y] <- v` writes that lane and leaves the others. -/
@[simp] theorem lane_setLane (a : StateArray) (x y x' y' : Fin 5) (v : Lane) :
    (a.setLane x y v).lane x' y' = if x' = x ∧ y' = y then v else a.lane x' y' := by
  simp [StateArray.setLane]

@[simp] theorem lane_zero (x y : Fin 5) : StateArray.zero.lane x y = 0 := by
  revert x y
  apply forall_fin5 <;> apply forall_fin5 <;> rfl

/-- A byte is eight bits of its lane (20_memory.md R29). -/
theorem byte_getLsbD (a : StateArray) (i : Fin 200) (j : Nat) (hj : j < 8) :
    (a.byte i).getLsbD j = (a.lane (laneX i) (laneY i)).getLsbD (8 * (i.val % 8) + j) := by
  simp [StateArray.byte, hj]

/-- The lane and the place in it say which byte it is. -/
theorem byteIndex_lane (i : Fin 200) : byteIndex (laneX i) (laneY i) ⟨i.val % 8, by omega⟩ = i := by
  apply Fin.ext
  simp only [byteIndex, laneX, laneY]
  omega

@[simp] theorem laneX_byteIndex (x y : Fin 5) (k : Fin 8) : laneX (byteIndex x y k) = x := by
  apply Fin.ext
  simp only [byteIndex, laneX]
  omega

@[simp] theorem laneY_byteIndex (x y : Fin 5) (k : Fin 8) : laneY (byteIndex x y k) = y := by
  apply Fin.ext
  simp only [byteIndex, laneY]
  omega

@[simp] theorem byteIndex_mod (x y : Fin 5) (k : Fin 8) : (byteIndex x y k).val % 8 = k.val := by
  simp only [byteIndex]
  omega

/-- Bit `z` of a lane is bit `z mod 8` of its byte `z div 8` (20_memory.md R29). -/
theorem lane_getLsbD (a : StateArray) (x y : Fin 5) (z : Nat) (hz : z < 64) :
    (a.lane x y).getLsbD z = (a.byte (byteIndex x y ⟨z / 8, by omega⟩)).getLsbD (z % 8) := by
  rw [byte_getLsbD _ _ _ (Nat.mod_lt _ (by decide))]
  simp only [laneX_byteIndex, laneY_byteIndex, byteIndex_mod]
  congr 1
  omega

/-- Two state arrays with the same bytes are the same (10_state.md R10: the two views denote the same bits). -/
theorem StateArray.ext_byte {a b : StateArray} (h : ∀ i, a.byte i = b.byte i) : a = b := by
  apply StateArray.ext_lane
  intro x y
  apply BitVec.eq_of_getLsbD_eq
  intro z hz
  rw [lane_getLsbD a x y z hz, lane_getLsbD b x y z hz, h]

@[simp] theorem byte_zero (i : Fin 200) : StateArray.zero.byte i = 0 := by
  simp [StateArray.byte]

/-- `S[i] <- S[i] xor b` changes that byte and leaves the others (20_memory.md R29). -/
@[simp] theorem byte_xorByte (a : StateArray) (i j : Fin 200) (b : Byte) :
    (a.xorByte i b).byte j = if j = i then a.byte j ^^^ b else a.byte j := by
  apply BitVec.eq_of_getLsbD_eq
  intro k hk
  rw [byte_getLsbD _ _ _ hk]
  by_cases hl : laneX j = laneX i ∧ laneY j = laneY i
  · have hdiv : j.val / 8 = i.val / 8 := by
      have h1 := congrArg Fin.val hl.1
      have h2 := congrArg Fin.val hl.2
      simp only [laneX, laneY] at h1 h2
      omega
    simp only [StateArray.xorByte, lane_setLane, hl, and_self, if_true, BitVec.getLsbD_xor, BitVec.getLsbD_shiftLeft,
      BitVec.getLsbD_setWidth]
    by_cases hij : j = i
    · subst hij
      simp only [if_true, BitVec.getLsbD_xor, byte_getLsbD _ _ _ hk]
      congr 1
      have h1 : 8 * (j.val % 8) + k < 64 := by omega
      have h2 : ¬ 8 * (j.val % 8) + k < 8 * (j.val % 8) := by omega
      simp [h1, h2]
      intro _
      omega
    · have hm : j.val % 8 ≠ i.val % 8 := by
        intro h
        exact hij (Fin.ext (by omega))
      simp only [hij, if_false, byte_getLsbD _ _ _ hk, hl.1, hl.2]
      by_cases hlt : 8 * (j.val % 8) + k < 8 * (i.val % 8)
      · simp [hlt]
      · have h3 : 8 ≤ 8 * (j.val % 8) + k - 8 * (i.val % 8) := by omega
        rw [BitVec.getLsbD_of_ge b _ h3]
        simp
  · have hij : j ≠ i := by
      rintro rfl
      exact hl ⟨rfl, rfl⟩
    simp only [StateArray.xorByte, lane_setLane, hl, if_false, hij, byte_getLsbD _ _ _ hk]

/-- Xoring `0x00` into a byte changes nothing (41_digest_engine.md R77 corner case 2, R80). -/
@[simp] theorem xorByte_zero (a : StateArray) (i : Fin 200) : a.xorByte i 0 = a := by
  apply StateArray.ext_byte
  intro j
  rw [byte_xorByte]
  split <;> simp

/-- Two xors into the same byte are one. -/
theorem xorByte_xorByte (a : StateArray) (i : Fin 200) (b c : Byte) :
    (a.xorByte i b).xorByte i c = a.xorByte i (b ^^^ c) := by
  apply StateArray.ext_byte
  intro j
  simp only [byte_xorByte]
  split <;> simp [BitVec.xor_assoc]

/-- Xors commute. -/
theorem xorByte_comm (a : StateArray) (i j : Fin 200) (b c : Byte) :
    (a.xorByte i b).xorByte j c = (a.xorByte j c).xorByte i b := by
  apply StateArray.ext_byte
  intro k
  simp only [byte_xorByte]
  split <;> split <;> simp [BitVec.xor_assoc, BitVec.xor_comm c b]

/-- The value of a lane made of eight bytes, least significant first (20_memory.md R28). -/
theorem laneOfBytes_toNat (f : Fin 8 → Byte) :
    (laneOfBytes f).toNat = (f 0).toNat + 2 ^ 8 * (f 1).toNat + 2 ^ 16 * (f 2).toNat + 2 ^ 24 * (f 3).toNat
      + 2 ^ 32 * (f 4).toNat + 2 ^ 40 * (f 5).toNat + 2 ^ 48 * (f 6).toNat + 2 ^ 56 * (f 7).toNat := by
  have h0 := (f 0).isLt
  have h1 := (f 1).isLt
  have h2 := (f 2).isLt
  have h3 := (f 3).isLt
  have h4 := (f 4).isLt
  have h5 := (f 5).isLt
  have h6 := (f 6).isLt
  have h7 := (f 7).isLt
  simp only [laneOfBytes, BitVec.toNat_add, BitVec.toNat_shiftLeft, BitVec.toNat_setWidth, Nat.shiftLeft_eq]
  omega

/-- Byte `k` of a lane made of eight bytes. -/
theorem laneOfBytes_byte (f : Fin 8 → Byte) (k : Fin 8) : (laneOfBytes f >>> (8 * k.val)).setWidth 8 = f k := by
  apply BitVec.eq_of_toNat_eq
  have h0 := (f 0).isLt
  have h1 := (f 1).isLt
  have h2 := (f 2).isLt
  have h3 := (f 3).isLt
  have h4 := (f 4).isLt
  have h5 := (f 5).isLt
  have h6 := (f 6).isLt
  have h7 := (f 7).isLt
  rw [BitVec.toNat_setWidth, BitVec.toNat_ushiftRight, laneOfBytes_toNat, Nat.shiftRight_eq_div_pow]
  match k with
  | 0 | 1 | 2 | 3 | 4 | 5 | 6 | 7 =>
    norm_num
    omega

/-- The bytes of an array made of bytes are those bytes (20_memory.md R28). -/
@[simp] theorem byte_ofBytes (f : Fin 200 → Byte) (i : Fin 200) : (StateArray.ofBytes f).byte i = f i := by
  have h := laneOfBytes_byte (fun k => f (byteIndex (laneX i) (laneY i) k)) ⟨i.val % 8, by omega⟩
  simp only [byteIndex_lane] at h
  simpa [StateArray.byte, StateArray.ofBytes] using h

/-- A lane is its eight bytes (20_memory.md R28). -/
theorem lane_eq_laneOfBytes (a : StateArray) (x y : Fin 5) :
    a.lane x y = laneOfBytes fun k => a.byte (byteIndex x y k) := by
  have h : a = StateArray.ofBytes a.byte := StateArray.ext_byte fun i => (byte_ofBytes a.byte i).symm
  calc a.lane x y = (StateArray.ofBytes a.byte).lane x y := by rw [← h]
    _ = _ := by simp [StateArray.ofBytes]

/-- Byte `i` of the digest window is `S[i]` (20_memory.md R30). -/
@[simp] theorem window_get (a : StateArray) (i : Fin 32) : a.window[i] = a.byte (i.castLE (by decide)) := by
  simp [StateArray.window]

end Sys2Proof.Machine
end

