-- ==== Sys2Proof/Laws/Sponge.lean ====
section
/-! SUPPORT. The sponge: what one more byte does to a message in progress, and what finishing it does. These are the facts that
tie the commands, which absorb byte by byte, to the function `digest`, which absorbs block by block
(41_digest_engine.md R80). -/

namespace Sys2Proof.Machine

/-- Xoring bytes in: a byte at an index that the list does not name stays. -/
theorem byte_foldl_xorByte_not_mem {n : Nat} (e : Fin n → Fin 200) (f : Fin n → Byte) (l : List (Fin n))
    (a : StateArray) (i : Fin 200) (h : ∀ k ∈ l, e k ≠ i) :
    (l.foldl (fun a k => a.xorByte (e k) (f k)) a).byte i = a.byte i := by
  induction l generalizing a with
  | nil => rfl
  | cons k l ih =>
    rw [List.foldl_cons, ih _ fun k' hk' => h k' (List.mem_cons_of_mem _ hk'), byte_xorByte,
      if_neg fun e => h k List.mem_cons_self e.symm]

/-- Xoring bytes in at different indices: a byte named by the list takes its own. -/
theorem byte_foldl_xorByte_mem {n : Nat} (e : Fin n → Fin 200) (he : Function.Injective e) (f : Fin n → Byte)
    (l : List (Fin n)) (hn : l.Nodup) (a : StateArray) (k : Fin n) (hk : k ∈ l) :
    (l.foldl (fun a k => a.xorByte (e k) (f k)) a).byte (e k) = a.byte (e k) ^^^ f k := by
  induction l using List.reverseRecOn with
  | nil => cases hk
  | append_singleton l m ih =>
    rw [List.foldl_append, List.foldl_cons, List.foldl_nil, byte_xorByte]
    by_cases hm : k = m
    · subst hm
      have hnot : k ∉ l := fun h => (List.nodup_append.mp hn).2.2 k h k (by simp) rfl
      rw [if_pos rfl, byte_foldl_xorByte_not_mem e f l a (e k) fun k' hk' h => hnot (he h ▸ hk')]
    · rw [if_neg fun h => hm (he h)]
      exact ih (List.nodup_append.mp hn).1 (by simpa [hm] using hk)

/-- A byte of an array into which one block has been xored: the block's byte, where the index is below 136. -/
theorem byte_xorBlock (p : List Byte) (a : StateArray) (j : Nat) (i : Fin 200) :
    (xorBlock p a j).byte i = if i.val < 136 then a.byte i ^^^ p.getD (rate * j + i.val) 0x00 else a.byte i := by
  have hm : ∀ k, k ∈ List.finRange 136 := List.mem_finRange
  have hn := List.nodup_finRange 136
  rw [xorBlock]
  revert hm hn
  generalize List.finRange 136 = l
  intro hm hn
  by_cases h : i.val < 136
  · obtain ⟨k, rfl⟩ : ∃ k : Fin 136, i = k.castLE (by decide) := ⟨⟨i.val, h⟩, rfl⟩
    rw [if_pos h, byte_foldl_xorByte_mem (Fin.castLE (by decide)) (Fin.castLE_injective _)
      (fun k : Fin 136 => p.getD (rate * j + k.val) 0x00) l hn a k (hm k), Fin.val_castLE]
  · rw [if_neg h]
    exact byte_foldl_xorByte_not_mem (Fin.castLE (by decide)) (fun k => p.getD (rate * j + k.val) 0x00) l a i
      fun k _ e => h (e ▸ k.isLt)

/-- The blocks absorbed, one more. -/
theorem absorbBlocks_succ (p : List Byte) (k : Nat) :
    absorbBlocks p (k + 1) = keccakF (xorBlock p (absorbBlocks p k) k) := by
  simp [absorbBlocks, List.range_succ]

/-- A block of a longer message is the block of any message it starts with, as far as that goes. -/
theorem absorbBlocks_congr {p q : List Byte} {k : Nat}
    (h : ∀ n, n < rate * k → p.getD n 0x00 = q.getD n 0x00) : absorbBlocks p k = absorbBlocks q k := by
  induction k with
  | zero => simp [absorbBlocks]
  | succ k ih =>
    have hx : ∀ a, xorBlock p a k = xorBlock q a k := by
      intro a
      apply StateArray.ext_byte
      intro i
      rw [byte_xorBlock, byte_xorBlock]
      by_cases hi : i.val < 136
      · rw [if_pos hi, if_pos hi, h (rate * k + i.val) (by rw [Nat.mul_succ]; exact Nat.add_lt_add_left hi _)]
      · rw [if_neg hi, if_neg hi]
    rw [absorbBlocks_succ, absorbBlocks_succ, ih fun n hn => h n (hn.trans_le (Nat.mul_le_mul_left _ (Nat.le_succ k))), hx]

/-- No byte absorbed yet: the zero array. -/
theorem absorbed_nil : absorbed [] = .zero := by
  apply StateArray.ext_byte
  intro i
  simp [absorbed, byte_xorBlock, absorbBlocks]

/-- A byte of a message in progress. -/
theorem byte_absorbed (m : List Byte) (i : Fin 200) :
    (absorbed m).byte i =
      if i.val < 136 then
        (absorbBlocks m (m.length / rate)).byte i ^^^ m.getD (rate * (m.length / rate) + i.val) 0x00
      else (absorbBlocks m (m.length / rate)).byte i := by
  rw [absorbed, byte_xorBlock]

theorem getD_append_left {m l : List Byte} {n : Nat} (h : n < m.length) : (m ++ l).getD n 0x00 = m.getD n 0x00 := by
  simp [List.getD, List.getElem?_append, h]

theorem getD_beyond {m : List Byte} {n : Nat} (h : m.length ≤ n) : m.getD n 0x00 = 0x00 := by
  rw [List.getD, List.getElem?_eq_none h]
  rfl

/-- One more byte, not the 136th of its block: it is xored in at its place (41_digest_engine.md R77). -/
theorem absorbed_snoc (m : List Byte) (b : Byte) (i : Fin 200) (hi : i.val = m.length % rate)
    (h : m.length % rate + 1 ≠ rate) : absorbed (m ++ [b]) = (absorbed m).xorByte i b := by
  have hr : rate = 136 := rfl
  have hq : (m ++ [b]).length / rate = m.length / rate := by
    simp only [List.length_append, List.length_singleton, hr] at *
    omega
  have hb : absorbBlocks (m ++ [b]) (m.length / rate) = absorbBlocks m (m.length / rate) := by
    apply absorbBlocks_congr
    intro n hn
    apply getD_append_left
    have := Nat.mul_div_le m.length rate
    omega
  apply StateArray.ext_byte
  intro j
  rw [byte_xorByte, byte_absorbed, byte_absorbed, hq, hb]
  by_cases hj : j.val < 136
  · simp only [hj, if_true]
    by_cases he : j = i
    · subst he
      have e1 : rate * (m.length / rate) + j.val = m.length := by
        rw [hi]
        exact Nat.div_add_mod m.length rate
      have e2 : (m ++ [b]).getD m.length 0x00 = b := by simp [List.getD]
      have e3 : m.getD m.length 0x00 = 0x00 := by simp [List.getD]
      simp only [if_true, e1, e2, e3]
      simp
    · have hne : j.val ≠ m.length % rate := fun h => he (Fin.ext (h.trans hi.symm))
      have e1 : (m ++ [b]).getD (rate * (m.length / rate) + j.val) 0x00
          = m.getD (rate * (m.length / rate) + j.val) 0x00 := by
        have hm := Nat.div_add_mod m.length rate
        by_cases hlt : rate * (m.length / rate) + j.val < m.length
        · exact getD_append_left hlt
        · have hl : (m ++ [b]).length ≤ rate * (m.length / rate) + j.val := by
            rw [List.length_append, List.length_singleton]
            omega
          rw [getD_beyond hl, getD_beyond (by omega)]
      simp only [he, if_false, e1]
  · have he : j ≠ i := by
      rintro rfl
      have := Nat.mod_lt m.length (show 0 < rate by decide)
      omega
    simp [hj, he]

/-- One more byte, the 136th of its block: it is xored in at 135 and the block is permuted (41_digest_engine.md R77). -/
theorem absorbed_snoc_full (m : List Byte) (b : Byte) (i : Fin 200) (hi : i.val = m.length % rate)
    (h : m.length % rate + 1 = rate) : absorbed (m ++ [b]) = keccakF ((absorbed m).xorByte i b) := by
  have hr : rate = 136 := rfl
  have hq : (m ++ [b]).length / rate = m.length / rate + 1 := by
    simp only [List.length_append, List.length_singleton, hr] at *
    omega
  have hb : absorbBlocks (m ++ [b]) (m.length / rate) = absorbBlocks m (m.length / rate) := by
    apply absorbBlocks_congr
    intro n hn
    apply getD_append_left
    have := Nat.mul_div_le m.length rate
    omega
  have hm := Nat.div_add_mod m.length rate
  have hx : xorBlock (m ++ [b]) (absorbBlocks m (m.length / rate)) (m.length / rate) = (absorbed m).xorByte i b := by
    apply StateArray.ext_byte
    intro j
    rw [byte_xorByte, byte_xorBlock, byte_absorbed]
    by_cases hj : j.val < 136
    · simp only [hj, if_true]
      by_cases he : j = i
      · subst he
        have e1 : rate * (m.length / rate) + j.val = m.length := by omega
        have e2 : (m ++ [b]).getD m.length 0x00 = b := by simp [List.getD]
        have e3 : m.getD m.length 0x00 = 0x00 := by simp [List.getD]
        simp only [if_true, e1, e2, e3]
        simp
      · have hne : j.val ≠ m.length % rate := fun h => he (Fin.ext (h.trans hi.symm))
        have hlt : rate * (m.length / rate) + j.val < m.length := by omega
        simp only [he, if_false, getD_append_left hlt]
    · have he : j ≠ i := by
        rintro rfl
        omega
      simp [hj, he]
  apply StateArray.ext_byte
  intro j
  have hnil : ∀ n, (m ++ [b]).getD (rate * (m.length / rate + 1) + n) 0x00 = 0x00 := by
    intro n
    exact getD_beyond (by rw [List.length_append, List.length_singleton, Nat.mul_succ]; omega)
  rw [byte_absorbed, hq, absorbBlocks_succ, hb, hx, hnil]
  split <;> simp

/-- The padded message has whole blocks (41_digest_engine.md R70). -/
theorem pad_length (m : List Byte) : (pad m).length = rate * (m.length / rate + 1) := by
  have hr : rate = 136 := rfl
  simp only [pad, padding, List.length_append, hr]
  split <;> simp only [List.length_append, List.length_singleton, List.length_replicate] <;> omega

/-- A byte of the padding (41_digest_engine.md R70): `0x01` first, `0x80` last, both in one byte where there is one only. -/
theorem pad_getD (m : List Byte) (j : Nat) (hj : j < rate) :
    (pad m).getD (rate * (m.length / rate) + j) 0x00 =
      m.getD (rate * (m.length / rate) + j) 0x00 ^^^
        ((if j = m.length % rate then padFirst else 0x00) ^^^ (if j = 135 then padLast else 0x00)) := by
  have hr : rate = 136 := rfl
  have hm := Nat.div_add_mod m.length rate
  have hlt := Nat.mod_lt m.length (show 0 < rate by decide)
  by_cases h : j < m.length % rate
  · have h1 : rate * (m.length / rate) + j < m.length := by omega
    have h2 : j ≠ m.length % rate := by omega
    have h3 : j ≠ 135 := by omega
    rw [pad, getD_append_left h1]
    simp [h2, h3]
  · have h1 : m.length ≤ rate * (m.length / rate) + j := by omega
    have e1 : m.getD (rate * (m.length / rate) + j) 0x00 = 0x00 := getD_beyond h1
    have e2 : (pad m).getD (rate * (m.length / rate) + j) 0x00 = (padding m.length).getD (j - m.length % rate) 0x00 := by
      rw [pad, List.getD, List.getElem?_append_right h1, List.getD]
      congr 2
      omega
    rw [e1, e2, padding]
    by_cases hq : rate - m.length % rate = 1
    · have hj' : j = m.length % rate := by omega
      have hj2 : j = 135 := by omega
      simp only [hq, if_true, hj', Nat.sub_self]
      rw [if_pos (by omega)]
      decide
    · simp only [hq, if_false]
      by_cases hj' : j = m.length % rate
      · have h3 : j ≠ 135 := by omega
        subst hj'
        simp [h3, padFirst]
      · obtain ⟨k, hk⟩ : ∃ k, j = m.length % rate + 1 + k := ⟨j - m.length % rate - 1, by omega⟩
        have hk' : j - m.length % rate = k + 1 := by omega
        rw [hk']
        simp only [hj', if_false]
        by_cases hl : j = 135
        · have : k = rate - m.length % rate - 2 := by omega
          subst this
          simp [hl, padLast, List.getD]
        · have : k < rate - m.length % rate - 2 := by omega
          simp [hl, List.getD, List.getElem?_append, this]

/-- FINAL's two xors finish the block that holds the end of the message (41_digest_engine.md R78, R80). -/
theorem digest_eq_final (m : List Byte) (i : Fin 200) (hi : i.val = m.length % rate) :
    digest m = (keccakF (padArray (absorbed m) i)).window := by
  have hr : rate = 136 := rfl
  have hm := Nat.div_add_mod m.length rate
  have hk : (pad m).length / rate = m.length / rate + 1 := by
    rw [pad_length]
    exact Nat.mul_div_cancel_left _ (by decide)
  have hb : absorbBlocks (pad m) (m.length / rate) = absorbBlocks m (m.length / rate) := by
    apply absorbBlocks_congr
    intro n hn
    exact getD_append_left (by omega)
  have hx : xorBlock (pad m) (absorbBlocks m (m.length / rate)) (m.length / rate) = padArray (absorbed m) i := by
    apply StateArray.ext_byte
    intro j
    rw [padArray, byte_xorByte, byte_xorByte, byte_xorBlock, byte_absorbed]
    have e1 : (j = i) ↔ j.val = m.length % rate := ⟨fun h => by rw [h, hi], fun h => Fin.ext (h.trans hi.symm)⟩
    have e2 : (j = 135) ↔ j.val = 135 := ⟨fun h => by rw [h]; rfl, fun h => Fin.ext h⟩
    by_cases hj : j.val < 136
    · rw [pad_getD m j.val hj]
      simp only [hj, if_true, e1, e2]
      split <;> split <;> simp [BitVec.xor_assoc]
    · have hlt := Nat.mod_lt m.length (show 0 < rate by decide)
      have h1 : ¬ j.val = m.length % rate := by omega
      have h2 : ¬ j.val = 135 := by omega
      simp only [hj, if_false, e1, e2, h1, h2]
  rw [digest, hk, absorbBlocks_succ, hb, hx]

/-- NH_CHILD's internal array is the 64-byte message in progress with its padding (43_name_hasher.md R110, R113). -/
theorem childArray_eq (p d : Vector Byte 32) : childArray p d = padArray (absorbed (p.toList ++ d.toList)) 64 := by
  have hl : (p.toList ++ d.toList).length = 64 := by simp
  apply StateArray.ext_byte
  intro j
  rw [childArray, byte_ofBytes, padArray, byte_xorByte, byte_xorByte, byte_absorbed, hl]
  have h0 : (64 / rate) = 0 := by decide
  simp only [h0, Nat.mul_zero, Nat.zero_add]
  have hz : (absorbBlocks (p.toList ++ d.toList) 0).byte j = 0 := by simp [absorbBlocks]
  simp only [hz]
  have e1 : (j = 64) ↔ j.val = 64 := ⟨fun h => by rw [h]; rfl, fun h => Fin.ext h⟩
  have e2 : (j = 135) ↔ j.val = 135 := ⟨fun h => by rw [h]; rfl, fun h => Fin.ext h⟩
  simp only [e1, e2]
  by_cases c1 : j.val < 32
  · have : j.val < 136 := by omega
    simp [c1, this, show j.val ≠ 64 by omega, show j.val ≠ 135 by omega, List.getD, List.getElem?_append]
  · by_cases c2 : j.val < 64
    · have : j.val < 136 := by omega
      have hg : (p.toList ++ d.toList)[j.val]'(by omega) = d[j.val - 32] := by
        rw [List.getElem_append_right (by simp; omega)]
        simp
      simp [c1, c2, this, show j.val ≠ 64 by omega, show j.val ≠ 135 by omega, List.getD, hg]
    · have hn : (p.toList ++ d.toList).getD j.val 0x00 = 0x00 := getD_beyond (by omega)
      simp only [c1, c2, dite_false, hn]
      split <;> split <;> simp_all

/-- NH_CHILD computes the digest of the node followed by the label digest (43_name_hasher.md R110 corner case 4). -/
theorem child_is_digest (p d : Vector Byte 32) :
    (keccakF (childArray p d)).window = digest (p.toList ++ d.toList) := by
  rw [childArray_eq, digest_eq_final _ 64]
  simp only [List.length_append, Vector.length_toList]
  decide

end Sys2Proof.Machine
end

