-- ==== Sys2Proof/Tests/Slice0.lean ====
section
/-! SUPPORT. The model's own tests, each about one step or one function value, with the expected value taken from the spec, and a
witness for the hypotheses of each obligation, clause by clause. -/

namespace Sys2Proof.Tests

-- One theorem at a time: the package is compiled as one text under a memory limit that counts a stack for each thread.
set_option Elab.async false

open Sys2Proof Sys2Proof.Machine

/-- A small state: the sequencing registers as given, everything else as after reset. -/
def at' (ph : Phase) (pos : Fin 136) (cnt : Nat) (hd : HdPhase) (np : Fin 33) (limit : Option Nat) : State :=
  { State.resetWith limit with ph := ph, pos := pos, cnt := cnt, hdPh := hd, np := np }

/-- The state array whose bytes are those of a list, then zeros. -/
def arrayOf (l : List Byte) : StateArray := .ofBytes fun i => l.getD i.val 0

/-- The state after a command. -/
def after (i : Instr) (s : State) : Option State :=
  match exec i s with
  | .next t => some t
  | .fault _ => none
  | .refused _ => none

/-- The response to a command. -/
def reply (i : Instr) (s : State) : Option ResponseWord := (after i s).bind fun t => t.respOut.getLast?

/-- The bytes that the digest window holds after a command. -/
def windowAfter (i : Instr) (s : State) : Option (Vector Byte 32) := (after i s).map fun t => t.arr.window

/-! ### Well-formedness: each check refuses an ill-formed written command (30_encoding.md R49) -/

theorem test_wellFormed_format_Z_takes_no_operand : (Written.mk .FINAL (some 0)).wellFormed = false := by decide
theorem test_wellFormed_format_B_needs_operand : (Written.mk .ABSORB none).wellFormed = false := by decide
theorem test_wellFormed_operand_is_a_byte : (Written.mk .ABSORB (some 256)).wellFormed = false := by decide
theorem test_wellFormed_accepts :
    (Written.mk .ABSORB (some 255)).wellFormed = true ∧ (Written.mk .FINAL none).wellFormed = true := by decide

/-! ### Decoding: one word for each command, bit by bit from R40 and R45 -/

theorem test_decode_status : decode 0b00000001_00000000#16 = some .status := by decide
theorem test_decode_srst : decode 0b00000010_00000000#16 = some .srst := by decide
theorem test_decode_init : decode 0b00010000_00000000#16 = some .init := by decide
theorem test_decode_absorb : decode 0b00010001_01101000#16 = some (.absorb 0x68) := by decide
theorem test_decode_final : decode 0b00010010_00000000#16 = some .final := by decide
theorem test_decode_sqz : decode 0b00010011_00011111#16 = some (.sqz 31) := by decide
theorem test_decode_hxePfx : decode 0b00100000_00000000#16 = some .hxePfx := by decide
theorem test_decode_hxeByte : decode 0b00100001_11000101#16 = some (.hxeByte 0xC5) := by decide
theorem test_decode_hxdStart : decode 0b00101000_00000000#16 = some .hxdStart := by decide
theorem test_decode_hxdChar : decode 0b00101001_01111000#16 = some (.hxdChar 0x78) := by decide
theorem test_decode_hxdEnd : decode 0b00101010_00000000#16 = some .hxdEnd := by decide
theorem test_decode_nhRoot : decode 0b00110000_00000000#16 = some .nhRoot := by decide
theorem test_decode_nhClr : decode 0b00110001_00000000#16 = some .nhClr := by decide
theorem test_decode_nhLdb : decode 0b00110010_11111111#16 = some (.nhLdb 0xFF) := by decide
theorem test_decode_nhChild : decode 0b00110011_00000000#16 = some .nhChild := by decide
theorem test_decode_nhRd : decode 0b00110100_00100000#16 = some (.nhRd 32) := by decide

/-- Illegal words (R46): undefined opcodes, a gap in each group, and format Z with an operand. -/
theorem test_decode_illegal :
    [0x0000, 0xFFFF, 0x0101, 0x0300, 0x1080, 0x1201, 0x1400, 0x2200, 0x2701, 0x2B00, 0x3301, 0x3500].all
      (fun w => (decode w).isNone) = true := by decide

/-- The host's reading of a table row, and the row run as the first command after reset. -/
theorem test_decodeTableWord : decodeTableWord 16 0x1168 = some (.absorb 0x68) ∧ decodeTableWord 16 0x0000 = none := by decide
theorem test_withFetchWord :
    (match step (State.reset.withFetchWord 16 0x1000) with
      | .next t => decide (t.ph = .absorb ∧ t.cmdIn = [] ∧ t.respOut = [0x000000])
      | _ => false) = true := by decide +kernel

/-- The examples of R49, read from text. -/
theorem test_assemble_examples :
    (assemble ['A', 'B', 'S', 'O', 'R', 'B', ' ', '0', 'x', '6', '8']).map encode = some 0x1168
    ∧ (assemble ['S', 'Q', 'Z', ' ', '3', '1']).map encode = some 0x131F
    ∧ (assemble ['H', 'X', 'D', '_', 'C', 'H', 'A', 'R', ' ', '\'', 'x', '\'']).map encode = some 0x2978
    ∧ (assemble ['F', 'I', 'N', 'A', 'L', ' ', ';', ' ', 'p', 'a', 'd']).map encode = some 0x1200 := by
  decide +kernel
theorem test_assemble_refuses :
    assemble ['S', 'Q', 'Z', ' ', '2', '5', '6'] = none ∧ assemble ['S', 'Q', 'Z'] = none
    ∧ assemble ['F', 'I', 'N', 'A', 'L', ' ', '0'] = none ∧ assemble ['f', 'i', 'n', 'a', 'l'] = none := by
  decide +kernel

/-! ### Commands: expected values from the examples of the command rules and from 95_test_vectors.md -/

/-- R115, second example: `POS = 1, NV = 1, HDPH = 2, PH = 1`. -/
theorem test_status : reply .status (at' .absorb 1 1 .hdP1 32 none) = some 0x020129 := by decide +kernel
/-- 95_test_vectors.md section 3.4: `MAXLEN = 3`, the message failed at its fourth byte. -/
theorem test_status_failed : reply .status (at' .failed 3 3 .hdIdle 0 (some 3)) = some 0x020303 := by decide +kernel
/-- R116: the reset state, whatever came before. -/
theorem test_srst :
    (after .srst { at' .failed 3 3 .hdFailed 32 (some 3) with hdHi := 7, node := kRoot }).map
      (fun t => { t with respOut := [] }) = some (State.resetWith (some 3)) := by decide +kernel
/-- R76: the message in progress is thrown away, the decoder and the node stay. -/
theorem test_init :
    after .init { at' .absorb 5 5 .hdLo 32 none with arr := arrayOf [1, 2, 3, 4, 5], node := kRoot }
      = some { at' .absorb 0 0 .hdLo 32 none with node := kRoot, respOut := [0x000000] } := by decide +kernel
/-- R77, example: `S[0] = 0x68, pos = 1, cnt = 1`. -/
theorem test_absorb :
    after (.absorb 0x68) (at' .absorb 0 0 .hdIdle 0 none)
      = some { at' .absorb 1 1 .hdIdle 0 none with arr := arrayOf [0x68], respOut := [0x000000] } := by decide +kernel
/-- 95_test_vectors.md section 3.2 (a): the 136th byte permutes; `S[0..7]`, `pos` and `cnt` afterwards. -/
theorem test_absorb_block :
    (after (.absorb 0xa3) { at' .absorb 135 135 .hdIdle 0 none with arr := arrayOf (List.replicate 135 0xa3) }).map
      (fun t => (t.pos, t.cnt, t.arr.window.toList.take 8))
      = some (0, 136, [0xda, 0xee, 0x31, 0xba, 0x7d, 0x33, 0x9a, 0x27]) := by decide +kernel
/-- R78, example: the empty message; W3J's first vector. -/
theorem test_final_empty :
    windowAfter .final (at' .absorb 0 0 .hdIdle 0 none) = some
      #v[0xc5, 0xd2, 0x46, 0x01, 0x86, 0xf7, 0x23, 0x3c, 0x92, 0x7e, 0x7d, 0xb2, 0xdc, 0xc7, 0x03, 0xc0,
         0xe5, 0x00, 0xb6, 0x53, 0xca, 0x82, 0x27, 0x3b, 0x7b, 0xfa, 0xd8, 0x04, 0x5d, 0x85, 0xa4, 0x70] := by
  decide +kernel
/-- 95_test_vectors.md section 3.2 (b): both padding bytes in one, `pos = 135`. -/
theorem test_final_135 :
    (windowAfter .final { at' .absorb 135 135 .hdIdle 0 none with arr := arrayOf (List.replicate 135 0xa3) }).map
      (fun v => v.toList.take 8) = some [0x3d, 0x28, 0xd0, 0x8c, 0x3d, 0xac, 0xab, 0x77] := by decide +kernel
/-- R79, examples: byte 31 is read; 95_test_vectors.md section 3.2 (c) rows 14 and 4 for the errors. -/
theorem test_sqz :
    reply (.sqz 31) { at' .squeeze 0 0 .hdIdle 0 none with arr := arrayOf (List.replicate 31 0 ++ [0x70, 0x99]) }
      = some 0x010070 := by decide +kernel
theorem test_sqz_errors :
    reply (.sqz 32) (at' .squeeze 0 0 .hdIdle 0 none) = some 0x500000
    ∧ reply (.sqz 40) (at' .idle 0 0 .hdIdle 0 none) = some 0x300000
    ∧ reply (.sqz 40) (at' .failed 0 0 .hdIdle 0 (some 0)) = some 0x200000 := by decide +kernel
/-- R91, example. -/
theorem test_hxePfx : reply .hxePfx State.reset = some 0x023078 := by decide +kernel
/-- R92, examples. -/
theorem test_hxeByte :
    reply (.hxeByte 0xC5) State.reset = some 0x026335 ∧ reply (.hxeByte 0x0F) State.reset = some 0x023066 := by decide +kernel
/-- R93: a failed string is abandoned. -/
theorem test_hxdStart :
    after .hxdStart { at' .idle 0 0 .hdFailed 0 none with hdHi := 9 }
      = some { at' .idle 0 0 .hdP0 0 none with respOut := [0x000000] } := by decide +kernel
/-- R94, example: the low digit `'8'` after the high digit 6; `hd_hi` keeps its value (corner case 4). -/
theorem test_hxdChar :
    after (.hxdChar 0x38) { at' .idle 0 0 .hdLo 0 none with hdHi := 6 }
      = some { at' .idle 0 0 .hdHi 0 none with hdHi := 6, respOut := [0x010068] } := by decide +kernel
/-- R94, corner cases 2 and 3: `'X'` is no second character, `'x'` is no digit. -/
theorem test_hxdChar_errors :
    (after (.hxdChar 0x58) (at' .idle 0 0 .hdP1 0 none)).map (fun t => (t.hdPh, t.respOut)) = some (.hdFailed, [0x100000])
    ∧ (after (.hxdChar 0x78) (at' .idle 0 0 .hdLo 0 none)).map (fun t => (t.hdPh, t.respOut)) = some (.hdFailed, [0x100000]) := by
  decide +kernel
/-- R95: the verdict is `OK` in HD_HI and `FormatError` after an odd number of digits (its example). -/
theorem test_hxdEnd :
    reply .hxdEnd (at' .idle 0 0 .hdHi 0 none) = some 0x000000 ∧ reply .hxdEnd (at' .idle 0 0 .hdLo 0 none) = some 0x100000 := by
  decide +kernel
/-- R107: `NODE` and `np` only; a message in progress stays. -/
theorem test_nhRoot :
    after .nhRoot (at' .absorb 1 1 .hdLo 7 none)
      = some { at' .absorb 1 1 .hdLo 32 none with node := kRoot, respOut := [0x000000] } := by decide +kernel
/-- R108: the bytes stay. -/
theorem test_nhClr :
    after .nhClr { at' .idle 0 0 .hdIdle 32 none with node := kRoot }
      = some { at' .idle 0 0 .hdIdle 0 none with node := kRoot, respOut := [0x000000] } := by decide +kernel
/-- R109: the 32nd byte makes the node valid; the 33rd is refused. -/
theorem test_nhLdb :
    (after (.nhLdb 0xAB) (at' .idle 0 0 .hdIdle 31 none)).map (fun t => (t.np, t.node[31], t.node[30])) = some (32, 0xAB, 0x00) := by
  decide +kernel
theorem test_nhLdb_full : reply (.nhLdb 0x00) (at' .idle 0 0 .hdIdle 32 none) = some 0x300000 := by decide +kernel
/-- R110, example: the child `verse` of the root; the label digest is that of 95_test_vectors.md section 3.1. -/
theorem test_nhChild :
    (after .nhChild { at' .squeeze 0 5 .hdIdle 32 none with
      node := kRoot,
      arr := arrayOf [0xc3, 0xc7, 0xdb, 0x64, 0xc6, 0xf8, 0x2c, 0xd5, 0xc5, 0x21, 0x02, 0xa1, 0x0e, 0x16, 0x0d, 0x17,
                      0x7e, 0xe4, 0x77, 0xd3, 0x90, 0x1b, 0xd3, 0x0f, 0xc3, 0x58, 0x08, 0x05, 0x6d, 0x07, 0xb8, 0xf9] }).map
      (fun t => (t.ph, t.np, t.node)) = some (.idle, 32,
        #v[0xc1, 0x4d, 0x68, 0xeb, 0x0d, 0x0a, 0x4d, 0xf3, 0x3c, 0x36, 0x56, 0xbc, 0x9e, 0x67, 0xe9, 0xcd,
           0x0a, 0xf9, 0x81, 0x16, 0x68, 0x56, 0x8c, 0x61, 0xc0, 0xc7, 0xe9, 0x8a, 0xc8, 0x30, 0xbd, 0xfa]) := by decide +kernel
theorem test_nhChild_errors :
    reply .nhChild (at' .failed 0 0 .hdIdle 0 (some 0)) = some 0x200000
    ∧ reply .nhChild (at' .squeeze 0 0 .hdIdle 31 none) = some 0x300000 := by decide +kernel
/-- R111, example; and the order of its two errors. -/
theorem test_nhRd : reply (.nhRd 31) { at' .idle 0 0 .hdIdle 32 none with node := kRoot } = some 0x010070 := by decide +kernel
theorem test_nhRd_errors :
    reply (.nhRd 32) (at' .idle 0 0 .hdIdle 32 none) = some 0x500000
    ∧ reply (.nhRd 32) (at' .idle 0 0 .hdIdle 31 none) = some 0x300000 := by decide +kernel

/-! ### Functions and tables -/

/-- R59, example: the padded empty message. -/
theorem test_theta :
    let a := padArray .zero 0
    [thetaC a 0, thetaC a 1, thetaC a 2, thetaC a 3, thetaC a 4] = [1, 0x8000000000000000, 0, 0, 0]
    ∧ [thetaD a 0, thetaD a 1, thetaD a 2, thetaD a 3, thetaD a 4] = [1, 1, 0x8000000000000000, 0, 2] := by decide +kernel
/-- 95_test_vectors.md section 2.2: two lanes after pi of round 0, and two after chi. -/
theorem test_round_zero :
    let p := pi (rho (theta (padArray .zero 0)))
    (p.lane 1 0, p.lane 4 4, (chi p).lane 3 3, (chi p).lane 0 4)
      = (0x0000100000000000, 0x0000000000000004, 0x0000000010004000, 0x2000010000000000) := by decide +kernel
/-- 95_test_vectors.md section 2.1: three lanes of the permuted zero state. -/
theorem test_keccakF_zero :
    let a := keccakF .zero
    (a.lane 0 0, a.lane 1 2, a.lane 4 4) = (0xf1258f7940e1dde7, 0xa9a6e6260d712103, 0xeaf1ff7b5ceca249) := by decide +kernel
/-- The tables are what the procedures of R60 and R64 regenerate. -/
theorem test_tables :
    ((List.finRange 24).all fun ir => rc ir == rcRegenerated ir) = true
    ∧ ((rotWalk 24 0 1 0).all fun e => rot e.1 e.2.1 == e.2.2) = true ∧ rotTable.foldl (· + ·) 0 = 680 := by decide +kernel
/-- W3J's fourth vector: "hello world". -/
theorem test_digest_hello_world :
    digest [0x68, 0x65, 0x6c, 0x6c, 0x6f, 0x20, 0x77, 0x6f, 0x72, 0x6c, 0x64] =
      #v[0x47, 0x17, 0x32, 0x85, 0xa8, 0xd7, 0x34, 0x1e, 0x5e, 0x97, 0x2f, 0xc6, 0x77, 0x28, 0x63, 0x84,
         0xf8, 0x02, 0xf8, 0xef, 0x42, 0xa5, 0xec, 0x5f, 0x03, 0xbb, 0xfa, 0x25, 0x4c, 0xb0, 0x1f, 0xad] := by decide +kernel
/-- R85: 22 of the 256 codes are digits, and `hexval(hexchar(v)) = v`. -/
theorem test_hexval :
    ((List.range 256).countP fun n => (hexval (BitVec.ofNat 8 n)).isSome) = 22
    ∧ ((List.range 16).all fun n => hexval (hexchar (BitVec.ofNat 4 n)) == some (BitVec.ofNat 4 n)) = true := by decide +kernel
/-- R87 and R88, their examples. -/
theorem test_hex_functions :
    toHex [0x68, 0x65] = [0x30, 0x78, 0x36, 0x38, 0x36, 0x35]
    ∧ (match fromHex [0x30, 0x78, 0x41, 0x62, 0x43, 0x64] with | .ok b => b | .error _ => []) = [0xab, 0xcd]
    ∧ [[0x30, 0x58, 0x31, 0x32], [0x36, 0x38, 0x67, 0x36], [0x30, 0x78, 0x31], [0x30], []].all
        (fun s => match fromHex s with | .ok _ => false | .error e => e == .formatError) = true := by decide +kernel
/-- 30_encoding.md section 8: TOHEX run by the host gives its four characters; an error discards the payloads. -/
theorem test_hostRun_tohex :
    (match hostRun (toHexSeq [0xC5]) (at' .idle 0 0 .hdIdle 0 none) with
      | .next (_, .ok cs) => cs == [0x30, 0x78, 0x63, 0x35]
      | _ => false) = true
    ∧ (match hostResult [0x010068, 0x200000] with | .ok _ => false | .error e => e == 2) = true := by decide +kernel
/-- R39: the three non-ASCII texts of 95_test_vectors.md section 3.1. -/
theorem test_utf8 :
    utf8 ['é'] = [0xc3, 0xa9] ∧ utf8 ['€'] = [0xe2, 0x82, 0xac] ∧ utf8 [Char.ofNat 0x1F600] = [0xf0, 0x9f, 0x98, 0x80] := by
  decide +kernel
/-- R103, R104: segments left to right, empty ones kept. -/
theorem test_labels :
    labels [] = [] ∧ labels ['a', '.', '.', 'b'] = [['a'], [], ['b']] ∧ labels ['.', 'a'] = [[], ['a']]
    ∧ labels ['a', '.'] = [['a'], []] := by decide +kernel

/-! ### Witnesses: for every obligation with hypotheses, values that meet them, one for each clause, at a boundary where there is one -/

/-- A state with one word presented. -/
def presented (cw : CommandWord) (s : State) : State := { s with cmdIn := [cw] }

/-- The command runs to a next state. -/
def runs (i : Instr) (s : State) : Bool := (after i s).isSome

theorem exec_of_runs (i : Instr) (s : State) : ∃ t, exec i s = .next t := by
  obtain ⟨t, _, ht, _⟩ := exec_answers i s
  exact ⟨t, ht⟩

/-- IllegalWordsAreAnsweredAndChangeNothing: the first and the last word, and the number of words. -/
theorem witness_illegal :
    (presented 0x0000 State.reset).cmdIn = [0x0000] ∧ decode 0x0000#16 = none ∧ decode 0xFFFF#16 = none ∧ 65536 = 2 ^ 16 := by
  decide +kernel
/-- StepRunsTheDecodedCommand: the last opcode with the last operand; and no word. -/
theorem witness_step :
    (presented 0x34FF State.reset).cmdIn = [0x34FF] ∧ decode 0x34FF#16 = some (.nhRd 0xFF) ∧ State.reset.cmdIn = [] :=
  ⟨rfl, by decide, rfl⟩
/-- EveryCommandWordGetsOneResponse: a word presented. -/
theorem witness_response : (presented 0xFFFF State.reset).cmdIn = 0xFFFF :: [] := rfl
/-- CommandsTouchOnlyTheirRegisters: NH_LDB at the last place, in states that agree on what it reads and differ in `NODE`. -/
theorem witness_registers :
    let s := at' .idle 0 0 .hdIdle 31 none
    let s' := { s with node := kRoot, ph := Phase.squeeze }
    (∃ t, exec (.nhLdb 1) s = .next t) ∧ (∃ t', exec (.nhLdb 1) s' = .next t') ∧ s.maxLen = s'.maxLen
      ∧ ∀ r : Register, readsRegister .NH_LDB r = true → r.same s s' := by
  refine ⟨exec_of_runs _ _, exec_of_runs _ _, rfl, ?_⟩
  intro r h
  cases r <;> first | rfl | cases h
/-- ReadsHaveNoSideEffects: a sequence of each of the five commands. -/
theorem witness_reads : ∀ i ∈ [Instr.sqz 32, .nhRd 31, .status, .hxePfx, .hxeByte 0],
    i.mnemonic ∈ [Mnemonic.SQZ, .NH_RD, .STATUS, .HXE_PFX, .HXE_BYTE] := by decide
/-- UnitsDoNotInterfere: a sequence of commands of all three units. -/
theorem witness_units : ∀ i ∈ [Instr.init, .hxdStart, .nhRoot, .absorb 0, .hxdChar 0x30, .final, .nhRd 0],
    i.mnemonic ∉ [Mnemonic.NH_CHILD, .SRST, .STATUS] := by decide
/-- ErrorsArePrecise: a word answered with an error, for each of its three clauses on a phase: the new `CapacityError`, the
new `FormatError`, and the verdict. -/
theorem witness_errors :
    ([ (0x11FF#16, at' .absorb 0 0 .hdIdle 0 (some 0)), (0x2967, at' .idle 0 0 .hdLo 0 none),
       (0x2A00, at' .idle 0 0 .hdLo 0 none), (0x1320, at' .squeeze 0 0 .hdIdle 0 none) ].all fun p =>
      match step (presented p.1 p.2) with
      | .next t => (t.respOut.map statusField).all (· ≠ 0) && t.respOut.length == 1
      | _ => false) = true := by decide +kernel
theorem witness_errors_capacity :
    let s := at' .absorb 0 0 .hdIdle 0 (some 0)
    (∃ b, decode 0x11FF#16 = some (.absorb b)) ∧ s.ph = .absorb ∧ s.maxLen = some s.cnt := ⟨⟨0xFF, by decide⟩, rfl, rfl⟩
theorem witness_errors_format :
    (∃ c, decode 0x2967#16 = some (.hxdChar c)) ∧ (at' .idle 0 0 .hdLo 0 none).hdPh ≠ .hdIdle
      ∧ decode 0x2A00#16 = some .hxdEnd := ⟨⟨0x67, by decide⟩, by decide, by decide⟩
/-- NoLimitNoCapacityError: a run of two steps without a limit. -/
theorem witness_noLimit :
    let s := { at' .absorb 135 271 .hdIdle 0 none with cmdIn := [0x1000, 0x1300] }
    (∃ t, Host.Core.run Sys2Proof.core 2 s = .next t) ∧ s.maxLen = none ∧ s.ph ≠ .failed := by
  refine ⟨⟨_, rfl⟩, rfl, by decide⟩
/-- AbsorbTakesOneByte: each clause; the last byte of a block and the one before it; the last byte below the limit and the first at it. -/
theorem witness_absorb :
    (at' .failed 0 0 .hdIdle 0 (some 0)).ph = .failed ∧ (at' .squeeze 0 0 .hdIdle 0 none).ph = .squeeze
    ∧ (let s := at' .absorb 0 136 .hdIdle 0 (some 136); s.ph = .absorb ∧ s.maxLen = some s.cnt)
    ∧ (let s := at' .absorb 135 135 .hdIdle 0 (some 136); s.ph = .absorb ∧ s.maxLen ≠ some s.cnt ∧ s.pos.val = 135)
    ∧ (let s := at' .absorb 134 134 .hdIdle 0 none
       s.ph = .absorb ∧ s.maxLen ≠ some s.cnt ∧ (135 : Fin 136).val = s.pos.val + 1) := by decide
/-- FinalPadsAndPermutes: each clause; a message that ends at 135 and one that ends at 0. -/
theorem witness_final :
    (at' .failed 0 0 .hdIdle 0 (some 0)).ph = .failed ∧ (at' .idle 0 0 .hdIdle 0 none).ph = .idle
    ∧ (at' .absorb 135 135 .hdIdle 0 none).ph = .absorb ∧ (at' .absorb 0 0 .hdIdle 0 none).ph = .absorb := by decide
/-- SqzReadsADigestByte: each clause; the last index and the first beyond it. -/
theorem witness_sqz :
    (at' .failed 0 0 .hdIdle 0 (some 0)).ph = .failed ∧ (at' .absorb 0 0 .hdIdle 0 none).ph = .absorb
    ∧ (at' .squeeze 0 0 .hdIdle 0 none).ph = .squeeze ∧ 32 ≤ (32#8).toNat ∧ (31#8).toNat < 32
    ∧ (31 : Fin 200).val = (31#8).toNat := by decide
/-- DigestEnginePhaseTable, HexDecoderPhaseTable, NodePointerTable: a command of each column runs, in each phase. -/
theorem witness_tables :
    ([Instr.init, .absorb 0, .final, .sqz 31, .sqz 32, .nhChild, .srst, .status, .hxdStart, .hxdChar 0x30, .hxdEnd,
      .nhRoot, .nhClr, .nhLdb 0, .nhRd 31, .nhRd 32].all fun i =>
      [at' .idle 0 0 .hdIdle 0 none, at' .failed 0 0 .hdP0 31 (some 0), at' .squeeze 0 0 .hdFailed 32 none].all fun s =>
        runs i s) = true := by decide +kernel
/-- HashSequenceComputesTheDigest, NodeSequencesComputeNodeHashes, PseudoCommandsComputeTheirFunctions, DigestHexWritesTheDigest: a message as long as
the limit, and one without a limit; and a state in which its digest is read. -/
theorem witness_fits :
    Fits (at' .failed 0 0 .hdIdle 0 (some 136)) 136 ∧ Fits (at' .idle 0 0 .hdIdle 0 none) 1000
    ∧ (at' .squeeze 0 0 .hdIdle 0 none).ph = .squeeze := by
  refine ⟨?_, ?_, rfl⟩
  · intro k hk
    cases hk
    exact Nat.le_refl _
  · intro k hk
    cases hk
theorem witness_fits_labels : ∀ l ∈ labels ['a', '.', 'é'], Fits (at' .idle 0 0 .hdIdle 0 (some 2)) (utf8 l).length := by
  intro l hl k hk
  cases hk
  revert l
  decide +kernel
/-- DigestResponsesIgnoreTheStartState: two states of one instance. -/
theorem witness_startState : (at' .failed 3 3 .hdLo 0 (some 3)).maxLen = (at' .idle 0 0 .hdIdle 32 (some 3)).maxLen := rfl
/-- MessagesOverTheLimitFail: one byte too many, at the least limit and at a block's length; and what may come later. -/
theorem witness_over :
    (at' .idle 0 0 .hdIdle 0 (some 0)).maxLen = some 0 ∧ 0 < [0x61#8].length
    ∧ (at' .idle 0 0 .hdIdle 0 (some 136)).maxLen = some 136 ∧ 136 < (List.replicate 137 0x61#8).length
    ∧ ∀ i ∈ [Instr.final, .sqz 0, .nhChild, .absorb 1, .status], i.mnemonic ≠ .INIT ∧ i.mnemonic ≠ .SRST := by
  refine ⟨rfl, by decide, rfl, by simp, by decide⟩
/-- DigestHexWritesTheDigest: a text whose bytes, not its characters, reach the limit, and one whose bytes exceed it. -/
theorem witness_digestText :
    Fits (at' .idle 0 0 .hdIdle 0 (some 2)) (utf8 ['é']).length
    ∧ (at' .idle 0 0 .hdIdle 0 (some 1)).maxLen = some 1 ∧ 1 < (utf8 ['é']).length := by
  refine ⟨?_, rfl, by decide +kernel⟩
  intro k hk
  cases hk
  decide +kernel
/-- PaddingFillsTheLastBlock: one padding byte, two, a whole block of them; and a longer whole number of blocks. -/
theorem witness_padding :
    136 - (List.replicate 135 0#8).length % 136 = 1 ∧ 2 ≤ 136 - (List.replicate 134 0#8).length % 136
    ∧ 2 ≤ 136 - (List.replicate 136 0#8).length % 136 ∧ 272 % 136 = 0 ∧ (List.replicate 136 0#8).length < 272 := by simp
/-- BytesAndLanesAreTheSameBits: the last lane with its bytes, and the last byte with its lane. -/
theorem witness_bytes :
    (∀ k : Fin 8, (byteIndex 4 4 k).val = 8 * ((4 : Fin 5).val + 5 * (4 : Fin 5).val) + k.val)
    ∧ (4 : Fin 5).val = (199 : Fin 200).val / 8 % 5 ∧ (4 : Fin 5).val = (199 : Fin 200).val / 8 / 5
    ∧ ∀ i : Fin 200, StateArray.zero.byte i = StateArray.zero.byte i := ⟨by decide, by decide, by decide, fun _ => rfl⟩
/-- RotationMovesEveryBit: the ends of the range. -/
theorem witness_rotation : 63 < 64 ∧ 0 < 63 ∧ 0 = 0 := by decide
/-- ThetaPiAndChiLaneByLane: the parities and the differences of the zero state; the last lane index. -/
theorem witness_theta :
    (∀ x, thetaC .zero x = StateArray.zero.lane x 0 ^^^ StateArray.zero.lane x 1 ^^^ StateArray.zero.lane x 2
        ^^^ StateArray.zero.lane x 3 ^^^ StateArray.zero.lane x 4)
    ∧ (∀ x, thetaD .zero x = thetaC .zero (x + 4) ^^^ rol64 (thetaC .zero (x + 1)) 1)
    ∧ [0, 10, 20, 5, 15, 16, 1, 11, 21, 6, 7, 17, 2, 12, 22, 23, 8, 18, 3, 13, 14, 24, 9, 19, 4][(24 : Fin 25).val]? = some 4
    ∧ [0, 6, 12, 18, 24, 3, 9, 10, 16, 22, 1, 7, 13, 19, 20, 4, 5, 11, 17, 23, 2, 8, 14, 15, 21][(24 : Fin 25).val]? = some 21 :=
  ⟨fun _ => rfl, fun _ => rfl, rfl, rfl⟩
/-- RhoAndIotaUseTheRegeneratedConstants: the last offset, both columns of the last row of constants, and a lane that iota leaves. -/
theorem witness_rho :
    [0, 1, 62, 28, 27, 36, 44, 6, 55, 20, 3, 10, 43, 25, 39, 41, 45, 15, 21, 8, 18, 2, 61, 56, 14][(4 : Fin 5).val + 5 * (4 : Fin 5).val]?
      = some 14
    ∧ rcRows[11]? = some (0x000000008000000A, 0x8000000080008008)
    ∧ (11 : Fin 24).val = 11 ∧ (23 : Fin 24).val = 11 + 12 ∧ ¬ ((0 : Fin 5) = 0 ∧ (1 : Fin 5) = 0) := by decide
/-- HxeByteReturnsTwoLowercaseDigits, ToHexWritesTwoDigitsPerByte: the byte `0x9A`, a digit on each side of the change. -/
theorem witness_hexDigits :
    0x39 = (if (0x9A#8).toNat / 16 < 10 then 0x30 + (0x9A#8).toNat / 16 else 0x61 + ((0x9A#8).toNat / 16 - 10))
    ∧ 0x61 = (if (0x9A#8).toNat % 16 < 10 then 0x30 + (0x9A#8).toNat % 16 else 0x61 + ((0x9A#8).toNat % 16 - 10))
    ∧ [0x9A#8][0]? = some 0x9A := by decide
/-- HxdCharTakesOneCharacter, FormatErrorCauses: each clause; a digit at each end of the three ranges, and a code just
outside each end. -/
theorem witness_hxdChar :
    (at' .idle 0 0 .hdIdle 0 none).hdPh = .hdIdle ∧ (at' .idle 0 0 .hdFailed 0 none).hdPh = .hdFailed
    ∧ ((at' .idle 0 0 .hdP0 0 none).hdPh = .hdP0 ∧ 0x31#8 ≠ 0x30) ∧ ((at' .idle 0 0 .hdP1 0 none).hdPh = .hdP1 ∧ 0x58#8 ≠ 0x78)
    ∧ (at' .idle 0 0 .hdHi 0 none).hdPh = .hdHi ∧ (at' .idle 0 0 .hdLo 0 none).hdPh = .hdLo := by decide
theorem witness_digits :
    IsHexDigit 0x30 0 ∧ IsHexDigit 0x39 9 ∧ IsHexDigit 0x61 10 ∧ IsHexDigit 0x66 15 ∧ IsHexDigit 0x41 10 ∧ IsHexDigit 0x46 15
    ∧ ∀ c ∈ [0x2F#8, 0x3A, 0x60, 0x67, 0x40, 0x47, 0x80, 0xFF], ∀ v, ¬ IsHexDigit c v := by
  simp only [← hexval_eq_some_iff]
  decide
/-- HxdEndGivesTheVerdict: each clause. -/
theorem witness_hxdEnd :
    (at' .idle 0 0 .hdIdle 0 none).hdPh = .hdIdle ∧ (at' .idle 0 0 .hdHi 0 none).hdPh = .hdHi
    ∧ (at' .idle 0 0 .hdLo 0 none).hdPh ≠ .hdIdle ∧ (at' .idle 0 0 .hdLo 0 none).hdPh ≠ .hdHi := by decide
/-- FromHexSequenceComputesFromHex, HexRoundTripLaw, FromHexAcceptsExactlyWellFormedStrings: a string that is accepted, the
shortest one too, and one that is not. -/
theorem witness_fromHex :
    fromHex [0x30, 0x78, 0x41, 0x62] = .ok [0xab] ∧ fromHex [0x30, 0x78] = .ok [] ∧ (∀ bs, fromHex [0x30, 0x58] ≠ .ok bs)
    ∧ [0xab#8][0]? = some 0xab := by
  refine ⟨rfl, rfl, ?_, rfl⟩
  intro bs h
  obtain ⟨_, _, h, _⟩ := (fromHex_eq_ok_iff _ _).mp h
  simp [charZero, charX] at h
/-- NhLdbLoadsOneByte, NhRdReadsANodeByte, NhChildReplacesTheNode: the pointer at both ends of its range, each clause. -/
theorem witness_node :
    (at' .squeeze 0 0 .hdIdle 32 none).np.val = 32 ∧ (at' .squeeze 0 0 .hdIdle 31 none).np.val < 32
    ∧ (at' .squeeze 0 0 .hdIdle 0 none).np.val < 32 ∧ (31 : Fin 32).val = (31#8).toNat ∧ 32 ≤ (32#8).toNat
    ∧ (at' .squeeze 0 0 .hdIdle 32 none).ph = .squeeze ∧ (at' .failed 0 0 .hdIdle 32 (some 0)).ph = .failed
    ∧ (at' .absorb 0 0 .hdIdle 32 none).ph = .absorb := by decide
/-- Utf8CarriesTheCodePoint: both ends of each range. -/
theorem witness_utf8 :
    (Char.ofNat 0x7F).toNat ≤ 0x7F ∧ 0x80 ≤ (Char.ofNat 0x80).toNat ∧ (Char.ofNat 0x7FF).toNat ≤ 0x7FF
    ∧ 0x800 ≤ (Char.ofNat 0x800).toNat ∧ (Char.ofNat 0xFFFF).toNat ≤ 0xFFFF ∧ 0x10000 ≤ (Char.ofNat 0x10000).toNat
    ∧ 0x10000 ≤ (Char.ofNat 0x10FFFF).toNat := by decide +kernel
/-- NameHashFoldsLabelsFromTheRight: a label without a `.`, and a name before which it stands. -/
theorem witness_names : ['a', '.', 'b'] ≠ [] ∧ '.' ∉ ['w', 'w', 'w'] ∧ ['w', 'w', 'w'] ≠ [] ∧ '.' ∉ ([] : List Char) := by decide
/-- EveryStepKeepsTheInvariant: reset with an INIT presented, which is taken. -/
theorem witness_invariant :
    Inv (presented 0x1000 State.reset) [] ∧ ∃ t, step (presented 0x1000 State.reset) = .next t :=
  ⟨⟨fun _ => ⟨rfl, rfl, rfl⟩, (nomatch ·), (nomatch ·), fun _ _ => Nat.zero_le _, (nomatch ·)⟩, exists_step _⟩
/-- ReachableStatesMeetTheInvariant: a run over a message that goes over its limit, and an illegal word. -/
theorem witness_reachable :
    ∃ t, Host.Core.run Sys2Proof.core 4 { State.resetWith (some 1) with cmdIn := [0x1000, 0x1161, 0x1162, 0xFFFF] } = .next t :=
  ⟨_, rfl⟩

end Sys2Proof.Tests
end

section
/-! Family 10_state: the register values of R25, for every parameter and for the instance of `State.reset`. -/

namespace Sys2Proof.Machine

@[simp] theorem resetWith_node_getElem (limit : Option Nat) (i : Fin 32) : (State.resetWith limit).node[i] = 0 := by
  rw [resetWith_node]
  exact Vector.getElem_replicate i.isLt

/-- Settles O20: each register's value at reset is the reset lemma of its field; `State.reset` is `State.resetWith` at the
opaque parameter, on which no register depends. -/
theorem resetValues : Obligations.ResetValues := by
  unfold Obligations.ResetValues State.reset
  exact ⟨lane_zero, byte_zero, resetWith_pos _, resetWith_cnt _, resetWith_ph _, resetWith_hdPh _, resetWith_hdHi _,
    resetWith_node_getElem _, resetWith_np _⟩

end Sys2Proof.Machine
end

section
/-! Family 20_memory: the byte view and the lane view of the state array (R28, R29). -/

namespace Sys2Proof.Machine

/-- The coordinates that R28 gives for byte `i` are those of the lane the model reads it from. -/
theorem eq_laneX_and_eq_laneY {i : Fin 200} {x y : Fin 5} (hx : x.val = i.val / 8 % 5) (hy : y.val = i.val / 8 / 5) :
    x = laneX i ∧ y = laneY i := ⟨Fin.ext hx, Fin.ext hy⟩

/-- The eight indices of R28 are those the model names. -/
theorem eq_byteIndex {x y : Fin 5} {b : Fin 8 → Fin 200} (hb : ∀ k, (b k).val = 8 * (x.val + 5 * y.val) + k.val) :
    b = byteIndex x y := funext fun k => Fin.ext (hb k)

/-- The mask `0xFF` keeps exactly the eight bits that the truncation to a byte keeps. -/
theorem setWidth_and_0xFF (v : Lane) : (v &&& 0xFF).setWidth 8 = v.setWidth 8 := by
  have hmask : (0xFF : Lane).setWidth 8 = BitVec.allOnes 8 := by decide
  rw [BitVec.setWidth_and, hmask, BitVec.and_allOnes]

/-- R28: a byte is its lane, shifted right and masked. -/
theorem byte_eq_lane_shift_mask (a : StateArray) (i : Fin 200) :
    a.byte i = (a.lane (laneX i) (laneY i) >>> (8 * (i.val % 8)) &&& 0xFF).setWidth 8 :=
  (setWidth_and_0xFF _).symm

/-- Settles O30: the lane formula is `lane_eq_laneOfBytes` at the indices of R28, the byte formula and its bits are those of
`byte_getLsbD` at the coordinates of R28, and the byte view is one-to-one (`StateArray.ext_byte`) and onto (`byte_ofBytes`). -/
theorem bytesAndLanesAreTheSameBits : Obligations.BytesAndLanesAreTheSameBits := by
  unfold Obligations.BytesAndLanesAreTheSameBits
  refine ⟨?lane, ?byte, fun _ _ => StateArray.ext_byte, fun f => ⟨.ofBytes f, byte_ofBytes f⟩⟩
  case lane =>
    intro a x y b hb
    rw [eq_byteIndex hb]
    exact lane_eq_laneOfBytes a x y
  case byte =>
    intro a i x y hx hy
    obtain ⟨rfl, rfl⟩ := eq_laneX_and_eq_laneY hx hy
    exact ⟨byte_eq_lane_shift_mask a i, fun j hj => byte_getLsbD a i j hj⟩

end Sys2Proof.Machine
end

section
/-! Family 30_encoding, the decoder: a word as its two fields, the words of the commands, and the masks of the opcode table
(R40, R41, R45, R49). -/

namespace Sys2Proof

/-- R40: a word is its opcode field followed by its operand field. -/
theorem opcodeField_append_operandField (cw : CommandWord) : opcodeField cw ++ operandField cw = cw := by
  unfold opcodeField operandField
  rw [BitVec.extractLsb'_append_extractLsb'_eq_extractLsb' (by decide)]
  exact BitVec.extractLsb'_eq_self

theorem opcodeField_append (op b : Byte) : opcodeField (op ++ b) = op := BitVec.extractLsb'_append_eq_left

theorem operandField_append (op b : Byte) : operandField (op ++ b) = b := BitVec.extractLsb'_append_eq_right

theorem eq_append_iff {cw : CommandWord} {op b : Byte} : cw = op ++ b ↔ opcodeField cw = op ∧ operandField cw = b := by
  constructor
  · rintro rfl
    exact ⟨opcodeField_append op b, operandField_append op b⟩
  · rintro ⟨rfl, rfl⟩
    exact (opcodeField_append_operandField cw).symm

theorem operandField_eq_setWidth (cw : CommandWord) : operandField cw = cw.setWidth 8 :=
  (BitVec.setWidth_eq_extractLsb' (by decide)).symm

theorem toNat_shiftRight_eight (cw : CommandWord) : (cw >>> 8).toNat = (opcodeField cw).toNat := by
  have h := cw.isLt
  simp only [opcodeField, BitVec.extractLsb'_toNat, BitVec.toNat_ushiftRight, Nat.shiftRight_eq_div_pow]
  omega

/-- The mask of format B keeps the opcode field (R41). -/
theorem and_0xFF00 (cw : CommandWord) : cw &&& 0xFF00 = opcodeField cw ++ 0x00#8 := by
  have hmask : (0xFF00 : CommandWord) = BitVec.allOnes 8 ++ 0x00#8 := by decide
  conv_lhs => rw [← opcodeField_append_operandField cw, hmask, BitVec.and_append, BitVec.and_allOnes, BitVec.and_zero]

theorem and_0x00FF_eq_zero_iff (cw : CommandWord) : cw &&& 0x00FF = 0 ↔ operandField cw = 0x00 := by
  have hmask : (0x00FF : CommandWord) = 0x00#8 ++ BitVec.allOnes 8 := by decide
  have hzero : (0 : CommandWord) = 0x00#8 ++ 0x00#8 := by decide
  conv_lhs =>
    rw [← opcodeField_append_operandField cw, hmask, BitVec.and_append, BitVec.and_allOnes, BitVec.and_zero, hzero,
      BitVec.append_right_inj]
  rfl

/-- The operands that a mnemonic's word may carry (R41): `0x00` for format Z, every byte for format B. -/
def Mnemonic.operands (m : Mnemonic) : Finset Byte :=
  match m.format with
  | .Z => {0x00}
  | .B => Finset.univ

theorem Mnemonic.mem_operands_iff {m : Mnemonic} {b : Byte} : b ∈ m.operands ↔ (m.format = .Z → b = 0x00) := by
  unfold Mnemonic.operands
  cases m.format <;> simp

theorem Mnemonic.mnemonic_instr (m : Mnemonic) (b : Byte) : (m.instr b).mnemonic = m := by
  cases m <;> rfl

theorem Mnemonic.operand_instr {m : Mnemonic} {b : Byte} (h : b ∈ m.operands) : (m.instr b).operand = b := by
  rw [Mnemonic.mem_operands_iff] at h
  cases m with
  | ABSORB | SQZ | HXE_BYTE | HXD_CHAR | NH_LDB | NH_RD => rfl
  | _ => exact (h rfl).symm

theorem Instr.operand_mem_operands (i : Instr) : i.operand ∈ i.mnemonic.operands := by
  rw [Mnemonic.mem_operands_iff]
  cases i with
  | absorb | sqz | hxeByte | hxdChar | nhLdb | nhRd => exact nofun
  | _ => exact fun _ => rfl

theorem encode_eq_append (i : Instr) : encode i = i.mnemonic.opcode ++ i.operand :=
  eq_append_iff.mpr ⟨opcodeField_encode i, operandField_encode i⟩

/-- A word decodes to a command exactly when its fields are the opcode and the operand of the command (R48, R49). -/
theorem decode_eq_some_iff (cw : CommandWord) (i : Instr) : decode cw = some i ↔ cw = i.mnemonic.opcode ++ i.operand := by
  constructor
  · exact fun h => eq_append_iff.mpr (decode_fields h)
  · rintro rfl
    rw [← encode_eq_append, decode_encode]

theorem decode_eq_some_instr_iff {m : Mnemonic} {b : Byte} (hb : b ∈ m.operands) (cw : CommandWord) :
    decode cw = some (m.instr b) ↔ cw = m.opcode ++ b := by
  rw [decode_eq_some_iff, Mnemonic.mnemonic_instr, Mnemonic.operand_instr hb]

/-- A row of format Z, whose mask keeps the whole word (R41). -/
theorem and_0xFFFF_eq_iff_decode (m : Mnemonic) {p : CommandWord} (hp : p = m.opcode ++ 0x00#8) (cw : CommandWord) :
    cw &&& 0xFFFF = p ↔ decode cw = some (m.instr 0x00) := by
  have hmask : (0xFFFF : CommandWord) = BitVec.allOnes 16 := by decide
  have hb : 0x00 ∈ m.operands := Mnemonic.mem_operands_iff.mpr fun _ => rfl
  rw [hmask, BitVec.and_allOnes, decode_eq_some_instr_iff hb, hp]
  rfl

/-- A row of format B, whose mask keeps the opcode: every operand decodes (R41, R42). -/
theorem and_0xFF00_eq_iff_decode (m : Mnemonic) (hm : m.format = .B) {p : CommandWord} (hp : p = m.opcode ++ 0x00#8)
    (cw : CommandWord) : cw &&& 0xFF00 = p ↔ decode cw = some (m.instr (cw.setWidth 8)) := by
  have hb : cw.setWidth 8 ∈ m.operands := Mnemonic.mem_operands_iff.mpr (by simp [hm])
  rw [decode_eq_some_instr_iff hb, and_0xFF00, hp, BitVec.append_left_inj, eq_append_iff, operandField_eq_setWidth,
    and_iff_left rfl]

/-- Settles O1: a row of format Z by `and_0xFFFF_eq_iff_decode`, a row of format B by `and_0xFF00_eq_iff_decode`. -/
theorem decodeSelectsTheMaskedRow : Obligations.DecodeSelectsTheMaskedRow := by
  unfold Obligations.DecodeSelectsTheMaskedRow
  intro cw
  exact ⟨and_0xFFFF_eq_iff_decode .STATUS (by decide) cw, and_0xFFFF_eq_iff_decode .SRST (by decide) cw,
    and_0xFFFF_eq_iff_decode .INIT (by decide) cw, and_0xFF00_eq_iff_decode .ABSORB rfl (by decide) cw,
    and_0xFFFF_eq_iff_decode .FINAL (by decide) cw, and_0xFF00_eq_iff_decode .SQZ rfl (by decide) cw,
    and_0xFFFF_eq_iff_decode .HXE_PFX (by decide) cw, and_0xFF00_eq_iff_decode .HXE_BYTE rfl (by decide) cw,
    and_0xFFFF_eq_iff_decode .HXD_START (by decide) cw, and_0xFF00_eq_iff_decode .HXD_CHAR rfl (by decide) cw,
    and_0xFFFF_eq_iff_decode .HXD_END (by decide) cw, and_0xFFFF_eq_iff_decode .NH_ROOT (by decide) cw,
    and_0xFFFF_eq_iff_decode .NH_CLR (by decide) cw, and_0xFF00_eq_iff_decode .NH_LDB rfl (by decide) cw,
    and_0xFFFF_eq_iff_decode .NH_CHILD (by decide) cw, and_0xFF00_eq_iff_decode .NH_RD rfl (by decide) cw⟩

/-- Settles O4: each word is the one the encoder gives the command, which `decode_encode` decodes. -/
theorem exampleWordsDecode : Obligations.ExampleWordsDecode := by
  unfold Obligations.ExampleWordsDecode
  exact ⟨decode_encode (.absorb 0x68), decode_encode (.sqz 31), decode_encode (.hxdChar 0x78), decode_encode .final,
    decode_encode .status, decode_encode (.hxeByte 0xC5), decode_encode (.nhRd 31), decode_encode .nhChild⟩

end Sys2Proof
end

section
/-! Family 30_encoding, the legal and the illegal words: which they are, how many, and the answer to an illegal one (R46). -/

namespace Sys2Proof

/-- R46: a word is legal exactly when its opcode is a mnemonic's and its operand is one this mnemonic may carry. -/
theorem decode_isSome_iff (cw : CommandWord) :
    (decode cw).isSome ↔ ∃ m : Mnemonic, m.opcode = opcodeField cw ∧ operandField cw ∈ m.operands := by
  simp only [Option.isSome_iff_exists, decode_eq_some_iff, eq_append_iff]
  constructor
  · rintro ⟨i, hop, hb⟩
    exact ⟨i.mnemonic, hop.symm, hb ▸ i.operand_mem_operands⟩
  · rintro ⟨m, hop, hb⟩
    refine ⟨m.instr (operandField cw), ?_, (Mnemonic.operand_instr hb).symm⟩
    rw [Mnemonic.mnemonic_instr, hop]

/-- R46: the two ways a word is illegal, (a) an undefined opcode and (b) an operand with a mnemonic of format Z. -/
theorem decode_eq_none_iff (cw : CommandWord) :
    decode cw = none ↔ (¬ ∃ m : Mnemonic, m.opcode = opcodeField cw)
      ∨ ((∃ m : Mnemonic, m.format = .Z ∧ m.opcode = opcodeField cw) ∧ operandField cw ≠ 0x00) := by
  rw [← Option.not_isSome_iff_eq_none, decode_isSome_iff]
  by_cases hop : ∃ m : Mnemonic, m.opcode = opcodeField cw
  · obtain ⟨m, hm⟩ := hop
    have huniq : ∀ m' : Mnemonic, m'.opcode = opcodeField cw ↔ m' = m := fun m' =>
      ⟨fun h => Mnemonic.opcode_inj (h.trans hm.symm), fun h => h ▸ hm⟩
    simp [huniq, Mnemonic.mem_operands_iff]
  · have hundefined : ¬ ∃ m : Mnemonic, m.opcode = opcodeField cw ∧ operandField cw ∈ m.operands :=
      fun ⟨m, hm, _⟩ => hop ⟨m, hm⟩
    exact iff_of_true hundefined (.inl hop)

/-- The mnemonics, in the order of the opcode table (R45). -/
def mnemonics : List Mnemonic := opcodeTable.map OpcodeRow.mnemonic

theorem nodup_mnemonics : mnemonics.Nodup := opcodeTable_mnemonics_nodup.1

theorem mem_mnemonics (m : Mnemonic) : m ∈ mnemonics := by
  cases m <;> decide

/-- The column "opcode" of the table (R45). -/
theorem mem_opcodes_iff (op : Byte) :
    op.toNat ∈ [0x01, 0x02, 0x10, 0x11, 0x12, 0x13, 0x20, 0x21, 0x28, 0x29, 0x2A, 0x30, 0x31, 0x32, 0x33, 0x34]
      ↔ ∃ m : Mnemonic, m.opcode = op := by
  have htable : [0x01, 0x02, 0x10, 0x11, 0x12, 0x13, 0x20, 0x21, 0x28, 0x29, 0x2A, 0x30, 0x31, 0x32, 0x33, 0x34]
      = mnemonics.map fun m => m.opcode.toNat := by decide
  simp only [htable, List.mem_map, mem_mnemonics, true_and, BitVec.toNat_inj]

/-- The opcodes of the rows of format Z (R45). -/
theorem mem_opcodes_formatZ_iff (op : Byte) :
    op.toNat ∈ [0x01, 0x02, 0x10, 0x12, 0x20, 0x28, 0x2A, 0x30, 0x31, 0x33]
      ↔ ∃ m : Mnemonic, m.format = .Z ∧ m.opcode = op := by
  have htable : [0x01, 0x02, 0x10, 0x12, 0x20, 0x28, 0x2A, 0x30, 0x31, 0x33]
      = (mnemonics.filter fun m => m.format = .Z).map fun m => m.opcode.toNat := by decide
  simp only [htable, List.mem_map, List.mem_filter, mem_mnemonics, true_and, decide_eq_true_eq, BitVec.toNat_inj]

/-- The legal words as pairs of a mnemonic and one of its operands (R46). -/
def legalPairs : Finset (Σ _ : Mnemonic, Byte) := mnemonics.toFinset.sigma Mnemonic.operands

theorem mem_legalPairs {p : Σ _ : Mnemonic, Byte} : p ∈ legalPairs ↔ p.2 ∈ p.1.operands := by
  simp [legalPairs, mem_mnemonics]

theorem Mnemonic.card_operands (m : Mnemonic) : m.operands.card = if m.format = .Z then 1 else 256 := by
  unfold Mnemonic.operands
  cases m.format <;> simp [← FinEnum.card_eq_fintypeCard]

/-- 10 mnemonics of format Z with one word each, 6 of format B with 256 (R46). -/
theorem card_legalPairs : legalPairs.card = 1546 := by
  rw [legalPairs, Finset.card_sigma, List.sum_toFinset _ nodup_mnemonics]
  simp only [Mnemonic.card_operands]
  decide

/-- The word of a mnemonic and an operand (R40, R45). -/
def wordOfPair (p : Σ _ : Mnemonic, Byte) : CommandWord := p.1.opcode ++ p.2

theorem wordOfPair_injective : Function.Injective wordOfPair := by
  rintro ⟨m, b⟩ ⟨m', b'⟩ h
  have hop : m.opcode = m'.opcode := by
    rw [← opcodeField_append m.opcode b, ← opcodeField_append m'.opcode b']
    exact congrArg opcodeField h
  have hb : b = b' := by
    rw [← operandField_append m.opcode b, ← operandField_append m'.opcode b']
    exact congrArg operandField h
  rw [Mnemonic.opcode_inj hop, hb]

theorem decode_isSome_iff_mem_image (cw : CommandWord) : (decode cw).isSome ↔ cw ∈ legalPairs.image wordOfPair := by
  simp only [decode_isSome_iff, Finset.mem_image, mem_legalPairs, Sigma.exists, wordOfPair, eq_comm (b := cw),
    eq_append_iff]
  constructor
  · rintro ⟨m, hop, hb⟩
    exact ⟨m, _, hb, hop.symm, rfl⟩
  · rintro ⟨m, b, hb, hop, rfl⟩
    exact ⟨m, hop.symm, hb⟩

/-- Counting the numbers below `2^w` whose word has a property is counting the words that have it. -/
theorem countP_range_ofNat {w N : Nat} (hN : N = 2 ^ w) {p : BitVec w → Bool} {S : Finset (BitVec w)}
    (hS : ∀ x, p x = true ↔ x ∈ S) : (List.range N).countP (fun n => p (BitVec.ofNat w n)) = S.card := by
  rw [List.countP_eq_length_filter, ← List.toFinset_card_of_nodup (List.nodup_range.filter _)]
  refine Finset.card_nbij' (BitVec.ofNat w) BitVec.toNat ?_ ?_ ?_ ?_
  · intro n hn
    exact (hS _).mp (List.mem_filter.mp (List.mem_toFinset.mp hn)).2
  · intro x hx
    simpa [hN, x.isLt, hS] using hx
  · intro n hn
    have hlt : n < 2 ^ w := hN ▸ List.mem_range.mp (List.mem_filter.mp (List.mem_toFinset.mp hn)).1
    exact BitVec.toNat_ofNat n w ▸ Nat.mod_eq_of_lt hlt
  · intro x _
    exact (BitVec.ofNat_toNat w x).trans (BitVec.setWidth_eq x)

theorem countP_decode_isSome {N : Nat} (hN : N = 2 ^ 16) :
    (List.range N).countP (fun n => (decode (BitVec.ofNat 16 n)).isSome) = 1546 := by
  rw [countP_range_ofNat hN (p := fun cw => (decode cw).isSome) decode_isSome_iff_mem_image,
    Finset.card_image_of_injective _ wordOfPair_injective, card_legalPairs]

theorem countP_decode_isNone {N : Nat} (hN : N = 2 ^ 16) :
    (List.range N).countP (fun n => (decode (BitVec.ofNat 16 n)).isNone) = 63990 := by
  have hsplit := List.length_eq_countP_add_countP (fun n => (decode (BitVec.ofNat 16 n)).isSome) (l := List.range N)
  have hnone : (fun n => decide ¬(decode (BitVec.ofNat 16 n)).isSome = true)
      = fun n => (decode (BitVec.ofNat 16 n)).isNone := by
    funext n
    cases decode (BitVec.ofNat 16 n) <;> rfl
  rw [List.length_range, countP_decode_isSome hN, hnone] at hsplit
  omega

end Sys2Proof

namespace Sys2Proof.Machine

/-- Settles O3: which words are illegal is `decode_eq_none_iff`, its two ways read off the opcode table; the legal words are
counted as pairs of a mnemonic and an operand (`card_legalPairs`); the answer is that of `step_illegal`. -/
theorem illegalWordsAreAnsweredAndChangeNothing : Obligations.IllegalWordsAreAnsweredAndChangeNothing := by
  unfold Obligations.IllegalWordsAreAnsweredAndChangeNothing
  refine ⟨?illegal, ?count, fun s cw rest h hd => step_illegal h hd⟩
  case illegal =>
    intro cw
    simp only [decode_eq_none_iff, toNat_shiftRight_eight, mem_opcodes_iff, mem_opcodes_formatZ_iff, ne_eq,
      and_0x00FF_eq_zero_iff]
  case count =>
    exact fun N hN => ⟨countP_decode_isSome hN, countP_decode_isNone hN⟩

end Sys2Proof.Machine
end

section
/-! Family 30_encoding, the response word: how it is built, and what its data holds for each number of payload items (R43). -/

namespace Sys2Proof.Machine

theorem toNat_responseWord (st : Status) (n : BitVec 4) (d : BitVec 16) :
    (responseWord st n d).toNat = st.code.toNat * 2 ^ 20 + n.toNat * 2 ^ 16 + d.toNat := by
  have hst := st.code.isLt
  have hn := n.isLt
  have hd := d.isLt
  simp only [responseWord, BitVec.toNat_add, BitVec.toNat_shiftLeft, BitVec.toNat_setWidth, Nat.shiftLeft_eq]
  omega

theorem Status.code_le_five (st : Status) : st.code ≤ 5 := by
  cases st <;> decide

/-- Two characters as payload are the first one's byte followed by the second one's. -/
theorem twoChars_eq_append (c d : Byte) : twoChars c d = c ++ d := by
  rw [twoChars, BitVec.append_def, BitVec.shiftLeftZeroExtend_eq]
  rfl

/-- The two characters of HXE_PFX, `0` and `x` (42_hex_codec.md R91). -/
theorem twoChars_zero_x : twoChars charZero charX = 0x3078 := by decide

/-- A byte as payload leaves `data[15:8]` zero (R43). -/
theorem setWidth_shiftRight_eight (b : Byte) : b.setWidth 16 >>> 8 = 0#16 := by
  rw [← BitVec.setWidth_ushiftRight (by decide), BitVec.ushiftRight_eq_zero (by decide), BitVec.setWidth_zero]

/-- The responses that R43 allows to a word: no payload, one byte, or two items, which only the status word and the characters of
HXE_PFX and HXE_BYTE are; an error has no payload. The word is given as what it decodes to. -/
inductive Payload (s : State) : Option Instr → Status → BitVec 4 → BitVec 16 → Prop where
  | none (i st) : Payload s i st 0 0
  | byte (i) (b : Byte) : Payload s i .ok 1 (b.setWidth 16)
  | statusWord : Payload s (some .status) .ok 2 (statusWord s)
  | zeroX : Payload s (some .hxePfx) .ok 2 (twoChars charZero charX)
  | digits (b : Byte) : Payload s (some (.hxeByte b)) .ok 2 (twoChars (hexchar (hiNibble b)) (hexchar (loNibble b)))

theorem Effect.payload {i s u st n d} (h : Effect i s u st n d) : Payload s (some i) st n d := by
  cases h with
  | status => exact .statusWord
  | hxePfx => exact .zeroX
  | hxeByte _ b => exact .digits b
  | sqz | charLow | rd => exact .byte _ _
  | _ => exact .none _ _

/-- A step on a word, legal or not, answers one response word with a payload that R43 allows. -/
theorem step_payload {s : State} {cw : CommandWord} {rest : List CommandWord} (h : s.cmdIn = cw :: rest) :
    ∃ t st n d, step s = .next t ∧ t.cmdIn = rest ∧ t.respOut = s.respOut ++ [responseWord st n d]
      ∧ Payload s (decode cw) st n d := by
  cases hd : decode cw with
  | none => exact ⟨_, _, _, _, step_illegal h hd, rfl, rfl, .none _ _⟩
  | some i =>
    obtain ⟨u, st, n, d, he⟩ := exists_effect i { s with cmdIn := rest }
    obtain ⟨hc, ho, -⟩ := he.streams
    have hp : Payload s (some i) st n d := (he.withStreams s.cmdIn s.respOut).payload
    exact ⟨_, st, n, d, (step_cons h hd).trans (exec_of_effect he), hc, congrArg (· ++ [responseWord st n d]) ho, hp⟩

/-- Settles O7: the word and its fields are `toNat_responseWord` and the field lemmas; a step answers one word by
`step_payload`, and each of R43's limits is read off the five payloads. -/
theorem everyCommandWordGetsOneResponse : Obligations.EveryCommandWordGetsOneResponse := by
  unfold Obligations.EveryCommandWordGetsOneResponse
  refine ⟨?word, ?answer⟩
  case word =>
    intro st n d
    exact ⟨toNat_responseWord st n d, statusField_responseWord st n d, countField_responseWord st n d,
      dataField_responseWord st n d⟩
  case answer =>
    intro s cw rest h
    obtain ⟨t, st, n, d, hstep, hin, hout, hp⟩ := step_payload h
    refine ⟨t, responseWord st n d, hstep, hin, hout, ?_⟩
    rw [countField_responseWord, dataField_responseWord, statusField_responseWord]
    generalize decode cw = i at hp
    cases hp with
    | none => simpa using st.code_le_five
    | byte i b => simp [Status.code, setWidth_shiftRight_eight]
    | statusWord => simp [Status.code]
    | zeroX => simp [Status.code, twoChars_zero_x]
    | digits b => simp [Status.code, twoChars_eq_append]

end Sys2Proof.Machine
end

section
/-! Family 40_permutation, the rotation of a lane (R58). -/

namespace Sys2Proof.Machine

theorem rol64_eq_rotateLeft {n : Nat} (hn : n < 64) (v : Lane) : rol64 v n = v.rotateLeft n := by
  rw [BitVec.rotateLeft_def, Nat.mod_eq_of_lt hn, rol64]
  split
  · next h0 =>
    rw [h0, BitVec.shiftLeft_zero, BitVec.ushiftRight_eq_zero (by decide), BitVec.or_zero]
  · rfl

theorem getLsbD_rol64 {n z : Nat} (hn : n < 64) (hz : z < 64) (v : Lane) :
    (rol64 v n).getLsbD ((z + n) % 64) = v.getLsbD z := by
  rw [rol64_eq_rotateLeft hn, BitVec.getLsbD_rotateLeft_of_le hn]
  by_cases hwrap : z + n < 64
  · have hmod : (z + n) % 64 = z + n := Nat.mod_eq_of_lt hwrap
    have hge : ¬ z + n < n := by omega
    simp [hmod, hge, hwrap]
  · have hmod : (z + n) % 64 = z + n - 64 := by omega
    have hlt : z + n - 64 < n := by omega
    have hsrc : 64 - n + (z + n - 64) = z := by omega
    simp [hmod, hlt, hsrc]

/-- A lane is the rotated one as soon as every bit of the original is found at its new place. -/
theorem eq_rol64_of_getLsbD {n : Nat} (hn : n < 64) {v w : Lane}
    (h : ∀ z < 64, w.getLsbD ((z + n) % 64) = v.getLsbD z) : w = rol64 v n := by
  apply BitVec.eq_of_getLsbD_eq
  intro j hj
  have hz : (j + (64 - n)) % 64 < 64 := Nat.mod_lt _ (by decide)
  have hplace : ((j + (64 - n)) % 64 + n) % 64 = j := by omega
  have hw := (h _ hz).trans (getLsbD_rol64 hn hz v).symm
  rwa [hplace] at hw

@[simp] theorem rol64_zero (v : Lane) : rol64 v 0 = v := rfl

theorem rol64_of_pos {n : Nat} (hn : 0 < n) (v : Lane) : rol64 v n = (v <<< n) ||| (v >>> (64 - n)) :=
  if_neg hn.ne'

theorem rol64_injective {n : Nat} (hn : n < 64) : Function.Injective (rol64 · n) := by
  intro v w h
  apply BitVec.eq_of_getLsbD_eq
  intro z hz
  rw [← getLsbD_rol64 hn hz v, ← getLsbD_rol64 hn hz w]
  exact congrArg (BitVec.getLsbD · ((z + n) % 64)) h

theorem rol64_xor {n : Nat} (hn : n < 64) (v w : Lane) : rol64 (v ^^^ w) n = rol64 v n ^^^ rol64 w n := by
  symm
  apply eq_rol64_of_getLsbD hn
  intro z hz
  rw [BitVec.getLsbD_xor, BitVec.getLsbD_xor, getLsbD_rol64 hn hz, getLsbD_rol64 hn hz]

theorem rol64_rol64 {m n : Nat} (hm : m < 64) (hn : n < 64) (v : Lane) :
    rol64 (rol64 v m) n = rol64 v ((m + n) % 64) := by
  apply eq_rol64_of_getLsbD (Nat.mod_lt _ (by decide))
  intro z hz
  have hplace : (z + (m + n) % 64) % 64 = ((z + m) % 64 + n) % 64 := by omega
  rw [hplace, getLsbD_rol64 hn (Nat.mod_lt _ (by decide)), getLsbD_rol64 hm hz]

/-- Settles O31: the two forms are the branches of the definition; the movement of the bits is `getLsbD_rol64`. -/
theorem rotationMovesEveryBit : Obligations.RotationMovesEveryBit := by
  unfold Obligations.RotationMovesEveryBit
  refine ⟨by decide, fun v n hn => ⟨?_, fun hpos => rol64_of_pos hpos v, fun z hz => getLsbD_rol64 hn hz v⟩⟩
  rintro rfl
  exact rol64_zero v

end Sys2Proof.Machine
end

section
/-! Family 40_permutation, the five step mappings lane by lane (R59 to R63). -/

namespace Sys2Proof.Machine

@[simp] theorem lane_theta (a : StateArray) (x y : Fin 5) : (theta a).lane x y = a.lane x y ^^^ thetaD a x :=
  lane_build _ x y

@[simp] theorem lane_rho (a : StateArray) (x y : Fin 5) : (rho a).lane x y = rol64 (a.lane x y) (rot x y) :=
  lane_build _ x y

@[simp] theorem lane_pi (a : StateArray) (x y : Fin 5) : (pi a).lane x y = a.lane (x + 3 * y) x :=
  lane_build _ x y

@[simp] theorem lane_chi (a : StateArray) (x y : Fin 5) :
    (chi a).lane x y = a.lane x y ^^^ (~~~(a.lane (x + 1) y) &&& a.lane (x + 2) y) :=
  lane_build _ x y

@[simp] theorem lane_iota (ir : Fin 24) (a : StateArray) (x y : Fin 5) :
    (iota ir a).lane x y = if x = 0 ∧ y = 0 then a.lane 0 0 ^^^ rc ir else a.lane x y :=
  lane_setLane a 0 0 x y _

/-- Pi moves lane `(x, y)` to `(y, 2*x + 3*y)` (R61). -/
theorem lane_pi_dest (a : StateArray) (x y : Fin 5) : (pi a).lane y (2 * x + 3 * y) = a.lane x y := by
  have hsrc : ∀ x y : Fin 5, y + 3 * (2 * x + 3 * y) = x := by decide
  rw [lane_pi, hsrc]

/-- PI_DEST holds the index of `(y, 2*x + 3*y)` at `x + 5*y` (R61). -/
theorem piDest_coordinates : ∀ l : Fin 25,
    ∀ dest ∈ [0, 10, 20, 5, 15, 16, 1, 11, 21, 6, 7, 17, 2, 12, 22, 23, 8, 18, 3, 13, 14, 24, 9, 19, 4][l.val]?,
      Fin.ofNat 5 dest = Fin.ofNat 5 (l.val / 5)
      ∧ Fin.ofNat 5 (dest / 5) = 2 * Fin.ofNat 5 l.val + 3 * Fin.ofNat 5 (l.val / 5) := by decide

/-- PI_SRC holds the index of `(x + 3*y, x)` at `x + 5*y` (R61). -/
theorem piSrc_coordinates : ∀ l : Fin 25,
    ∀ src ∈ [0, 6, 12, 18, 24, 3, 9, 10, 16, 22, 1, 7, 13, 19, 20, 4, 5, 11, 17, 23, 2, 8, 14, 15, 21][l.val]?,
      Fin.ofNat 5 src = Fin.ofNat 5 l.val + 3 * Fin.ofNat 5 (l.val / 5)
      ∧ Fin.ofNat 5 (src / 5) = Fin.ofNat 5 l.val := by decide

/-- Settles O32: each mapping's lane lemma; the index lists of pi are its two formulas at the lists' coordinates. -/
theorem thetaPiAndChiLaneByLane : Obligations.ThetaPiAndChiLaneByLane := by
  unfold Obligations.ThetaPiAndChiLaneByLane
  refine ⟨?theta, fun a x y => ⟨lane_pi_dest a x y, lane_pi a x y⟩, ?lists, lane_chi⟩
  case theta =>
    intro a C D hC hD x y
    obtain rfl : C = thetaC a := funext hC
    obtain rfl : D = thetaD a := funext hD
    exact lane_theta a x y
  case lists =>
    intro a l dest src hdest hsrc
    obtain ⟨hdx, hdy⟩ := piDest_coordinates l dest hdest
    obtain ⟨hsx, hsy⟩ := piSrc_coordinates l src hsrc
    rw [hdx, hdy, hsx, hsy]
    exact ⟨lane_pi_dest a _ _, lane_pi a _ _⟩

end Sys2Proof.Machine
end

section
/-! Family 40_permutation, the tables of rho and iota and the procedures that regenerate them (R60, R63, R64). -/

namespace Sys2Proof.Machine

theorem rot_eq_of_getElem? {x y : Fin 5} {n : Nat} (h : rotTable[x.val + 5 * y.val]? = some n) : rot x y = n := by
  rw [rot, List.getD_eq_getElem?_getD, h, Option.getD_some]

theorem rot_eq_of_mem_rotWalk : ∀ e ∈ rotWalk 24 0 1 0, rot e.1 e.2.1 = e.2.2 := by decide

theorem rotWalk_visits : ∀ x y : Fin 5, (x = 0 ∧ y = 0) ∨ ∃ e ∈ rotWalk 24 0 1 0, e.1 = x ∧ e.2.1 = y := by decide

/-- Row `k` of R63's table holds the constants of `k` and `k + 12`. -/
theorem rc_eq_of_getElem? {k : Nat} {left right : Lane} (h : rcRows[k]? = some (left, right)) {ir : Fin 24} {c : Lane}
    (hc : (ir.val = k ∧ c = left) ∨ (ir.val = k + 12 ∧ c = right)) : rc ir = c := by
  obtain ⟨hk : k < 12, -⟩ := List.getElem?_eq_some_iff.mp h
  have hmod : ir.val % 12 = k := by omega
  rw [rc, hmod, List.getD_eq_getElem?_getD, h, Option.getD_some]
  obtain ⟨hir, rfl⟩ | ⟨hir, rfl⟩ := hc
  · exact if_pos (by omega)
  · exact if_neg (by omega)

theorem rc_eq_rcRegenerated : ∀ ir : Fin 24, rc ir = rcRegenerated ir := by decide +kernel

/-- Settles O33: the tables written out are `rotTable` and `rcRows`, read by `rot_eq_of_getElem?` and `rc_eq_of_getElem?`; the
walk of R60 and the register of R64 are compared with them entry by entry. -/
theorem rhoAndIotaUseTheRegeneratedConstants : Obligations.RhoAndIotaUseTheRegeneratedConstants := by
  unfold Obligations.RhoAndIotaUseTheRegeneratedConstants
  refine ⟨?offsets, fun a => ⟨lane_rho a 0 0, ?walk⟩, rotWalk_visits, ?constants⟩
  case offsets =>
    intro a x y n hn
    rw [lane_rho, rot_eq_of_getElem? hn]
  case walk =>
    intro e he
    rw [lane_rho, rot_eq_of_mem_rotWalk e he]
  case constants =>
    intro a k left right hrow ir c hc
    obtain rfl := rc_eq_of_getElem? hrow hc
    exact ⟨rc_eq_rcRegenerated ir, lane_iota ir a 0 0, fun x y hxy => (lane_iota ir a x y).trans (if_neg hxy)⟩

end Sys2Proof.Machine
end

section
/-! Family 40_permutation: each of the five step mappings is injective, and so `KeccakF`, a chain of them on the finitely many
state arrays, is a bijection (R65, R66). -/

namespace Sys2Proof.Machine

theorem rho_injective : Function.Injective rho := by
  have hrot : ∀ x y, rot x y < 64 := by decide
  intro a b h
  apply StateArray.ext_lane
  intro x y
  have hlane : (rho a).lane x y = (rho b).lane x y := by rw [h]
  rw [lane_rho, lane_rho] at hlane
  exact rol64_injective (hrot x y) hlane

theorem pi_injective : Function.Injective pi := by
  intro a b h
  apply StateArray.ext_lane
  intro x y
  rw [← lane_pi_dest a, h, lane_pi_dest]

/-- The inverse of chi on one plane: a lane is recovered from the five lanes of its plane after chi. -/
theorem lane_eq_of_chi (a : StateArray) (x y : Fin 5) :
    a.lane x y = (chi a).lane x y ^^^ (~~~(chi a).lane (x + 1) y
      &&& ((chi a).lane (x + 2) y ^^^ (~~~(chi a).lane (x + 3) y &&& (chi a).lane (x + 4) y))) := by
  have hbit : ∀ b₀ b₁ b₂ b₃ b₄ : Bool,
      b₀ = ((b₀ ^^ (!b₁ && b₂)) ^^ (!(b₁ ^^ (!b₂ && b₃))
        && ((b₂ ^^ (!b₃ && b₄)) ^^ (!(b₃ ^^ (!b₄ && b₀)) && (b₄ ^^ (!b₀ && b₁)))))) := by decide
  apply BitVec.eq_of_getLsbD_eq
  intro z hz
  simp only [lane_chi, add_assoc, Fin.reduceAdd, Fin.isValue, add_zero, BitVec.getLsbD_xor, BitVec.getLsbD_and,
    BitVec.getLsbD_not, hz, decide_true, Bool.true_and]
  exact hbit _ _ _ _ _

theorem chi_injective : Function.Injective chi := by
  intro a b h
  apply StateArray.ext_lane
  intro x y
  rw [lane_eq_of_chi a, h, ← lane_eq_of_chi b]

theorem iota_involutive (ir : Fin 24) : Function.Involutive (iota ir) := by
  intro a
  apply StateArray.ext_lane
  intro x y
  by_cases h : x = 0 ∧ y = 0
  · obtain ⟨rfl, rfl⟩ := h
    simp
  · simp [h]

theorem xor_xor_cancel (v w : Lane) : v ^^^ w ^^^ v = w := by
  rw [BitVec.xor_comm, ← BitVec.xor_assoc, BitVec.xor_self, BitVec.zero_xor]

theorem xor_eq_xor_swap {s t u v : Lane} (h : s ^^^ u = t ^^^ v) : s ^^^ t = u ^^^ v := by
  have hmid : s ^^^ t ^^^ (u ^^^ v) = s ^^^ u ^^^ (t ^^^ v) := by ac_rfl
  rw [← BitVec.xor_eq_zero_iff, hmid, h, BitVec.xor_self]

/-- Where the rotation of each `d x` by `m` is the sum of the `d` at distances `p` and `2*p`, its rotation by `2*m` is the sum at
twice these distances: the two middle terms of the four cancel. -/
theorem rol64_double {d : Fin 5 → Lane} {m : Nat} {p : Fin 5} (hm : m < 64)
    (h : ∀ x, rol64 (d x) m = d (x + p) ^^^ d (x + (p + p))) (x : Fin 5) :
    rol64 (d x) ((m + m) % 64) = d (x + (p + p)) ^^^ d (x + (p + p + (p + p))) := by
  calc rol64 (d x) ((m + m) % 64)
      = rol64 (d (x + p)) m ^^^ rol64 (d (x + (p + p))) m := by rw [← rol64_rol64 hm hm, h, rol64_xor hm]
    _ = d (x + (p + p)) ^^^ d (x + (p + (p + p))) ^^^ (d (x + (p + (p + p))) ^^^ d (x + (p + p + (p + p)))) := by
        simp only [h, add_assoc]
    _ = d (x + (p + p)) ^^^ d (x + (p + p + (p + p))) := by
        rw [BitVec.xor_assoc, ← BitVec.xor_assoc (d (x + (p + (p + p)))), BitVec.xor_self, BitVec.zero_xor]

/-- Theta hides no column differences `d`. Doubling the rotation by 1 six times gives the rotation by 64, which is none, so that
`d x = d (x + 1) ^^^ d (x + 2)`; then `d` repeats after 3 lanes, and as it does after 5 it is constant. -/
theorem eq_zero_of_eq_xor_rol64 {d : Fin 5 → Lane} (h : ∀ x, d x = d (x + 4) ^^^ rol64 (d (x + 1)) 1) (x : Fin 5) :
    d x = 0 := by
  have hrot1 : ∀ x, rol64 (d x) 1 = d (x + 4) ^^^ d (x + (4 + 4)) := by
    intro x
    have hx := h (x + 4)
    simp only [add_assoc, Fin.reduceAdd, Fin.isValue, add_zero] at hx ⊢
    rw [hx, xor_xor_cancel]
  have hrot64 : ∀ x, d x = d (x + 1) ^^^ d (x + 2) :=
    have hrot4 := rol64_double (by decide) (rol64_double (by decide) hrot1)
    have hrot16 := rol64_double (by decide) (rol64_double (by decide) hrot4)
    rol64_double (by decide) (rol64_double (by decide) hrot16)
  have hthree : ∀ x, d (x + 3) = d x := by
    intro x
    rw [hrot64 x, hrot64 (x + 1), add_assoc, add_assoc]
    exact (xor_xor_cancel _ _).symm
  have hone : ∀ x, d (x + 1) = d x := by
    intro x
    rw [← hthree x, ← hthree (x + 3), add_assoc]
    rfl
  have htwo : d (x + 2) = d (x + 1) := by
    rw [← hone (x + 1), add_assoc]
    rfl
  rw [hrot64, htwo]
  exact BitVec.xor_self

theorem thetaC_xor_thetaC (a b : StateArray) (x : Fin 5) :
    thetaC a x ^^^ thetaC b x = (a.lane x 0 ^^^ b.lane x 0) ^^^ (a.lane x 1 ^^^ b.lane x 1) ^^^ (a.lane x 2 ^^^ b.lane x 2)
      ^^^ (a.lane x 3 ^^^ b.lane x 3) ^^^ (a.lane x 4 ^^^ b.lane x 4) := by
  unfold thetaC
  ac_rfl

theorem thetaD_xor_thetaD (a b : StateArray) (x : Fin 5) :
    thetaD a x ^^^ thetaD b x
      = (thetaC a (x + 4) ^^^ thetaC b (x + 4)) ^^^ rol64 (thetaC a (x + 1) ^^^ thetaC b (x + 1)) 1 := by
  rw [rol64_xor (by decide)]
  unfold thetaD
  ac_rfl

/-- Where two state arrays have the same theta, they differ by one lane throughout each column plane, and the parity of five equal
lanes is that lane; so the definition of `D` makes these lanes meet `eq_zero_of_eq_xor_rol64`. -/
theorem theta_injective : Function.Injective theta := by
  intro a b h
  have hlane : ∀ x y, a.lane x y ^^^ b.lane x y = thetaD a x ^^^ thetaD b x := by
    intro x y
    apply xor_eq_xor_swap
    rw [← lane_theta, h, lane_theta]
  have hparity : ∀ x, thetaC a x ^^^ thetaC b x = thetaD a x ^^^ thetaD b x := by
    intro x
    simp only [thetaC_xor_thetaC, hlane, BitVec.xor_self, BitVec.zero_xor]
  have hzero : ∀ x, thetaD a x ^^^ thetaD b x = 0 := by
    apply eq_zero_of_eq_xor_rol64
    intro x
    rw [← hparity (x + 4), ← hparity (x + 1), thetaD_xor_thetaD]
  apply StateArray.ext_lane
  intro x y
  rw [← BitVec.xor_eq_zero_iff, hlane]
  exact hzero x

theorem round_injective (ir : Fin 24) : Function.Injective (round · ir) :=
  (iota_involutive ir).injective.comp <| chi_injective.comp <| pi_injective.comp <| rho_injective.comp theta_injective

/-- A chain of injective maps is injective. -/
theorem foldl_injective {α β : Type} {f : α → β → α} (hf : ∀ b, Function.Injective (f · b)) (l : List β) :
    Function.Injective (l.foldl f) := by
  induction l with
  | nil => exact Function.injective_id
  | cons b l ih => exact ih.comp (hf b)

theorem finite_stateArray : Finite StateArray :=
  Finite.of_injective StateArray.lane fun _ _ h => StateArray.ext_lane fun x y => congrFun₂ h x y

theorem keccakF_bijective : Function.Bijective keccakF :=
  have := finite_stateArray
  Finite.injective_iff_bijective.mp (foldl_injective round_injective _)

theorem lane_keccakF_zero : (keccakF .zero).lane 0 0 = 0xF1258F7940E1DDE7 := by decide +kernel

/-- Settles O34: the order is that of the definitions; each step mapping is injective, so `KeccakF` is a bijection; the lane is
computed. -/
theorem keccakFIsABijection : Obligations.KeccakFIsABijection := by
  unfold Obligations.KeccakFIsABijection
  exact ⟨fun _ => rfl, keccakF_bijective, lane_keccakF_zero⟩

end Sys2Proof.Machine
end

section
/-! Family 41_digest_engine, padding: the padded message and its length (R70). -/

namespace Sys2Proof.Machine

theorem pad_of_one_byte_left {m : List Byte} (h : 136 - m.length % 136 = 1) : pad m = m ++ [0x81] := by
  rw [pad, padding, rate, if_pos h]

theorem pad_of_two_bytes_left {m : List Byte} (h : 2 ≤ 136 - m.length % 136) :
    pad m = m ++ 0x01 :: (List.replicate (136 - m.length % 136 - 2) 0x00 ++ [0x80]) := by
  rw [pad, padding, rate, if_neg (by omega)]
  rfl

/-- Settles O29: the two forms are the two branches of `padding`; by `pad_length` the padded message has one block more than the
message has whole ones. -/
theorem paddingFillsTheLastBlock : Obligations.PaddingFillsTheLastBlock := by
  unfold Obligations.PaddingFillsTheLastBlock
  intro m
  have hlen : (pad m).length = 136 * (m.length / 136 + 1) := pad_length m
  refine ⟨pad_of_one_byte_left, pad_of_two_bytes_left, ?multiple, ?greater, ?least⟩
  case multiple => omega
  case greater => omega
  case least =>
    intro n hn hm
    omega

end Sys2Proof.Machine
end

section
/-! Family 41_digest_engine, the commands INIT, ABSORB, FINAL and SQZ: every answer and every register (R76 to R79). -/

namespace Sys2Proof.Machine

theorem eq_posIndex_iff {s : State} {j : Fin 200} : j = s.posIndex ↔ j.val = s.pos.val := Fin.ext_iff

theorem eq_135_iff {j : Fin 200} : j = 135 ↔ j.val = 135 := Fin.ext_iff

/-- The 136th byte of a block triggers the permutation, and `pos` starts again at 0 (R77). -/
theorem absorbByte_of_last {s : State} (b : Byte) (h : s.pos.val = 135) :
    absorbByte b s = { s with arr := keccakF (s.arr.xorByte s.posIndex b), pos := 0, cnt := s.cnt + 1 } := by
  rw [absorbByte, dif_pos (by omega)]

theorem absorbByte_of_next {s : State} (b : Byte) {p : Fin 136} (h : p.val = s.pos.val + 1) :
    absorbByte b s = { s with arr := s.arr.xorByte s.posIndex b, pos := p, cnt := s.cnt + 1 } := by
  obtain ⟨p, hp⟩ := p
  obtain rfl : p = s.pos.val + 1 := h
  rw [absorbByte, dif_neg (by omega)]

/-- FINAL's two xors, byte by byte; where both hit `S[135]` it receives `0x81` (R78). -/
theorem byte_padArray_posIndex (s : State) (j : Fin 200) :
    (padArray s.arr s.posIndex).byte j = s.arr.byte j ^^^
      ((if j.val = s.pos.val then 0x01#8 else 0x00#8) ^^^ (if j.val = 135 then 0x80#8 else 0x00#8)) := by
  rw [padArray, byte_xorByte, byte_xorByte]
  simp only [eq_posIndex_iff, eq_135_iff, padFirst, padLast]
  split <;> split <;> simp [BitVec.xor_assoc]

/-- The response that carries one byte (30_encoding.md R43). -/
theorem responseWord_byte (b : Byte) : responseWord .ok 1 (b.setWidth 16) = 0x010000#24 + b.setWidth 24 := by
  have hb : (b.setWidth 16).setWidth 24 = b.setWidth 24 := BitVec.setWidth_setWidth (by decide)
  rw [responseWord, hb]
  rfl

theorem digest_nil_head : (digest [])[0] = 0xC5 := by decide +kernel

theorem digest_zero_head : (digest [0x00])[0] = 0xBC := by decide +kernel

/-- A message of one byte `0x00` is not the empty message: their digests differ in the first byte (R77). -/
theorem digest_nil_ne_digest_zero : digest [] ≠ digest [0x00] := by
  intro h
  have hhead : (0xC5 : Byte) = 0xBC := by rw [← digest_nil_head, h, digest_zero_head]
  exact absurd hhead (by decide)

/-- Settles O21: the array is the zero array, and the state is that of INIT's effect. -/
theorem initStartsAMessage : Obligations.InitStartsAMessage := by
  unfold Obligations.InitStartsAMessage
  exact ⟨decode_encode .init, .zero, byte_zero, fun s => exec_of_effect (.init s)⟩

/-- Settles O22: each clause is one effect of ABSORB; the accepted byte by `absorbByte_of_last` at the end of a block and
`absorbByte_of_next` before it. -/
theorem absorbTakesOneByte : Obligations.AbsorbTakesOneByte := by
  unfold Obligations.AbsorbTakesOneByte
  refine ⟨digest_nil_ne_digest_zero, fun b s => ⟨decode_encode (.absorb b), ?failed, ?wrongPhase, ?full, ?accepted⟩⟩
  case failed => exact fun h => exec_of_effect (.absorbFailed s b h)
  case wrongPhase =>
    rintro (h | h)
    · exact exec_of_effect (.absorbIdle s b h)
    · exact exec_of_effect (.absorbSqueeze s b h)
  case full => exact fun h hm => exec_of_effect (.absorbFull s b h hm)
  case accepted =>
    intro h hm
    have hexec := exec_of_effect (.absorb s b h hm)
    refine ⟨s.arr.xorByte s.posIndex b, ?bytes, ?last, ?next⟩
    case bytes =>
      intro j
      simp only [byte_xorByte, eq_posIndex_iff]
    case last =>
      intro hp
      rw [hexec, absorbByte_of_last b hp]
      rfl
    case next =>
      intro p hp
      rw [hexec, absorbByte_of_next b hp]
      rfl

/-- Settles O23: each clause is one effect of FINAL; the padded array is `padArray` at `pos`. -/
theorem finalPadsAndPermutes : Obligations.FinalPadsAndPermutes := by
  unfold Obligations.FinalPadsAndPermutes
  refine ⟨decode_encode .final, fun s => ⟨?failed, ?wrongPhase, ?accepted⟩⟩
  case failed => exact fun h => exec_of_effect (.finalFailed s h)
  case wrongPhase =>
    rintro (h | h)
    · exact exec_of_effect (.finalIdle s h)
    · exact exec_of_effect (.finalSqueeze s h)
  case accepted => exact fun h => ⟨padArray s.arr s.posIndex, byte_padArray_posIndex s, exec_of_effect (.final s h)⟩

/-- Settles O24: each clause is one effect of SQZ; the response with a digest byte is `responseWord_byte`. -/
theorem sqzReadsADigestByte : Obligations.SqzReadsADigestByte := by
  unfold Obligations.SqzReadsADigestByte
  intro i s
  refine ⟨decode_encode (.sqz i), ?failed, ?wrongPhase, ?index, ?accepted⟩
  case failed => exact fun h => exec_of_effect (.sqzFailed s i h)
  case wrongPhase =>
    rintro (h | h)
    · exact exec_of_effect (.sqzIdle s i h)
    · exact exec_of_effect (.sqzAbsorb s i h)
  case index => exact fun h hi => exec_of_effect (.sqzIndex s i h hi)
  case accepted =>
    intro h hi k hk
    have hk' : k = ⟨i.toNat, by omega⟩ := Fin.ext hk
    rw [exec_of_effect (.sqz s i h hi), responseWord_byte, hk']
    rfl

end Sys2Proof.Machine
end

section
/-! Family 41_digest_engine, the phase table of the Digest Engine (R75). -/

namespace Sys2Proof

/-- A command is its mnemonic with its operand (30_encoding.md R45). -/
theorem Instr.instr_mnemonic_operand (i : Instr) : i.mnemonic.instr i.operand = i := by
  cases i <;> rfl

end Sys2Proof

namespace Sys2Proof.Machine

/-- An effect as an entry of a phase table: the next phase and the status of the response. -/
theorem Effect.phase_and_status {i s u st n d t} (he : Effect i s u st n d) (h : exec i s = .next t) :
    t.ph = u.ph ∧ AnswersStatus i s st := by
  obtain ⟨-, hout, -⟩ := he.streams
  have hexec := exec_of_effect he
  obtain rfl : u.reply (responseWord st n d) = t := Host.Outcome.next.inj (hexec.symm.trans h)
  exact ⟨rfl, _, _, hexec, congrArg (· ++ [responseWord st n d]) hout, statusField_responseWord st n d⟩

/-- A command that is no column of R75's table leaves `ph` unchanged. -/
theorem Effect.ph_eq_of_not_column {i s u st n d} (he : Effect i s u st n d)
    (hi : i.mnemonic ∉ [Mnemonic.INIT, .ABSORB, .FINAL, .SQZ, .NH_CHILD, .SRST]) : u.ph = s.ph := by
  cases he with
  | init | srst | absorb | absorbFull | final | child => simp [Instr.mnemonic] at hi
  | _ => rfl

/-- Settles O25: every entry of the table is one effect of its command, read by `Effect.phase_and_status`. -/
theorem digestEnginePhaseTable : Obligations.DigestEnginePhaseTable := by
  unfold Obligations.DigestEnginePhaseTable
  intro i s t h
  obtain ⟨m, b, rfl⟩ : ∃ m b, i = Mnemonic.instr m b := ⟨_, _, i.instr_mnemonic_operand.symm⟩
  simp only [Mnemonic.mnemonic_instr, List.mem_cons, List.not_mem_nil, or_false]
  refine ⟨?init, ?srst, ?other, ?idleOrFailed, ?absorbInAbsorb, ?finalInAbsorb, ?readInAbsorb, ?writeInSqueeze,
    ?sqzInSqueeze, ?childInSqueeze⟩
  case init =>
    rintro rfl
    exact (Effect.init s).phase_and_status h
  case srst =>
    rintro rfl
    exact (Effect.srst s).phase_and_status h
  case other =>
    intro hm
    obtain ⟨u, st, n, d, he⟩ := exists_effect (m.instr b) s
    calc
      t.ph = u.ph := (he.phase_and_status h).1
      _ = s.ph := he.ph_eq_of_not_column (by simpa [Mnemonic.mnemonic_instr] using hm)
  case idleOrFailed =>
    rintro (rfl | rfl | rfl | rfl)
    · exact ⟨fun hp => (Effect.absorbIdle s b hp).phase_and_status h,
        fun hp => (Effect.absorbFailed s b hp).phase_and_status h⟩
    · exact ⟨fun hp => (Effect.finalIdle s hp).phase_and_status h,
        fun hp => (Effect.finalFailed s hp).phase_and_status h⟩
    · exact ⟨fun hp => (Effect.sqzIdle s b hp).phase_and_status h,
        fun hp => (Effect.sqzFailed s b hp).phase_and_status h⟩
    · exact ⟨fun hp => (Effect.childIdle s hp).phase_and_status h,
        fun hp => (Effect.childFailed s hp).phase_and_status h⟩
  case absorbInAbsorb =>
    rintro rfl hp
    refine ⟨fun hm => (Effect.absorbFull s b hp hm).phase_and_status h, fun hm => ?_⟩
    rw [← absorbByte_ph s b]
    exact (Effect.absorb s b hp hm).phase_and_status h
  case finalInAbsorb =>
    rintro rfl hp
    exact (Effect.final s hp).phase_and_status h
  case readInAbsorb =>
    rintro (rfl | rfl) hp
    · exact (Effect.sqzAbsorb s b hp).phase_and_status h
    · exact (Effect.childAbsorb s hp).phase_and_status h
  case writeInSqueeze =>
    rintro (rfl | rfl) hp
    · exact (Effect.absorbSqueeze s b hp).phase_and_status h
    · exact (Effect.finalSqueeze s hp).phase_and_status h
  case sqzInSqueeze =>
    rintro rfl hp
    have hok (hb : b.toNat < 32) := (Effect.sqz s b hp hb).phase_and_status h
    have hindex (hb : 32 ≤ b.toNat) := (Effect.sqzIndex s b hp hb).phase_and_status h
    exact ⟨(lt_or_ge b.toNat 32).elim (fun hb => (hok hb).1) (fun hb => (hindex hb).1), fun hb => (hok hb).2,
      fun hb => (hindex hb).2⟩
  case childInSqueeze =>
    rintro rfl hp
    refine ⟨fun hn => (Effect.child s hp (Fin.ext hn)).phase_and_status h, fun hn => ?_⟩
    have hn' : s.np ≠ 32 := fun e => absurd (congrArg Fin.val e) hn.ne
    exact (Effect.childNoParent s hp hn').phase_and_status h

end Sys2Proof.Machine
end

section
/-! Family 42_hex_codec, the commands of the encoder and of the decoder: every answer and every register (R91 to R95). -/

namespace Sys2Proof.Machine

theorem toNat_hiNibble (b : Byte) : (hiNibble b).toNat = b.toNat / 16 := by
  have hb := b.isLt
  simp only [hiNibble, BitVec.toNat_setWidth, BitVec.toNat_ushiftRight, Nat.shiftRight_eq_div_pow]
  omega

theorem toNat_loNibble (b : Byte) : (loNibble b).toNat = b.toNat % 16 := by
  have hmask : b.toNat &&& 0x0F = b.toNat % 2 ^ 4 := Nat.and_two_pow_sub_one_eq_mod _ 4
  simp only [loNibble, BitVec.toNat_setWidth, BitVec.toNat_and, BitVec.reduceToNat, hmask]
  omega

/-- The code of a digit in plain arithmetic (R85). -/
theorem toNat_hexchar (v : Nibble) :
    (hexchar v).toNat = if v.toNat < 10 then 0x30 + v.toNat else 0x61 + (v.toNat - 10) := by
  revert v
  decide

theorem toNat_hexchar_hiNibble (b : Byte) : (hexchar (hiNibble b)).toNat =
    if b.toNat / 16 < 10 then 0x30 + b.toNat / 16 else 0x61 + (b.toNat / 16 - 10) := by
  rw [toNat_hexchar, toNat_hiNibble]

theorem toNat_hexchar_loNibble (b : Byte) : (hexchar (loNibble b)).toNat =
    if b.toNat % 16 < 10 then 0x30 + b.toNat % 16 else 0x61 + (b.toNat % 16 - 10) := by
  rw [toNat_hexchar, toNat_loNibble]

theorem toNat_twoChars (c d : Byte) : (twoChars c d).toNat = 256 * c.toNat + d.toNat := by
  rw [twoChars_eq_append, BitVec.toNat_append, ← Nat.shiftLeft_add_eq_or_of_lt d.isLt, Nat.shiftLeft_eq, Nat.mul_comm]

/-- The response of HXE_BYTE: two payload items, the first one 256 times as heavy as the second (30_encoding.md R43). -/
theorem responseWord_twoChars (c d : Byte) :
    responseWord .ok 2 (twoChars c d) = BitVec.ofNat 24 (0x020000 + 256 * c.toNat + d.toNat) := by
  have hc := c.isLt
  have hd := d.isLt
  apply BitVec.eq_of_toNat_eq
  rw [toNat_responseWord, toNat_twoChars, BitVec.toNat_ofNat]
  simp only [Status.code, BitVec.reduceToNat]
  omega

/-- The response of HXD_CHAR to a low digit: the byte that the two digits make (R94). -/
theorem responseWord_pack (hi lo : Nibble) :
    responseWord .ok 1 ((pack hi lo).setWidth 16) = BitVec.ofNat 24 (0x010000 + 16 * hi.toNat + lo.toNat) := by
  have hhi := hi.isLt
  have hlo := lo.isLt
  apply BitVec.eq_of_toNat_eq
  rw [toNat_responseWord, BitVec.toNat_setWidth, pack_toNat, BitVec.toNat_ofNat]
  simp only [Status.code, BitVec.reduceToNat]
  omega

/-- Settles O35: the response is that of HXE_PFX's effect. -/
theorem hxePfxReturnsTheTwoCharacters : Obligations.HxePfxReturnsTheTwoCharacters := by
  unfold Obligations.HxePfxReturnsTheTwoCharacters
  exact ⟨decode_encode .hxePfx, fun s => exec_of_effect (.hxePfx s)⟩

/-- Settles O36: `hi` and `lo` are the codes of the digits of the two nibbles, which HXE_BYTE's effect answers. -/
theorem hxeByteReturnsTwoLowercaseDigits : Obligations.HxeByteReturnsTwoLowercaseDigits := by
  unfold Obligations.HxeByteReturnsTwoLowercaseDigits
  intro b s hi lo hhi hlo
  rw [← toNat_hexchar_hiNibble] at hhi
  rw [← toNat_hexchar_loNibble] at hlo
  rw [hhi, hlo, ← responseWord_twoChars]
  exact ⟨decode_encode (.hxeByte b), exec_of_effect (.hxeByte s b)⟩

/-- Settles O37: the state is that of HXD_START's effect. -/
theorem hxdStartOpensAString : Obligations.HxdStartOpensAString := by
  unfold Obligations.HxdStartOpensAString
  exact ⟨decode_encode .hxdStart, fun s => exec_of_effect (.hxdStart s)⟩

/-- Settles O38: each clause is one effect of HXD_CHAR, the digits read by `hexval_eq_some_iff`; the byte answered to a low digit
is `responseWord_pack`. -/
theorem hxdCharTakesOneCharacter : Obligations.HxdCharTakesOneCharacter := by
  unfold Obligations.HxdCharTakesOneCharacter
  intro c s
  simp only [← hexval_eq_none_iff]
  simp only [← hexval_eq_some_iff, ← responseWord_pack]
  refine ⟨decode_encode (.hxdChar c), ?idle, ?failed, ?zero, ?x, ?malformed, ?high, ?low⟩
  case idle => exact fun h => exec_of_effect (.charIdle s c h)
  case failed => exact fun h => exec_of_effect (.charFailed s c h)
  case zero =>
    rintro h rfl
    exact exec_of_effect (.charZero s h)
  case x =>
    rintro h rfl
    exact exec_of_effect (.charX s h)
  case malformed =>
    rintro (⟨h, hc⟩ | ⟨h, hc⟩ | ⟨h | h, hv⟩)
    · exact exec_of_effect (.charNotZero s c h hc)
    · exact exec_of_effect (.charNotX s c h hc)
    · exact exec_of_effect (.charNotHigh s c h hv)
    · exact exec_of_effect (.charNotLow s c h hv)
  case high => exact fun v h hv => exec_of_effect (.charHigh s c v h hv)
  case low => exact fun v h hv => exec_of_effect (.charLow s c v h hv)

/-- Settles O39: each clause is one effect of HXD_END. -/
theorem hxdEndGivesTheVerdict : Obligations.HxdEndGivesTheVerdict := by
  unfold Obligations.HxdEndGivesTheVerdict
  exact ⟨decode_encode .hxdEnd, fun s => ⟨fun h => exec_of_effect (.endIdle s h),
    fun h => exec_of_effect (.endWellFormed s h), fun h h' => exec_of_effect (.endMalformed s h h')⟩⟩

end Sys2Proof.Machine
end

section
/-! Family 42_hex_codec, the phase table of the hex decoder (R90). -/

namespace Sys2Proof.Machine

/-- An effect is all that the command does: the registers and the response. -/
theorem Effect.eq_of_exec {i s u st n d t} (he : Effect i s u st n d) (h : exec i s = .next t) :
    t = u.reply (responseWord st n d) := Host.Outcome.next.inj (h.symm.trans (exec_of_effect he))

/-- An effect as an entry of R90's table: the next phase of the decoder and the status of the response. -/
theorem Effect.hdPhase_and_status {i s u st n d t} (he : Effect i s u st n d) (h : exec i s = .next t) :
    t.hdPh = u.hdPh ∧ AnswersStatus i s st := by
  obtain ⟨-, hstatus⟩ := he.phase_and_status h
  rw [he.eq_of_exec h, reply_hdPh]
  exact ⟨rfl, hstatus⟩

theorem Effect.respOut_of_exec {i s u st n d t} (he : Effect i s u st n d) (h : exec i s = .next t) :
    t.respOut = s.respOut ++ [responseWord st n d] := by
  obtain ⟨-, hout, -⟩ := he.streams
  rw [he.eq_of_exec h, reply_respOut, hout]

/-- A command that is no column of R90's table leaves `hd_ph` unchanged. -/
theorem Effect.hdPh_eq_of_not_column {i s u st n d} (he : Effect i s u st n d)
    (hi : i.mnemonic ∉ [Mnemonic.HXD_START, .HXD_CHAR, .HXD_END, .SRST]) : u.hdPh = s.hdPh := by
  cases he with
  | absorb _ b => exact absorbByte_hdPh s b
  | srst | hxdStart | charZero | charNotZero | charX | charNotX | charHigh | charNotHigh | charLow | charNotLow
  | endIdle | endWellFormed | endMalformed => simp [Instr.mnemonic] at hi
  | _ => rfl

/-- Settles O40: every entry of the table is one effect of its command, read by `Effect.hdPhase_and_status`. -/
theorem hexDecoderPhaseTable : Obligations.HexDecoderPhaseTable := by
  unfold Obligations.HexDecoderPhaseTable
  intro i s t h
  obtain ⟨m, b, rfl⟩ : ∃ m b, i = Mnemonic.instr m b := ⟨_, _, i.instr_mnemonic_operand.symm⟩
  simp only [Mnemonic.mnemonic_instr, ← hexval_eq_none_iff]
  simp only [← hexval_eq_some_iff]
  refine ⟨?start, ?srst, ?other, ?char, ?finish⟩
  case start =>
    rintro rfl
    exact (Effect.hxdStart s).hdPhase_and_status h
  case srst =>
    rintro rfl
    exact (Effect.srst s).hdPhase_and_status h
  case other =>
    intro hm
    obtain ⟨u, st, n, d, he⟩ := exists_effect (m.instr b) s
    calc
      t.hdPh = u.hdPh := (he.hdPhase_and_status h).1
      _ = s.hdPh := he.hdPh_eq_of_not_column (by rwa [Mnemonic.mnemonic_instr])
  case char =>
    rintro rfl
    refine ⟨?idle, ?p0, ?p1, ?high, ?low, ?failed⟩
    case idle =>
      intro hp
      rw [← hp]
      exact (Effect.charIdle s b hp).hdPhase_and_status h
    case p0 =>
      intro hp
      split
      · next hb =>
        obtain rfl : b = charZero := hb
        exact (Effect.charZero s hp).hdPhase_and_status h
      · next hb => exact (Effect.charNotZero s b hp hb).hdPhase_and_status h
    case p1 =>
      intro hp
      split
      · next hb =>
        obtain rfl : b = charX := hb
        exact (Effect.charX s hp).hdPhase_and_status h
      · next hb => exact (Effect.charNotX s b hp hb).hdPhase_and_status h
    case high =>
      intro hp
      refine ⟨fun ⟨v, hv⟩ => ?_, fun hv => (Effect.charNotHigh s b hp hv).hdPhase_and_status h⟩
      have he := Effect.charHigh s b v hp hv
      exact ⟨(he.hdPhase_and_status h).1, he.respOut_of_exec h⟩
    case low =>
      intro hp
      refine ⟨fun ⟨v, hv⟩ => ?_, fun hv => (Effect.charNotLow s b hp hv).hdPhase_and_status h⟩
      have he := Effect.charLow s b v hp hv
      exact ⟨(he.hdPhase_and_status h).1, _, he.respOut_of_exec h, statusField_responseWord _ _ _,
        countField_responseWord _ _ _⟩
    case failed =>
      intro hp
      rw [← hp]
      exact (Effect.charFailed s b hp).hdPhase_and_status h
  case finish =>
    rintro rfl
    have hidle (hp : s.hdPh = .hdIdle) := (Effect.endIdle s hp).hdPhase_and_status h
    have hwell (hp : s.hdPh = .hdHi) := (Effect.endWellFormed s hp).hdPhase_and_status h
    have hmal (hp : s.hdPh ≠ .hdIdle) (hp' : s.hdPh ≠ .hdHi) := (Effect.endMalformed s hp hp').hdPhase_and_status h
    refine ⟨?phase, fun hp => (hidle hp).2, fun hp => (hwell hp).2, fun hp hp' => (hmal hp hp').2⟩
    by_cases hp : s.hdPh = .hdIdle
    · exact (hidle hp).1.trans hp
    · by_cases hp' : s.hdPh = .hdHi
      · exact (hwell hp').1
      · exact (hmal hp hp').1

end Sys2Proof.Machine
end

section
/-! Family 42_hex_codec, the functions `toHex` and `fromHex` on lists: digits by position, and the failures (R87, R88). -/

namespace Sys2Proof.Machine

/-! ### Lists written two items for each element -/

section Pairs

variable {α β : Type} (f g : α → β)

theorem length_flatMap_pair (l : List α) : (l.flatMap fun x => [f x, g x]).length = 2 * l.length := by
  induction l with
  | nil => rfl
  | cons x l ih =>
    simp only [List.flatMap_cons, List.length_append, List.length_cons, List.length_nil, ih]
    omega

/-- The first item of element `j` stands at `2 * j`, the second one after it. -/
theorem getElem?_flatMap_pair (l : List α) (j : Nat) :
    (l.flatMap fun x => [f x, g x])[2 * j]? = l[j]?.map f ∧ (l.flatMap fun x => [f x, g x])[2 * j + 1]? = l[j]?.map g := by
  induction l generalizing j with
  | nil => exact ⟨rfl, rfl⟩
  | cons x l ih =>
    cases j with
    | zero => exact ⟨rfl, rfl⟩
    | succ j => exact ih j

end Pairs

/-! ### The digits of `toHex` -/

theorem toHex_eq_cons (b : List Byte) :
    toHex b = charZero :: charX :: b.flatMap fun x => [hexchar (hiNibble x), hexchar (loNibble x)] := rfl

theorem length_toHex (b : List Byte) : (toHex b).length = 2 + 2 * b.length := by
  rw [toHex_eq_cons, List.length_cons, List.length_cons, length_flatMap_pair]
  omega

/-- The digits of byte `j` follow `0x` and the digits of the `j` bytes before it. -/
theorem getElem?_toHex {b : List Byte} {j : Nat} {x : Byte} (h : b[j]? = some x) :
    (toHex b)[2 + 2 * j]? = some (hexchar (hiNibble x)) ∧ (toHex b)[3 + 2 * j]? = some (hexchar (loNibble x)) := by
  obtain ⟨hfst, hsnd⟩ :=
    getElem?_flatMap_pair (fun x => hexchar (hiNibble x)) (fun x => hexchar (loNibble x)) b j
  rw [h] at hfst hsnd
  rw [toHex_eq_cons, Nat.add_comm 2, Nat.add_comm 3]
  exact ⟨hfst, hsnd⟩

/-- Settles O41: the length is `length_toHex`; the digits of a byte are at the places of `getElem?_toHex`, and `hi` and `lo` are
their codes. -/
theorem toHexWritesTwoDigitsPerByte : Obligations.ToHexWritesTwoDigitsPerByte := by
  unfold Obligations.ToHexWritesTwoDigitsPerByte
  refine fun b => ⟨length_toHex b, rfl, rfl, ?_⟩
  intro j x hi lo hx hhi hlo
  rw [← toNat_hexchar_hiNibble] at hhi
  rw [← toNat_hexchar_loNibble] at hlo
  rw [hhi, hlo, BitVec.ofNat_toNat, BitVec.ofNat_toNat, BitVec.setWidth_eq, BitVec.setWidth_eq]
  exact getElem?_toHex hx

/-! ### The digits that `fromHex` reads -/

theorem hexvals_eq_none_iff (ds : List Byte) : hexvals ds = none ↔ ∃ c ∈ ds, ∀ v, ¬ IsHexDigit c v := by
  induction ds with
  | nil => simp [hexvals]
  | cons c ds ih =>
    rw [hexvals_cons, List.exists_mem_cons_iff, ← ih, ← hexval_eq_none_iff]
    cases hexval c <;> simp

/-- Each value read is that of the digit at its place. -/
theorem isHexDigit_of_hexvals {ds : List Byte} {v : List Nibble} (h : hexvals ds = some v) {k : Nat} {x : Nibble}
    (hx : v[k]? = some x) : ∃ c, ds[k]? = some c ∧ IsHexDigit c x := by
  induction ds generalizing v k with
  | nil =>
    cases h
    cases hx
  | cons c ds ih =>
    rw [hexvals_cons, Option.bind_eq_some_iff] at h
    obtain ⟨y, hy, h⟩ := h
    obtain ⟨w, hw, rfl⟩ := Option.map_eq_some_iff.mp h
    cases k with
    | zero =>
      cases hx
      exact ⟨c, rfl, (hexval_eq_some_iff c x).mp hy⟩
    | succ k => exact ih hw hx

theorem packPairs_eq_none_iff (v : List Nibble) : packPairs v = none ↔ v.length % 2 = 1 := by
  induction v using packPairs.induct with
  | case1 => simp [packPairs]
  | case2 => simp [packPairs]
  | case3 hi lo rest ih =>
    rw [packPairs, Option.map_eq_none_iff, ih, List.length_cons, List.length_cons]
    omega

/-- Packing is undone by taking each byte apart (R86). -/
theorem eq_nibbles_of_packPairs {v : List Nibble} {b : List Byte} (h : packPairs v = some b) :
    v = b.flatMap fun x => [hiNibble x, loNibble x] := by
  induction v using packPairs.induct generalizing b with
  | case1 =>
    cases h
    rfl
  | case2 => cases h
  | case3 hi lo rest ih =>
    rw [packPairs] at h
    obtain ⟨bs, hbs, rfl⟩ := Option.map_eq_some_iff.mp h
    simp [← ih hbs]

/-! ### When `fromHex` fails -/

theorem fromHex_of_no_zero_x {s : List Byte} (h : ∀ ds, s ≠ charZero :: charX :: ds) :
    fromHex s = .error .formatError := by
  apply fromHex_error_of_ne_ok
  intro b hb
  obtain ⟨ds, _, hs, _⟩ := (fromHex_eq_ok_iff s b).mp hb
  exact h ds hs

/-- After the opening `0x`, two of R88's three failures are left. -/
theorem fromHex_zero_x_eq_error_iff (ds : List Byte) : fromHex (charZero :: charX :: ds) = .error .formatError ↔
    (∃ c ∈ ds, ∀ v, ¬ IsHexDigit c v) ∨ ds.length % 2 = 1 := by
  have hbind : fromHex (charZero :: charX :: ds) = .error .formatError ↔ (hexvals ds).bind packPairs = none := by
    rw [fromHex, if_pos ⟨rfl, rfl⟩]
    cases (hexvals ds).bind packPairs <;> simp
  rw [hbind, ← hexvals_eq_none_iff]
  cases hv : hexvals ds with
  | none => simp
  | some v => simp [packPairs_eq_none_iff, length_of_hexvals hv]

/-- The opening `0x`, said by the characters at the places 0 and 1. -/
theorem exists_eq_zero_x_cons_iff (s : List Byte) :
    (∃ ds, s = charZero :: charX :: ds) ↔ s[0]? = some 0x30 ∧ s[1]? = some 0x78 := by
  constructor
  · rintro ⟨ds, rfl⟩
    exact ⟨rfl, rfl⟩
  · rintro ⟨h0, h1⟩
    match s with
    | c :: d :: ds =>
      cases h0
      cases h1
      exact ⟨ds, rfl⟩

/-- The characters after the first two are those at the places from 2 on. -/
theorem exists_getElem?_from_two_iff {c d : Byte} {ds : List Byte} {p : Byte → Prop} :
    (∃ k x, 2 ≤ k ∧ (c :: d :: ds)[k]? = some x ∧ p x) ↔ ∃ x ∈ ds, p x := by
  simp only [List.mem_iff_getElem?]
  constructor
  · rintro ⟨k, x, hk, hx, hp⟩
    obtain ⟨k, rfl⟩ := Nat.exists_eq_add_of_le' hk
    exact ⟨x, ⟨k, hx⟩, hp⟩
  · rintro ⟨x, ⟨k, hx⟩, hp⟩
    exact ⟨k + 2, x, Nat.le_add_left 2 k, hx, hp⟩

/-- Where `fromHex` succeeds, the two digits of byte `j` follow `0x` and the digits of the `j` bytes before it. -/
theorem digits_of_fromHex {str bs : List Byte} (h : fromHex str = .ok bs) {j : Nat} {b : Byte} (hb : bs[j]? = some b) :
    ∃ c d, str[2 + 2 * j]? = some c ∧ str[3 + 2 * j]? = some d ∧ IsHexDigit c (hiNibble b) ∧ IsHexDigit d (loNibble b) := by
  obtain ⟨ds, v, rfl, hv, hbs⟩ := (fromHex_eq_ok_iff str bs).mp h
  obtain ⟨hhi, hlo⟩ := getElem?_flatMap_pair hiNibble loNibble bs j
  rw [← eq_nibbles_of_packPairs hbs, hb] at hhi hlo
  obtain ⟨c, hc, hcv⟩ := isHexDigit_of_hexvals hv hhi
  obtain ⟨d, hd, hdv⟩ := isHexDigit_of_hexvals hv hlo
  rw [Nat.add_comm 2, Nat.add_comm 3]
  exact ⟨c, d, hc, hd, hcv, hdv⟩

theorem length_of_fromHex {str bs : List Byte} (h : fromHex str = .ok bs) : 2 * bs.length = str.length - 2 := by
  obtain ⟨ds, v, rfl, hv, hbs⟩ := (fromHex_eq_ok_iff str bs).mp h
  rw [← length_flatMap_pair hiNibble loNibble, ← eq_nibbles_of_packPairs hbs, length_of_hexvals hv]
  rfl

/-- Settles O45: without the opening `0x` the first causes hold and `fromHex` fails; with it, the two causes left are those of
`fromHex_zero_x_eq_error_iff`. A byte of the result is made of its two nibbles, the digits of `digits_of_fromHex`. -/
theorem fromHexAcceptsExactlyWellFormedStrings : Obligations.FromHexAcceptsExactlyWellFormedStrings := by
  unfold Obligations.FromHexAcceptsExactlyWellFormedStrings
  refine fun str => ⟨?failure, fun bs h => ⟨length_of_fromHex h, ?digits⟩⟩
  case failure =>
    by_cases hs : ∃ ds, str = charZero :: charX :: ds
    · obtain ⟨ds, rfl⟩ := hs
      rw [fromHex_zero_x_eq_error_iff, exists_getElem?_from_two_iff]
      simp [charZero, charX]
    · have herror := fromHex_of_no_zero_x (not_exists.mp hs)
      rw [exists_eq_zero_x_cons_iff] at hs
      exact iff_of_true (by tauto) herror
  case digits =>
    intro j b hb
    obtain ⟨c, d, hc, hd, hcv, hdv⟩ := digits_of_fromHex h hb
    refine ⟨c, d, hiNibble b, loNibble b, hc, hd, hcv, hdv, ?_⟩
    rw [← pack_toNat, pack_nibbles]

end Sys2Proof.Machine
end

section
/-! Family 43_name_hasher, the root node and the commands NH_ROOT, NH_CLR, NH_LDB, NH_CHILD and NH_RD: every answer and every
register (R101, R107 to R111). -/

namespace Sys2Proof.Machine

theorem np_eq_32_iff {s : State} : s.np = 32 ↔ s.np.val = 32 := Fin.ext_iff

theorem np_ne_32_of_lt {s : State} (h : s.np.val < 32) : s.np ≠ 32 := fun e => h.ne (np_eq_32_iff.mp e)

/-- The constant that NH_ROOT loads is the digest of the empty message (R101). -/
theorem kRoot_eq_rootNode : kRoot = rootNode := by decide +kernel

/-- NH_CHILD's internal array byte by byte, where the label digest is the digest window (R110). -/
theorem byte_childArray_window (nd : Vector Byte 32) (a : StateArray) (j : Fin 200) :
    (childArray nd a.window).byte j =
      if h : j.val < 32 then nd[j.val]
      else if h' : j.val < 64 then a.byte ⟨j.val - 32, by omega⟩
      else if j.val = 64 then 0x01 else if j.val = 135 then 0x80 else 0x00 := by
  have hwin (h' : j.val < 64) (h : ¬ j.val < 32) : a.window[j.val - 32] = a.byte ⟨j.val - 32, by omega⟩ :=
    window_get a ⟨j.val - 32, by omega⟩
  rw [childArray, byte_ofBytes]
  split
  · rfl
  · next h =>
    split
    · next h' => exact hwin h' h
    · rfl

/-- Settles O46: the state is that of NH_ROOT's effect, `kRoot` being the constant written out. -/
theorem nhRootLoadsTheRootNode : Obligations.NhRootLoadsTheRootNode := by
  unfold Obligations.NhRootLoadsTheRootNode
  exact ⟨decode_encode .nhRoot, fun s => exec_of_effect (.nhRoot s)⟩

/-- Settles O47: the one computation is `kRoot_eq_rootNode`. -/
theorem rootNodeIsTheDigestOfNothing : Obligations.RootNodeIsTheDigestOfNothing := by
  unfold Obligations.RootNodeIsTheDigestOfNothing
  exact ⟨rfl, kRoot_eq_rootNode, kRoot_eq_rootNode.symm⟩

/-- Settles O48: the state is that of NH_CLR's effect. -/
theorem nhClrOpensALoad : Obligations.NhClrOpensALoad := by
  unfold Obligations.NhClrOpensALoad
  exact ⟨decode_encode .nhClr, fun s => exec_of_effect (.nhClr s)⟩

/-- Settles O49: each clause is one effect of NH_LDB; the bytes of the new `NODE` are those of `Vector.set`. -/
theorem nhLdbLoadsOneByte : Obligations.NhLdbLoadsOneByte := by
  unfold Obligations.NhLdbLoadsOneByte
  intro b s
  refine ⟨decode_encode (.nhLdb b), ?full, ?accepted⟩
  case full => exact fun h => exec_of_effect (.ldbFull s b (np_eq_32_iff.mpr h))
  case accepted =>
    intro h
    refine ⟨⟨s.np.val + 1, by omega⟩, s.node.set s.np.val b h, rfl, ?bytes, exec_of_effect (.ldb s b h)⟩
    intro j
    simp only [Fin.getElem_fin, Vector.getElem_set, eq_comm (a := j.val)]

/-- Settles O50: each clause is one effect of NH_CHILD; `T` is `childArray`, the new node its permuted window, which
`child_is_digest` ties to `digest`, and `a` is the zero array. -/
theorem nhChildReplacesTheNode : Obligations.NhChildReplacesTheNode := by
  unfold Obligations.NhChildReplacesTheNode
  refine ⟨decode_encode .nhChild, fun s => ⟨?failed, ?wrongPhase, ?noParent, ?accepted⟩⟩
  case failed => exact fun h => exec_of_effect (.childFailed s h)
  case wrongPhase =>
    rintro (h | h)
    · exact exec_of_effect (.childIdle s h)
    · exact exec_of_effect (.childAbsorb s h)
  case noParent => exact fun h hn => exec_of_effect (.childNoParent s h (np_ne_32_of_lt hn))
  case accepted =>
    intro h hn
    exact ⟨childArray s.node s.arr.window, .zero, _, byte_childArray_window s.node s.arr, window_get _,
      child_is_digest s.node s.arr.window, byte_zero, exec_of_effect (.child s h (np_eq_32_iff.mpr hn))⟩

/-- Settles O51: each clause is one effect of NH_RD; the response with a node byte is `responseWord_byte`. -/
theorem nhRdReadsANodeByte : Obligations.NhRdReadsANodeByte := by
  unfold Obligations.NhRdReadsANodeByte
  intro i s
  refine ⟨decode_encode (.nhRd i), ?notValid, ?index, ?accepted⟩
  case notValid => exact fun h => exec_of_effect (.rdNotValid s i (np_ne_32_of_lt h))
  case index => exact fun h hi => exec_of_effect (.rdIndex s i (np_eq_32_iff.mpr h) hi)
  case accepted =>
    intro h k hk
    have hi : i.toNat < 32 := hk ▸ k.isLt
    obtain rfl : k = ⟨i.toNat, hi⟩ := Fin.ext hk
    rw [exec_of_effect (.rd s i (np_eq_32_iff.mpr h) hi), responseWord_byte]
    rfl

end Sys2Proof.Machine
end

section
/-! Family 43_name_hasher, the table of the node load pointer (R106). -/

namespace Sys2Proof.Machine

/-- An effect as an entry of R106's table: the next `np` and the status of the response. -/
theorem Effect.np_and_status {i s u st n d t} (he : Effect i s u st n d) (h : exec i s = .next t) :
    t.np = u.np ∧ AnswersStatus i s st := by
  obtain ⟨-, hstatus⟩ := he.phase_and_status h
  rw [he.eq_of_exec h, reply_np]
  exact ⟨rfl, hstatus⟩

/-- Only NH_ROOT, NH_CLR, NH_LDB and SRST move `np`: NH_CHILD and NH_RD leave it too (R106). -/
theorem Effect.np_eq_of_not_mover {i s u st n d} (he : Effect i s u st n d)
    (hi : i.mnemonic ∉ [Mnemonic.NH_ROOT, .NH_CLR, .NH_LDB, .SRST]) : u.np = s.np := by
  cases he with
  | absorb _ b => exact absorbByte_np s b
  | srst | nhRoot | nhClr | ldb | ldbFull => simp [Instr.mnemonic] at hi
  | _ => rfl

/-- NH_CHILD without a node to be the parent is an error in every phase, and which one is the Digest Engine's to say (R110). -/
theorem nhChild_status_of_np_lt {s : State} (hn : s.np.val < 32) :
    if s.ph = .failed then AnswersStatus .nhChild s .capacityError else AnswersStatus .nhChild s .sequenceError := by
  obtain ⟨t, _, h, -⟩ := exec_answers .nhChild s
  split
  · next hp => exact ((Effect.childFailed s hp).phase_and_status h).2
  · next hp =>
    cases hph : s.ph with
    | idle => exact ((Effect.childIdle s hph).phase_and_status h).2
    | absorb => exact ((Effect.childAbsorb s hph).phase_and_status h).2
    | squeeze => exact ((Effect.childNoParent s hph (np_ne_32_of_lt hn)).phase_and_status h).2
    | failed => exact absurd hph hp

/-- Settles O52: every entry of the table is one effect of its command, read by `Effect.np_and_status`. -/
theorem nodePointerTable : Obligations.NodePointerTable := by
  unfold Obligations.NodePointerTable
  intro i s t h
  obtain ⟨m, b, rfl⟩ : ∃ m b, i = Mnemonic.instr m b := ⟨_, _, i.instr_mnemonic_operand.symm⟩
  have hkeep (hm : m ∉ [Mnemonic.NH_ROOT, .NH_CLR, .NH_LDB, .SRST]) : t.np = s.np := by
    obtain ⟨u, st, n, d, he⟩ := exists_effect (m.instr b) s
    calc
      t.np = u.np := (he.np_and_status h).1
      _ = s.np := he.np_eq_of_not_mover (by rwa [Mnemonic.mnemonic_instr])
  simp only [Mnemonic.mnemonic_instr]
  refine ⟨?root, ?clr, ?srst, ?ldb, ?child, ?rd, ?other⟩
  case root =>
    rintro rfl
    exact (Effect.nhRoot s).np_and_status h |>.imp_left (congrArg Fin.val)
  case clr =>
    rintro rfl
    exact (Effect.nhClr s).np_and_status h |>.imp_left (congrArg Fin.val)
  case srst =>
    rintro rfl
    exact (Effect.srst s).np_and_status h |>.imp_left (congrArg Fin.val)
  case ldb =>
    rintro rfl
    refine ⟨fun hn => (Effect.ldb s b hn).np_and_status h |>.imp_left (congrArg Fin.val), fun hn => ?_⟩
    obtain ⟨hnp, hstatus⟩ := (Effect.ldbFull s b (np_eq_32_iff.mpr hn)).np_and_status h
    exact ⟨(congrArg Fin.val hnp).trans hn, hstatus⟩
  case child =>
    rintro rfl
    exact ⟨hkeep (by decide), nhChild_status_of_np_lt,
      fun hn hp => ((Effect.child s hp (np_eq_32_iff.mpr hn)).np_and_status h).2⟩
  case rd =>
    rintro rfl
    refine ⟨hkeep (by decide), fun hn => ((Effect.rdNotValid s b (np_ne_32_of_lt hn)).np_and_status h).2, fun hn => ?_⟩
    split
    · next hb => exact ((Effect.rd s b (np_eq_32_iff.mpr hn) hb).np_and_status h).2
    · next hb => exact ((Effect.rdIndex s b (np_eq_32_iff.mpr hn) (not_lt.mp hb)).np_and_status h).2
  case other =>
    intro hm
    have hsub : [Mnemonic.NH_ROOT, .NH_CLR, .NH_LDB, .SRST]
        ⊆ [Mnemonic.NH_ROOT, .NH_CLR, .NH_LDB, .NH_CHILD, .NH_RD, .SRST] := by decide
    exact hkeep fun hmover => hm (hsub hmover)

end Sys2Proof.Machine
end

section
/-! Family 43_name_hasher, names: the labels of a name, and the node hash folded over them (R103, R104). -/

namespace Sys2Proof.Machine

/-- The segments of a text are what the library's `List.splitOn` gives (R103). -/
theorem splitDots_eq_splitOn (t : List Char) : splitDots t = t.splitOn '.' := by
  induction t with
  | nil => rw [splitDots, List.splitOn_nil]
  | cons c cs ih =>
    rw [splitDots, List.splitOn_cons_eq_if_modifyHead, ih]
    obtain ⟨l, ls, h⟩ := List.exists_cons_of_ne_nil (List.splitOn_ne_nil '.' cs)
    simp only [beq_iff_eq, h, List.modifyHead_cons]

/-- A text has one segment more than it has dots. -/
theorem length_splitDots (t : List Char) : (splitDots t).length = t.count '.' + 1 := by
  rw [splitDots_eq_splitOn]
  induction t with
  | nil => rw [List.splitOn_nil, List.count_nil, List.length_singleton]
  | cons c cs ih =>
    rw [List.splitOn_cons_eq_if_modifyHead, List.count_cons]
    split
    · rw [List.length_cons, ih]
    · rw [List.length_modifyHead, ih, Nat.add_zero]

theorem dot_not_mem_of_mem_splitDots {t l : List Char} (h : l ∈ splitDots t) : '.' ∉ l := by
  rw [splitDots_eq_splitOn] at h
  induction t generalizing l with
  | nil =>
    obtain rfl : l = [] := by simpa using h
    exact List.not_mem_nil
  | cons c cs ih =>
    rw [List.splitOn_cons_eq_if_modifyHead] at h
    split at h
    · rcases List.mem_cons.mp h with rfl | h
      · exact List.not_mem_nil
      · exact ih h
    · next hc =>
      obtain ⟨first, others, hsplit⟩ := List.exists_cons_of_ne_nil (List.splitOn_ne_nil '.' cs)
      rw [hsplit] at ih
      rw [hsplit, List.modifyHead_cons] at h
      rcases List.mem_cons.mp h with rfl | h
      · exact List.not_mem_cons_of_ne_of_not_mem (fun e => hc (beq_iff_eq.mpr e.symm)) (ih List.mem_cons_self)
      · exact ih (List.mem_cons_of_mem first h)

theorem labels_of_ne_nil {name : List Char} (h : name ≠ []) : labels name = name.splitOn '.' := by
  rw [labels, if_neg h, splitDots_eq_splitOn]

/-- The label before the first dot, and the segments after that dot: also where nothing follows it (R104). -/
theorem labels_append_dot {l : List Char} (h : '.' ∉ l) (rest : List Char) :
    labels (l ++ '.' :: rest) = l :: rest.splitOn '.' := by
  rw [labels_of_ne_nil (List.append_ne_nil_of_right_ne_nil l (List.cons_ne_nil '.' rest)),
    List.splitOn_append_cons_self_of_not_mem h]

/-- The fold over one label more on the left takes its child last (R103). -/
theorem nameHash_of_labels_eq_cons {name l : List Char} {ls : List (List Char)} (h : labels name = l :: ls) :
    nameHash name = childNode (ls.foldr (fun l node => childNode node l) rootNode) l := by
  rw [nameHash, h, List.foldr_cons]

theorem nameHash_of_dot_not_mem {l : List Char} (h : '.' ∉ l) (hl : l ≠ []) : nameHash l = childNode rootNode l := by
  rw [nameHash_of_labels_eq_cons ((labels_of_ne_nil hl).trans (List.splitOn_eq_singleton h)), List.foldr_nil]

/-- A name that ends with a dot has an empty last label (R104). -/
theorem nameHash_append_last_dot {l : List Char} (h : '.' ∉ l) :
    nameHash (l ++ ['.']) = childNode (childNode rootNode []) l := by
  rw [nameHash_of_labels_eq_cons (labels_append_dot h []), List.splitOn_nil, List.foldr_cons, List.foldr_nil]

theorem nameHash_append_dot {l rest : List Char} (h : '.' ∉ l) (hr : rest ≠ []) :
    nameHash (l ++ '.' :: rest) = childNode (nameHash rest) l := by
  rw [nameHash_of_labels_eq_cons (labels_append_dot h rest), nameHash, labels_of_ne_nil hr]

/-- Settles O55: the labels are `splitOn` of the name at its dots, and the fold takes the label before the first dot last. -/
theorem nameHashFoldsLabelsFromTheRight : Obligations.NameHashFoldsLabelsFromTheRight := by
  unfold Obligations.NameHashFoldsLabelsFromTheRight
  refine ⟨rfl, rfl, fun name hname => ?segments,
    fun l hl => ⟨nameHash_of_dot_not_mem hl, nameHash_append_last_dot hl, fun _ => nameHash_append_dot hl⟩⟩
  have hlabels : labels name = splitDots name := if_neg hname
  refine ⟨?join, hlabels ▸ length_splitDots name, fun _ hl => dot_not_mem_of_mem_splitDots (hlabels ▸ hl)⟩
  rw [labels_of_ne_nil hname, List.intercalate_splitOn]

end Sys2Proof.Machine
end

section
/-! Family 44_system: the status word in plain arithmetic (R21), and the commands STATUS and SRST: every answer and every register
(R115, R116). -/

namespace Sys2Proof.Machine

/-- The response that carries 16 bits of data (30_encoding.md R43). -/
theorem responseWord_ok_two (d : BitVec 16) : responseWord .ok 2 d = 0x020000#24 + d.setWidth 24 := rfl

/-- The fields of the status word do not overlap, so R115's `or` of the shifted registers is their sum. -/
theorem toNat_statusWord (s : State) : (statusWord s).toNat =
    2 ^ 8 * s.pos.val + (2 ^ 5 * (nodeValid s).toNat + (2 ^ 2 * s.hdPh.code.toNat + s.ph.code.toNat)) := by
  have hpos := s.pos.isLt
  have hnv := (nodeValid s).toNat_lt
  have hhdPh := s.hdPh.code.isLt
  have hph := s.ph.code.isLt
  simp (disch := omega) only [statusWord, BitVec.toNat_or, BitVec.toNat_shiftLeft, BitVec.toNat_setWidth, BitVec.toNat_ofNat,
    BitVec.toNat_ofBool, Nat.mod_eq_of_lt]
  rw [Nat.or_assoc, Nat.or_assoc, ← Nat.shiftLeft_add_eq_or_of_lt hph, ← Nat.shiftLeft_add_eq_or_of_lt (i := 5) (by omega),
    ← Nat.shiftLeft_add_eq_or_of_lt (by omega)]
  omega

/-- R21's table of the status word, bits 15:8, 7:6, 5, 4:2 and 1:0. -/
theorem statusWord_fields (s : State) :
    ((statusWord s).extractLsb' 8 8).toNat = s.pos.val ∧ ((statusWord s).extractLsb' 6 2).toNat = 0
    ∧ ((statusWord s).extractLsb' 5 1).toNat = (nodeValid s).toNat
    ∧ ((statusWord s).extractLsb' 2 3).toNat = s.hdPh.code.toNat
    ∧ ((statusWord s).extractLsb' 0 2).toNat = s.ph.code.toNat := by
  have hpos := s.pos.isLt
  have hnv := (nodeValid s).toNat_lt
  have hhdPh := s.hdPh.code.isLt
  have hph := s.ph.code.isLt
  simp only [BitVec.extractLsb'_toNat, toNat_statusWord, Nat.shiftRight_eq_div_pow]
  omega

theorem nodeValid_iff {s : State} : nodeValid s = true ↔ s.np.val = 32 := beq_iff_eq.trans np_eq_32_iff

/-- Bit 5 of the status word, `NV` (R21). -/
theorem statusWord_bit_five (s : State) : (statusWord s).getLsbD 5 = true ↔ s.np.val = 32 := by
  obtain ⟨-, -, hnv, -, -⟩ := statusWord_fields s
  rw [BitVec.getLsbD_eq_extractLsb', beq_iff_eq, ← BitVec.toNat_inj, hnv, ← nodeValid_iff]
  exact Bool.toNat_eq_one

theorem statusWord_reset : statusWord .reset = 0 := rfl

/-- Settles O18: the answer is that of STATUS's effect, its data the status word, which `statusWord_fields` takes apart. -/
theorem statusReturnsTheStatusWord : Obligations.StatusReturnsTheStatusWord := by
  unfold Obligations.StatusReturnsTheStatusWord
  simp only [← responseWord_ok_two]
  refine ⟨decode_encode .status, fun s => ?fields, ?reset⟩
  case fields =>
    obtain ⟨hpos, hzero, -, hhdPh, hph⟩ := statusWord_fields s
    exact ⟨statusWord s, exec_of_effect (.status s), hpos, BitVec.eq_of_toNat_eq hzero, statusWord_bit_five s,
      BitVec.eq_of_toNat_eq hhdPh, BitVec.eq_of_toNat_eq hph⟩
  case reset =>
    rw [exec_of_effect (.status _), statusWord_reset]
    rfl

/-- Settles O19: the state is that of SRST's effect, each register's value there its reset value. -/
theorem srstResetsEveryRegister : Obligations.SrstResetsEveryRegister := by
  unfold Obligations.SrstResetsEveryRegister
  exact ⟨decode_encode .srst, fun s => ⟨_, exec_of_effect (.srst s), byte_zero, rfl, rfl, rfl, rfl, rfl,
    resetWith_node_getElem s.maxLen, rfl, rfl⟩⟩

end Sys2Proof.Machine
end

section
/-! Family 60_exceptions: which command can give which status, and when it is `FormatError` (R121, R126). -/

namespace Sys2Proof.Machine

theorem Effect.answersStatus {i s u st n d} (he : Effect i s u st n d) : AnswersStatus i s st :=
  (he.phase_and_status (exec_of_effect he)).2

/-- The statuses that a command can answer are those of its effects. -/
theorem answersStatus_iff {i : Instr} {s : State} {st : Status} :
    AnswersStatus i s st ↔ ∃ u n d, Effect i s u st n d := by
  constructor
  · rintro ⟨t, r, hexec, hout, hst⟩
    obtain ⟨u, st', n, d, he⟩ := exists_effect i s
    obtain rfl : r = responseWord st' n d := by simpa using hout.symm.trans (he.respOut_of_exec hexec)
    obtain rfl : st' = st := Status.code_inj ((statusField_responseWord st' n d).symm.trans hst)
    exact ⟨u, n, d, he⟩
  · rintro ⟨u, n, d, he⟩
    exact he.answersStatus

/-- Settles O15: the effects with this status, taken apart for one direction and applied for the other. -/
theorem formatErrorCauses : Obligations.FormatErrorCauses := by
  unfold Obligations.FormatErrorCauses
  intro i s
  constructor
  · rw [answersStatus_iff]
    rintro ⟨u, n, d, he⟩
    cases he with
    | charNotZero _ c h hc => exact .inl ⟨rfl, .inl ⟨h, hc⟩⟩
    | charNotX _ c h hc => exact .inl ⟨rfl, .inr (.inl ⟨h, hc⟩)⟩
    | charNotHigh _ c h hv => exact .inl ⟨rfl, .inr (.inr (.inl ⟨.inl h, (hexval_eq_none_iff c).mp hv⟩))⟩
    | charNotLow _ c h hv => exact .inl ⟨rfl, .inr (.inr (.inl ⟨.inr h, (hexval_eq_none_iff c).mp hv⟩))⟩
    | charFailed _ c h => exact .inl ⟨rfl, .inr (.inr (.inr h))⟩
    | endMalformed _ h h' => exact .inr ⟨rfl, h, h'⟩
  · obtain ⟨m, b, rfl⟩ : ∃ m b, i = Mnemonic.instr m b := ⟨_, _, i.instr_mnemonic_operand.symm⟩
    rw [Mnemonic.mnemonic_instr]
    rintro (⟨rfl, hcause⟩ | ⟨rfl, h, h'⟩)
    · obtain ⟨h, hc⟩ | ⟨h, hc⟩ | ⟨h | h, hc⟩ | h := hcause
      · exact (Effect.charNotZero s b h hc).answersStatus
      · exact (Effect.charNotX s b h hc).answersStatus
      · exact (Effect.charNotHigh s b h ((hexval_eq_none_iff b).mpr hc)).answersStatus
      · exact (Effect.charNotLow s b h ((hexval_eq_none_iff b).mpr hc)).answersStatus
      · exact (Effect.charFailed s b h).answersStatus
    · exact (Effect.endMalformed s h h').answersStatus

/-- Every path through a command's rule gives a status that R126 marks for the command. -/
theorem Effect.mem_possibleStatuses {i s u st n d} (he : Effect i s u st n d) : st ∈ possibleStatuses i.mnemonic := by
  cases he <;> simp [possibleStatuses, Instr.mnemonic]

/-- An effect shows that its status is possible for its mnemonic. -/
theorem Effect.possible {i s u st n d} (he : Effect i s u st n d) :
    ∃ (j : Instr) (t : State), j.mnemonic = i.mnemonic ∧ AnswersStatus j t st :=
  ⟨i, s, rfl, he.answersStatus⟩

/-- Each `x` of R126, row by row, from the reset state with only the phases, `np` or `MAXLEN` that the entry needs replaced. -/
theorem possible_of_mem_possibleStatuses {m : Mnemonic} {st : Status} (h : st ∈ possibleStatuses m) :
    ∃ (i : Instr) (s : State), i.mnemonic = m ∧ AnswersStatus i s st := by
  cases m <;> simp only [possibleStatuses, List.mem_cons, List.not_mem_nil, or_false] at h
  case STATUS => exact h ▸ (Effect.status .reset).possible
  case SRST => exact h ▸ (Effect.srst .reset).possible
  case INIT => exact h ▸ (Effect.init .reset).possible
  case ABSORB =>
    obtain rfl | rfl | rfl := h
    · exact (Effect.absorb { State.resetWith none with ph := .absorb } 0 rfl nofun).possible
    · exact (Effect.absorbFailed { State.reset with ph := .failed } 0 rfl).possible
    · exact (Effect.absorbIdle .reset 0 rfl).possible
  case FINAL =>
    obtain rfl | rfl | rfl := h
    · exact (Effect.final { State.reset with ph := .absorb } rfl).possible
    · exact (Effect.finalFailed { State.reset with ph := .failed } rfl).possible
    · exact (Effect.finalIdle .reset rfl).possible
  case SQZ =>
    obtain rfl | rfl | rfl | rfl := h
    · exact (Effect.sqz { State.reset with ph := .squeeze } 31 rfl (by decide)).possible
    · exact (Effect.sqzFailed { State.reset with ph := .failed } 0 rfl).possible
    · exact (Effect.sqzIdle .reset 0 rfl).possible
    · exact (Effect.sqzIndex { State.reset with ph := .squeeze } 32 rfl (by decide)).possible
  case HXE_PFX => exact h ▸ (Effect.hxePfx .reset).possible
  case HXE_BYTE => exact h ▸ (Effect.hxeByte .reset 0).possible
  case HXD_START => exact h ▸ (Effect.hxdStart .reset).possible
  case HXD_CHAR =>
    obtain rfl | rfl | rfl := h
    · exact (Effect.charZero { State.reset with hdPh := .hdP0 } rfl).possible
    · exact (Effect.charFailed { State.reset with hdPh := .hdFailed } 0 rfl).possible
    · exact (Effect.charIdle .reset 0 rfl).possible
  case HXD_END =>
    obtain rfl | rfl | rfl := h
    · exact (Effect.endWellFormed { State.reset with hdPh := .hdHi } rfl).possible
    · exact (Effect.endMalformed { State.reset with hdPh := .hdP0 } nofun nofun).possible
    · exact (Effect.endIdle .reset rfl).possible
  case NH_ROOT => exact h ▸ (Effect.nhRoot .reset).possible
  case NH_CLR => exact h ▸ (Effect.nhClr .reset).possible
  case NH_LDB =>
    obtain rfl | rfl := h
    · exact (Effect.ldb .reset 0 (by decide)).possible
    · exact (Effect.ldbFull { State.reset with np := 32 } 0 rfl).possible
  case NH_CHILD =>
    obtain rfl | rfl | rfl := h
    · exact (Effect.child { State.reset with ph := .squeeze, np := 32 } rfl rfl).possible
    · exact (Effect.childFailed { State.reset with ph := .failed } rfl).possible
    · exact (Effect.childIdle .reset rfl).possible
  case NH_RD =>
    obtain rfl | rfl | rfl := h
    · exact (Effect.rd { State.reset with np := 32 } 31 rfl (by decide)).possible
    · exact (Effect.rdNotValid .reset 0 (by decide)).possible
    · exact (Effect.rdIndex { State.reset with np := 32 } 32 rfl (by decide)).possible

/-- Settles O12: no effect has a status outside the matrix, and every entry has an effect. -/
theorem statusesPossiblePerCommand : Obligations.StatusesPossiblePerCommand := by
  unfold Obligations.StatusesPossiblePerCommand
  intro m st
  constructor
  · rintro ⟨i, s, rfl, h⟩
    obtain ⟨u, n, d, he⟩ := answersStatus_iff.mp h
    exact he.mem_possibleStatuses
  · exact possible_of_mem_possibleStatuses

end Sys2Proof.Machine
end

section
/-! Family 60_exceptions, precise errors: what a failing command word changes (R128). -/

namespace Sys2Proof.Machine

/-- The errors of R128, and the state each of them leaves: its three exceptions, each with one phase changed, and every other
error, which changes nothing. The word is given as what it decodes to, `none` for an illegal one. -/
inductive Failing (s : State) : Option Instr → Status → State → Prop where
  | full (b) (h : s.ph = .absorb) (hm : s.maxLen = some s.cnt) :
      Failing s (some (.absorb b)) .capacityError { s with ph := .failed }
  | char (c) (h : s.hdPh ≠ .hdIdle) : Failing s (some (.hxdChar c)) .formatError { s with hdPh := .hdFailed }
  | verdict : Failing s (some .hxdEnd) .formatError { s with hdPh := .hdIdle }
  | unchanged (i st) (hfull : ∀ b, i = some (.absorb b) → s.ph = .absorb → s.maxLen ≠ some s.cnt)
      (hchar : ∀ c, i = some (.hxdChar c) → s.hdPh = .hdIdle) (hend : i = some .hxdEnd → st ≠ .formatError) :
      Failing s i st s

/-- An effect with an error is one of the errors of R128. -/
theorem Effect.failing {i s u st n d} (he : Effect i s u st n d) (hst : st ≠ .ok) : Failing s (some i) st u := by
  cases he with
  | absorbFull _ b h hm => exact .full b h hm
  | charFailed _ c h =>
    have hkeep := Failing.char c (s := s) (by simp [h])
    rwa [← h] at hkeep
  | charNotZero _ c h | charNotX _ c h | charNotHigh _ c h | charNotLow _ c h => exact .char c (by simp [h])
  | endMalformed => exact .verdict
  | absorbFailed _ _ h | absorbIdle _ _ h | absorbSqueeze _ _ h | charIdle _ _ h =>
    exact .unchanged _ _ (by simp [h]) (by simp [h]) nofun
  | endIdle => exact .unchanged _ _ nofun nofun nofun
  | finalFailed | finalIdle | finalSqueeze | sqzFailed | sqzIdle | sqzAbsorb | sqzIndex | ldbFull | childFailed | childIdle
  | childAbsorb | childNoParent | rdNotValid | rdIndex => exact .unchanged _ _ nofun nofun nofun
  | _ => exact absurd rfl hst

/-- A command does the same where one answer more has been given before it. -/
theorem Effect.reply {i s u st n d} (he : Effect i s u st n d) (r : ResponseWord) :
    Effect i (s.reply r) (u.reply r) st n d := by
  obtain ⟨hcmd, hresp, -⟩ := he.streams
  rw [show u.reply r = { u with cmdIn := u.cmdIn, respOut := u.respOut ++ [r] } from rfl, hcmd, hresp]
  exact he.withStreams s.cmdIn (s.respOut ++ [r])

/-- A step that answers an error is one of the errors of R128, seen from the state that differs from the one before the step in
the two streams only. -/
theorem step_failing {s t : State} {cw : CommandWord} {rest : List CommandWord} {r : ResponseWord}
    (hin : s.cmdIn = cw :: rest) (h : step s = .next t) (hout : t.respOut = s.respOut ++ [r]) (hr : statusField r ≠ 0) :
    ∃ st, statusField r = st.code ∧ Failing ({ s with cmdIn := rest }.reply r) (decode cw) st t := by
  cases hd : decode cw with
  | none =>
    obtain rfl := Host.Outcome.next.inj ((step_illegal hin hd).symm.trans h)
    obtain rfl : responseWord .illegalCommand 0 0 = r := by simpa using hout
    exact ⟨.illegalCommand, statusField_responseWord _ _ _, .unchanged _ _ nofun nofun nofun⟩
  | some i =>
    obtain ⟨u, st, n, d, he, rfl⟩ := effect_of_exec ((step_cons hin hd).symm.trans h)
    obtain ⟨-, hresp, -⟩ := he.streams
    obtain rfl : responseWord st n d = r := by simpa [hresp] using hout
    rw [statusField_responseWord] at hr ⊢
    have hst : st ≠ .ok := fun e => hr (congrArg Status.code e)
    exact ⟨st, rfl, (he.reply _).failing hst⟩

/-- Settles O16: the error is one of the four kinds of `Failing`, and each clause is read off it. -/
theorem errorsArePrecise : Obligations.ErrorsArePrecise := by
  unfold Obligations.ErrorsArePrecise
  intro s t cw rest r hin hstep hout hr
  obtain ⟨st, hst, hfail⟩ := step_failing hin hstep hout hr
  rw [hst]
  generalize decode cw = i at hfail
  cases hfail with
  | full b h hm =>
    exact ⟨rfl, fun _ => ⟨⟨b, rfl⟩, h, hm, rfl, rfl⟩, fun hne => absurd rfl hne, fun _ hcap => absurd rfl hcap,
      fun _ _ _ => rfl, nofun, nofun⟩
  | char c h =>
    exact ⟨rfl, fun hne => absurd rfl hne, fun _ => ⟨rfl, .inl ⟨⟨c, rfl⟩, h, rfl⟩⟩, fun hfmt _ => absurd rfl hfmt,
      nofun, fun _ _ => rfl, nofun⟩
  | verdict =>
    exact ⟨rfl, fun hne => absurd rfl hne, fun _ => ⟨rfl, .inr ⟨rfl, rfl⟩⟩, fun hfmt _ => absurd rfl hfmt,
      nofun, nofun, fun _ _ => rfl⟩
  | unchanged _ _ hfull hchar hend =>
    exact ⟨rfl, fun hne => absurd rfl hne, fun hne => absurd rfl hne, fun _ _ => ⟨rfl, rfl⟩,
      fun ⟨b, hb⟩ hp hm => absurd hm (hfull b hb hp), fun ⟨c, hc⟩ hne => absurd (hchar c hc) hne,
      fun hi hfmt => absurd (Status.code_inj hfmt) (hend hi)⟩

end Sys2Proof.Machine
end

section
/-! Family other, encoding and step: the decoder and the encoder are inverse to each other, and what a step and a run do
(R36, R48, R49). -/

namespace Sys2Proof

/-- The forms of R42 and R49 leave no command as data ill formed. -/
@[simp] theorem Instr.wellFormed_eq_true (i : Instr) : i.wellFormed = true := by
  cases i <;> rfl

/-- Settles O2: a word that decodes is its two fields (`decode_eq_some_iff`), and those are what the encoder joins. -/
theorem decodeAndEncodeAgree : Obligations.DecodeAndEncodeAgree := by
  unfold Obligations.DecodeAndEncodeAgree
  intro cw i
  rw [decode_eq_some_iff, encode_eq_append, and_iff_right i.wellFormed_eq_true]

end Sys2Proof

namespace Sys2Proof.Machine

/-- Settles O6: with a word by `step_cons`, without one by `step_nil`. -/
theorem stepRunsTheDecodedCommand : Obligations.StepRunsTheDecodedCommand := by
  unfold Obligations.StepRunsTheDecodedCommand
  exact ⟨fun _ _ _ _ hin hd => step_cons hin hd, fun _ hin => step_nil hin⟩

/-- Settles O8, by induction on the number of steps: there is always a next one (`exists_step`). -/
theorem everyRunIsSafe : Obligations.EveryRunIsSafe := by
  unfold Obligations.EveryRunIsSafe
  intro n
  induction n with
  | zero => exact fun s => ⟨s, run_zero s⟩
  | succ n ih =>
    intro s
    obtain ⟨u, hu⟩ := exists_step s
    obtain ⟨t, ht⟩ := ih u
    exact ⟨t, (run_succ n hu).trans ht⟩

/-- What holds at the start of a run and is kept by every step holds at its end. -/
theorem run_invariant {P : State → Prop} (hstep : ∀ s t, P s → step s = .next t → P t) {n : Nat} {s t : State} (hs : P s)
    (h : Host.Core.run Sys2Proof.core n s = .next t) : P t := by
  induction n generalizing s with
  | zero => exact Host.Outcome.next.inj h ▸ hs
  | succ n ih =>
    obtain ⟨u, hu⟩ := exists_step s
    exact ih (hstep s u hs hu) ((run_succ n hu).symm.trans h)

end Sys2Proof.Machine
end

section
/-! Family other, runs with their responses: `RunsTo` composed command by command and sequence by sequence. -/

namespace Sys2Proof.Machine

/-- The run over the commands `is` from `s` ends in `t`, and `rs` are the responses given in it. -/
def RunsTo (is : List Instr) (s t : State) (rs : List ResponseWord) : Prop :=
  runCommands is s = .next t ∧ t.respOut = s.respOut ++ rs

theorem RunsTo.nil (s : State) : RunsTo [] s s [] := ⟨runCommands_nil s, (List.append_nil _).symm⟩

/-- One command, and the commands after it. -/
theorem RunsTo.cons {i s u st n d is t rs} (he : Effect i s u st n d) (h : RunsTo is (u.reply (responseWord st n d)) t rs) :
    RunsTo (i :: is) s t (responseWord st n d :: rs) := by
  obtain ⟨hrun, hout⟩ := h
  obtain ⟨-, hresp, -⟩ := he.streams
  refine ⟨(runCommands_cons (exec_of_effect he)).trans hrun, ?_⟩
  rw [hout, reply_respOut, hresp, List.append_assoc, List.singleton_append]

theorem RunsTo.single {i s u st n d} (he : Effect i s u st n d) :
    RunsTo [i] s (u.reply (responseWord st n d)) [responseWord st n d] := .cons he (.nil _)

theorem RunsTo.append {xs ys s u t rs qs} (hx : RunsTo xs s u rs) (hy : RunsTo ys u t qs) :
    RunsTo (xs ++ ys) s t (rs ++ qs) := by
  obtain ⟨hrunx, houtx⟩ := hx
  obtain ⟨hruny, houty⟩ := hy
  refine ⟨(runCommands_append hrunx).trans hruny, ?_⟩
  rw [houty, houtx, List.append_assoc]

theorem RunsTo.append_single {is s u i v st n d rs} (h : RunsTo is s u rs) (he : Effect i u v st n d) :
    RunsTo (is ++ [i]) s (v.reply (responseWord st n d)) (rs ++ [responseWord st n d]) := h.append (.single he)

theorem exists_runsTo (is : List Instr) (s : State) : ∃ t rs, RunsTo is s t rs := by
  obtain ⟨t, rs, hrun, -, hout, -, -⟩ := exists_runCommands is s
  exact ⟨t, rs, hrun, hout⟩

/-- A run ends in one state, with one sequence of responses. -/
theorem RunsTo.unique {is s t t' rs qs} (h : RunsTo is s t rs) (h' : RunsTo is s t' qs) : t = t' ∧ rs = qs := by
  obtain ⟨hrun, hout⟩ := h
  obtain ⟨hrun', hout'⟩ := h'
  obtain rfl : t = t' := Host.Outcome.next.inj (hrun.symm.trans hrun')
  exact ⟨rfl, List.append_cancel_left (hout.symm.trans hout')⟩

/-- Every run is one of those of `RunsTo.nil` and `RunsTo.cons`. -/
theorem RunsTo.cons_inv {i is s t rs} (h : RunsTo (i :: is) s t rs) :
    ∃ u st n d qs, Effect i s u st n d ∧ RunsTo is (u.reply (responseWord st n d)) t qs
      ∧ rs = responseWord st n d :: qs := by
  obtain ⟨u, st, n, d, he⟩ := exists_effect i s
  obtain ⟨t', qs, h'⟩ := exists_runsTo is (u.reply (responseWord st n d))
  obtain ⟨rfl, rfl⟩ := h.unique (.cons he h')
  exact ⟨u, st, n, d, qs, he, h', rfl⟩

theorem RunsTo.nil_inv {s t rs} (h : RunsTo [] s t rs) : t = s ∧ rs = [] := by
  exact h.unique (.nil s)

/-- One response for each command (30_encoding.md R43), and neither the commands still to come nor `MAXLEN` change. -/
theorem RunsTo.length_eq {is s t rs} (h : RunsTo is s t rs) :
    rs.length = is.length ∧ t.cmdIn = s.cmdIn ∧ t.maxLen = s.maxLen := by
  obtain ⟨t', qs, hrun, hlen, hout, hin, hmax⟩ := exists_runCommands is s
  obtain ⟨rfl, rfl⟩ := h.unique ⟨hrun, hout⟩
  exact ⟨hlen, hin, hmax⟩

/-- What every command of a sequence keeps holds at the end of the run over it. -/
theorem RunsTo.invariant {P : State → Prop} {is s t rs}
    (hkeep : ∀ i ∈ is, ∀ s u st n d, P s → Effect i s u st n d → P (u.reply (responseWord st n d)))
    (h : RunsTo is s t rs) (hs : P s) : P t := by
  induction is generalizing s rs with
  | nil => exact h.nil_inv.1 ▸ hs
  | cons i is ih =>
    obtain ⟨u, st, n, d, qs, he, h', -⟩ := h.cons_inv
    exact ih (fun j hj => hkeep j (List.mem_cons_of_mem i hj)) h' (hkeep i List.mem_cons_self s u st n d hs he)

end Sys2Proof.Machine
end

section
/-! Family other, the access matrix: what each command writes, and that it does the same in two states that agree on what it
reads (R24). -/

namespace Sys2Proof.Machine

theorem Register.same_refl (r : Register) (s : State) : r.same s s := by
  cases r <;> rfl

theorem Register.same_trans {r : Register} {s t u : State} (h : r.same s t) (h' : r.same t u) : r.same s u := by
  cases r <;> exact Eq.trans h h'

theorem Register.same_symm {r : Register} {s t : State} (h : r.same s t) : r.same t s := by
  cases r <;> exact Eq.symm h

/-- An answer is in no register. -/
@[simp] theorem Register.same_reply_right {r : Register} {s t : State} {w : ResponseWord} :
    r.same s (t.reply w) ↔ r.same s t := by
  cases r <;> rfl

@[simp] theorem Register.same_reply_left {r : Register} {s t : State} {w : ResponseWord} :
    r.same (s.reply w) t ↔ r.same s t := by
  cases r <;> rfl

theorem node_eq_of_same {s t : State} (h : ∀ j, (Register.NODE j).same s t) : s.node = t.node :=
  Vector.ext fun j hj => h ⟨j, hj⟩

/-- R24, the `w` entries: the other registers keep their values, in an error too. -/
theorem Effect.same_of_not_writes {i s u st n d} (he : Effect i s u st n d) {r : Register}
    (hw : writesRegister i.mnemonic r = false) : r.same s u := by
  cases he with
  | absorb _ b =>
    cases r with
    | S | pos | cnt | ph => cases hw
    | _ => simp [Register.same]
  | srst => cases hw
  | init | absorbFull | final | hxdStart | charZero | charNotZero | charX | charNotX | charHigh | charNotHigh | charLow
  | charNotLow | endWellFormed | endMalformed | nhRoot | nhClr | ldb | child =>
    cases r <;> simp [writesRegister, Register.ofDigestEngine, Instr.mnemonic] at hw <;> rfl
  | _ => exact r.same_refl s

/-- Two runs of one command that leave each register either equal in both or unchanged in both. -/
def Alike (s s' u u' : State) : Prop := ∀ r : Register, r.same u u' ∨ (r.same s u ∧ r.same s' u')

theorem alike_unchanged (s s' : State) : Alike s s' s s' := fun r => .inr ⟨r.same_refl s, r.same_refl s'⟩

theorem alike_ph (s s' : State) (p : Phase) : Alike s s' { s with ph := p } { s' with ph := p } := by
  intro r
  cases r <;> simp [Register.same]

theorem alike_hdPh (s s' : State) (p : HdPhase) : Alike s s' { s with hdPh := p } { s' with hdPh := p } := by
  intro r
  cases r <;> simp [Register.same]

theorem alike_hdHi_hdPh (s s' : State) (v : Nibble) (p : HdPhase) :
    Alike s s' { s with hdHi := v, hdPh := p } { s' with hdHi := v, hdPh := p } := by
  intro r
  cases r <;> simp [Register.same]

/-- The byte that an accepted ABSORB takes is taken alike where the Digest Engine is. -/
theorem alike_absorbByte {s s' : State} (hS : s.arr = s'.arr) (hpos : s.pos = s'.pos) (hcnt : s.cnt = s'.cnt)
    (hph : s.ph = s'.ph) (b : Byte) : Alike s s' (absorbByte b s) (absorbByte b s') := by
  intro r
  cases r with
  | S | pos => exact .inl (by simp only [Register.same, absorbByte, State.posIndex, hS, hpos]; split <;> rfl)
  | cnt | ph => exact .inl (by simp [Register.same, hcnt, hph])
  | _ => exact .inr (by simp [Register.same])

/-- NH_LDB writes the byte at `np` and leaves the other bytes of `NODE`. -/
theorem alike_ldb {s s' : State} (hnp : s.np = s'.np) (b : Byte) (h : s.np.val < 32) (h' : s'.np.val < 32) :
    Alike s s' { s with node := s.node.set s.np.val b h, np := ⟨s.np.val + 1, by omega⟩ }
      { s' with node := s'.node.set s'.np.val b h', np := ⟨s'.np.val + 1, by omega⟩ } := by
  intro r
  cases r with
  | NODE j =>
    by_cases hj : s.np.val = j.val
    · exact .inl (by simp [Register.same, ← hnp, hj])
    · exact .inr (by simp [Register.same, ← hnp, hj])
  | np => exact .inl (by simp [Register.same, hnp])
  | _ => exact .inr ⟨rfl, rfl⟩

/-- R24, the `r` entries: in a state that agrees on them, and on `MAXLEN` where ABSORB asks for it, a command is answered alike
and writes the same. -/
theorem Effect.transfer {i s u st n d} (he : Effect i s u st n d) {s' : State}
    (hmax : i.mnemonic = .ABSORB → s.maxLen = s'.maxLen)
    (hread : ∀ r, readsRegister i.mnemonic r = true → r.same s s') :
    ∃ u', Effect i s' u' st n d ∧ Alike s s' u u' := by
  cases he with
  | status =>
    have hword : statusWord s = statusWord s' := by
      simp only [statusWord, nodeValid, show s.pos = s'.pos from hread .pos rfl, show s.ph = s'.ph from hread .ph rfl,
        show s.hdPh = s'.hdPh from hread .hdPh rfl, show s.np = s'.np from hread .np rfl]
    exact ⟨s', hword ▸ .status s', alike_unchanged s s'⟩
  | srst =>
    refine ⟨_, .srst s', fun r => .inl ?_⟩
    cases r <;> rfl
  | init =>
    refine ⟨_, .init s', fun r => ?_⟩
    cases r <;> simp [Register.same]
  | absorbFailed _ b h => exact ⟨s', .absorbFailed s' b ((hread .ph rfl).symm.trans h), alike_unchanged s s'⟩
  | absorbIdle _ b h => exact ⟨s', .absorbIdle s' b ((hread .ph rfl).symm.trans h), alike_unchanged s s'⟩
  | absorbSqueeze _ b h => exact ⟨s', .absorbSqueeze s' b ((hread .ph rfl).symm.trans h), alike_unchanged s s'⟩
  | absorbFull _ b h hm =>
    have hcnt : s.cnt = s'.cnt := hread .cnt rfl
    exact ⟨_, .absorbFull s' b ((hread .ph rfl).symm.trans h) (by rw [← hmax rfl, hm, hcnt]), alike_ph s s' _⟩
  | absorb _ b h hm =>
    have hcnt : s.cnt = s'.cnt := hread .cnt rfl
    exact ⟨_, .absorb s' b ((hread .ph rfl).symm.trans h) (by rwa [← hmax rfl, ← hcnt]),
      alike_absorbByte (hread .S rfl) (hread .pos rfl) hcnt (hread .ph rfl) b⟩
  | finalFailed _ h => exact ⟨s', .finalFailed s' ((hread .ph rfl).symm.trans h), alike_unchanged s s'⟩
  | finalIdle _ h => exact ⟨s', .finalIdle s' ((hread .ph rfl).symm.trans h), alike_unchanged s s'⟩
  | finalSqueeze _ h => exact ⟨s', .finalSqueeze s' ((hread .ph rfl).symm.trans h), alike_unchanged s s'⟩
  | final _ h =>
    refine ⟨_, .final s' ((hread .ph rfl).symm.trans h), fun r => ?_⟩
    cases r with
    | S =>
      have hpos : s.posIndex = s'.posIndex := congrArg (Fin.castLE (by decide)) (hread .pos rfl)
      exact .inl (congrArg keccakF (congrArg₂ padArray (hread .S rfl) hpos))
    | pos | ph => exact .inl rfl
    | _ => exact .inr ⟨rfl, rfl⟩
  | sqzFailed _ k h => exact ⟨s', .sqzFailed s' k ((hread .ph rfl).symm.trans h), alike_unchanged s s'⟩
  | sqzIdle _ k h => exact ⟨s', .sqzIdle s' k ((hread .ph rfl).symm.trans h), alike_unchanged s s'⟩
  | sqzAbsorb _ k h => exact ⟨s', .sqzAbsorb s' k ((hread .ph rfl).symm.trans h), alike_unchanged s s'⟩
  | sqzIndex _ k h hk => exact ⟨s', .sqzIndex s' k ((hread .ph rfl).symm.trans h) hk, alike_unchanged s s'⟩
  | sqz _ k h hk =>
    have hS : s.arr = s'.arr := hread .S rfl
    exact ⟨s', hS ▸ .sqz s' k ((hread .ph rfl).symm.trans h) hk, alike_unchanged s s'⟩
  | hxePfx => exact ⟨s', .hxePfx s', alike_unchanged s s'⟩
  | hxeByte _ b => exact ⟨s', .hxeByte s' b, alike_unchanged s s'⟩
  | hxdStart => exact ⟨_, .hxdStart s', alike_hdHi_hdPh s s' 0 _⟩
  | charIdle _ c h => exact ⟨s', .charIdle s' c ((hread .hdPh rfl).symm.trans h), alike_unchanged s s'⟩
  | charFailed _ c h => exact ⟨s', .charFailed s' c ((hread .hdPh rfl).symm.trans h), alike_unchanged s s'⟩
  | charZero _ h => exact ⟨_, .charZero s' ((hread .hdPh rfl).symm.trans h), alike_hdPh s s' _⟩
  | charNotZero _ c h hc => exact ⟨_, .charNotZero s' c ((hread .hdPh rfl).symm.trans h) hc, alike_hdPh s s' _⟩
  | charX _ h => exact ⟨_, .charX s' ((hread .hdPh rfl).symm.trans h), alike_hdPh s s' _⟩
  | charNotX _ c h hc => exact ⟨_, .charNotX s' c ((hread .hdPh rfl).symm.trans h) hc, alike_hdPh s s' _⟩
  | charHigh _ c v h hv => exact ⟨_, .charHigh s' c v ((hread .hdPh rfl).symm.trans h) hv, alike_hdHi_hdPh s s' v _⟩
  | charNotHigh _ c h hv => exact ⟨_, .charNotHigh s' c ((hread .hdPh rfl).symm.trans h) hv, alike_hdPh s s' _⟩
  | charLow _ c v h hv =>
    have hhi : s.hdHi = s'.hdHi := hread .hdHi rfl
    have hdata : (pack s'.hdHi v).setWidth 16 = (pack s.hdHi v).setWidth 16 := by rw [hhi]
    exact ⟨_, hdata ▸ .charLow s' c v ((hread .hdPh rfl).symm.trans h) hv, alike_hdPh s s' _⟩
  | charNotLow _ c h hv => exact ⟨_, .charNotLow s' c ((hread .hdPh rfl).symm.trans h) hv, alike_hdPh s s' _⟩
  | endIdle _ h => exact ⟨s', .endIdle s' ((hread .hdPh rfl).symm.trans h), alike_unchanged s s'⟩
  | endWellFormed _ h => exact ⟨_, .endWellFormed s' ((hread .hdPh rfl).symm.trans h), alike_hdPh s s' _⟩
  | endMalformed _ h h' =>
    have hph : s.hdPh = s'.hdPh := hread .hdPh rfl
    exact ⟨_, .endMalformed s' (hph ▸ h) (hph ▸ h'), alike_hdPh s s' _⟩
  | nhRoot =>
    refine ⟨_, .nhRoot s', fun r => ?_⟩
    cases r <;> simp [Register.same]
  | nhClr =>
    refine ⟨_, .nhClr s', fun r => ?_⟩
    cases r <;> simp [Register.same]
  | ldbFull _ b h => exact ⟨s', .ldbFull s' b ((hread .np rfl).symm.trans h), alike_unchanged s s'⟩
  | ldb _ b h =>
    have hnp : s.np = s'.np := hread .np rfl
    have h' : s'.np.val < 32 := hnp ▸ h
    exact ⟨_, .ldb s' b h', alike_ldb hnp b h h'⟩
  | childFailed _ h => exact ⟨s', .childFailed s' ((hread .ph rfl).symm.trans h), alike_unchanged s s'⟩
  | childIdle _ h => exact ⟨s', .childIdle s' ((hread .ph rfl).symm.trans h), alike_unchanged s s'⟩
  | childAbsorb _ h => exact ⟨s', .childAbsorb s' ((hread .ph rfl).symm.trans h), alike_unchanged s s'⟩
  | childNoParent _ h hn =>
    have hnp : s.np = s'.np := hread .np rfl
    exact ⟨s', .childNoParent s' ((hread .ph rfl).symm.trans h) (hnp ▸ hn), alike_unchanged s s'⟩
  | child _ h hn =>
    refine ⟨_, .child s' ((hread .ph rfl).symm.trans h) ((hread .np rfl).symm.trans hn), fun r => ?_⟩
    cases r with
    | NODE j =>
      have hS : s.arr = s'.arr := hread .S rfl
      have hnode : s.node = s'.node := node_eq_of_same fun j => hread (.NODE j) rfl
      exact .inl (by rw [hS, hnode, Register.same])
    | S | pos | cnt | ph => exact .inl rfl
    | _ => exact .inr ⟨rfl, rfl⟩
  | rdNotValid _ k h =>
    have hnp : s.np = s'.np := hread .np rfl
    exact ⟨s', .rdNotValid s' k (hnp ▸ h), alike_unchanged s s'⟩
  | rdIndex _ k h hk => exact ⟨s', .rdIndex s' k ((hread .np rfl).symm.trans h) hk, alike_unchanged s s'⟩
  | rd _ k h hk =>
    have hnode : s.node = s'.node := node_eq_of_same fun j => hread (.NODE j) rfl
    exact ⟨s', hnode ▸ .rd s' k ((hread .np rfl).symm.trans h) hk, alike_unchanged s s'⟩

/-- Settles O9: the frame is `Effect.same_of_not_writes`, and the second state's effect is the first one's, by
`Effect.transfer`. -/
theorem commandsTouchOnlyTheirRegisters : Obligations.CommandsTouchOnlyTheirRegisters := by
  unfold Obligations.CommandsTouchOnlyTheirRegisters
  refine ⟨fun i s => ?frame, fun i s s' t t' hmax hread h h' => ?dependence⟩
  case frame =>
    obtain ⟨u, st, n, d, he⟩ := exists_effect i s
    obtain ⟨hin, -, hmax⟩ := he.streams
    exact ⟨_, exec_of_effect he, hmax, hin, fun r hw => Register.same_reply_right.mpr (he.same_of_not_writes hw)⟩
  case dependence =>
    obtain ⟨u, st, n, d, he, rfl⟩ := effect_of_exec h
    obtain ⟨u', he', halike⟩ := he.transfer (fun _ => hmax) hread
    refine ⟨⟨_, he.respOut_of_exec h, he'.respOut_of_exec h'⟩, fun r => ?_⟩
    rw [he'.eq_of_exec h']
    simpa using halike r

end Sys2Proof.Machine
end

section
/-! Family other, the units side by side: two states that hold the same for one unit answer its commands alike, whatever the
other units are given between them (R36 c, R81). -/

namespace Sys2Proof.Machine

/-- The unit that a register belongs to (10_state.md section 2). -/
def Register.unit (r : Register) : CoreUnit :=
  match r with
  | .S | .pos | .cnt | .ph => .DE
  | .hdPh | .hdHi => .HC
  | .NODE _ | .np => .NH

/-- Two states hold the same registers for a unit, and the same `MAXLEN` for the Digest Engine, which alone asks for it. -/
structure AgreeOn (c : CoreUnit) (s s' : State) : Prop where
  maxLen : c = .DE → s.maxLen = s'.maxLen
  same : ∀ r : Register, r.unit = c → r.same s s'

theorem AgreeOn.refl (c : CoreUnit) (s : State) : AgreeOn c s s := ⟨fun _ => rfl, fun r _ => r.same_refl s⟩

/-- The commands that touch registers of their own unit only (R36 c). -/
def Separate (i : Instr) : Prop := i.mnemonic ∉ [Mnemonic.NH_CHILD, .SRST, .STATUS]

theorem unit_of_touched {i : Instr} (hi : Separate i) {r : Register}
    (h : (readsRegister i.mnemonic r || writesRegister i.mnemonic r) = true) : r.unit = unitOf i.mnemonic := by
  revert hi h
  rw [Separate]
  generalize i.mnemonic = m
  intro hm h
  cases m with
  | NH_CHILD | SRST | STATUS => simp at hm
  | _ => cases r <;> simp [readsRegister, writesRegister, Register.ofDigestEngine] at h <;> rfl

/-- A command leaves the registers of the other units alone. -/
theorem Effect.same_of_other_unit {i s u st n d} (he : Effect i s u st n d) (hi : Separate i) {r : Register}
    (hr : r.unit ≠ unitOf i.mnemonic) : r.same s u :=
  he.same_of_not_writes (Bool.eq_false_iff.mpr fun hw => hr (unit_of_touched hi (by simp [hw])))

/-- A command of the unit is answered alike, and leaves the two states in agreement. -/
theorem AgreeOn.own {s s' i u st n d} (h : AgreeOn (unitOf i.mnemonic) s s') (hi : Separate i) (he : Effect i s u st n d) :
    ∃ u', Effect i s' u' st n d ∧ AgreeOn (unitOf i.mnemonic) u u' := by
  obtain ⟨u', he', halike⟩ := he.transfer (fun hm => h.maxLen (hm ▸ rfl))
    fun r hr => h.same r (unit_of_touched hi (by simp [hr]))
  obtain ⟨-, -, hmax⟩ := he.streams
  obtain ⟨-, -, hmax'⟩ := he'.streams
  refine ⟨u', he', fun hc => hmax.trans ((h.maxLen hc).trans hmax'.symm), fun r hr => ?_⟩
  obtain hsame | ⟨hs, hs'⟩ := halike r
  · exact hsame
  · exact Register.same_trans (Register.same_symm hs) (Register.same_trans (h.same r hr) hs')

/-- A command of another unit leaves the two states in agreement. -/
theorem AgreeOn.other {c s s' i u st n d} (h : AgreeOn c s s') (hi : Separate i) (hc : unitOf i.mnemonic ≠ c)
    (he : Effect i s u st n d) : AgreeOn c u s' := by
  obtain ⟨-, -, hmax⟩ := he.streams
  refine ⟨fun hde => hmax.trans (h.maxLen hde), fun r hr => ?_⟩
  have hkeep : r.same s u := he.same_of_other_unit hi fun hr' => hc (hr'.symm.trans hr)
  exact Register.same_trans (Register.same_symm hkeep) (h.same r hr)

theorem AgreeOn.reply_left {c s s'} (h : AgreeOn c s s') (w : ResponseWord) : AgreeOn c (s.reply w) s' :=
  ⟨h.maxLen, fun r hr => Register.same_reply_left.mpr (h.same r hr)⟩

theorem AgreeOn.reply_right {c s s'} (h : AgreeOn c s s') (w : ResponseWord) : AgreeOn c s (s'.reply w) :=
  ⟨h.maxLen, fun r hr => Register.same_reply_right.mpr (h.same r hr)⟩

/-- A run over commands of all units beside a run over those of one unit: the responses to these are the same. -/
theorem AgreeOn.runsTo_filter {c : CoreUnit} {is : List Instr} {s s' : State} (h : AgreeOn c s s')
    (his : ∀ i ∈ is, Separate i) :
    ∃ t t' rs, RunsTo is s t rs ∧ RunsTo (is.filter fun i => unitOf i.mnemonic = c) s' t'
      (((is.zip rs).filter fun p => unitOf p.1.mnemonic = c).map Prod.snd) := by
  induction is generalizing s s' with
  | nil => exact ⟨s, s', [], .nil s, .nil s'⟩
  | cons i is ih =>
    have hi := his i List.mem_cons_self
    have his' := fun j hj => his j (List.mem_cons_of_mem i hj)
    obtain ⟨u, st, n, d, he⟩ := exists_effect i s
    by_cases hc : unitOf i.mnemonic = c
    · subst hc
      obtain ⟨u', he', hu⟩ := h.own hi he
      obtain ⟨t, t', rs, ht, ht'⟩ := ih ((hu.reply_left (responseWord st n d)).reply_right (responseWord st n d)) his'
      exact ⟨t, t', _, .cons he ht, by simpa using RunsTo.cons he' ht'⟩
    · obtain ⟨t, t', rs, ht, ht'⟩ := ih ((h.other hi hc he).reply_left (responseWord st n d)) his'
      exact ⟨t, t', _, .cons he ht, by simpa [hc] using ht'⟩

/-- Settles O11: every state agrees with itself on every unit, so `AgreeOn.runsTo_filter` gives the two runs. -/
theorem unitsDoNotInterfere : Obligations.UnitsDoNotInterfere := by
  unfold Obligations.UnitsDoNotInterfere
  intro c s is his
  obtain ⟨t, t', rs, h, hrun', hout'⟩ := (AgreeOn.refl c s).runsTo_filter his
  obtain ⟨hlen, -, -⟩ := h.length_eq
  exact ⟨t, t', rs, h.1, hlen, h.2, hrun', hout'⟩

/-- Commands of one unit are answered alike in two states that agree on it. -/
theorem AgreeOn.runsTo_alike {c : CoreUnit} {is : List Instr} {s s' : State} (h : AgreeOn c s s')
    (his : ∀ i ∈ is, Separate i ∧ unitOf i.mnemonic = c) : ∃ t t' rs, RunsTo is s t rs ∧ RunsTo is s' t' rs := by
  obtain ⟨t, t', rs, ht, ht'⟩ := h.runsTo_filter fun i hi => (his i hi).1
  have hzip : (is.zip rs).filter (fun p => unitOf p.1.mnemonic = c) = is.zip rs :=
    List.filter_eq_self.mpr fun p hp => decide_eq_true (his p.1 (List.of_mem_zip hp).1).2
  rw [List.filter_eq_self.mpr fun i hi => decide_eq_true (his i hi).2, hzip,
    List.map_snd_zip ht.length_eq.1.le] at ht'
  exact ⟨t, t', rs, ht, ht'⟩

/-- The same where it is the first command that brings the two states into agreement. -/
theorem RunsTo.alike_of_first {c i is s s' u u' st n d} (he : Effect i s u st n d) (he' : Effect i s' u' st n d)
    (h : AgreeOn c u u') (his : ∀ j ∈ is, Separate j ∧ unitOf j.mnemonic = c) :
    ∃ t t' rs, RunsTo (i :: is) s t rs ∧ RunsTo (i :: is) s' t' rs := by
  obtain ⟨t, t', rs, ht, ht'⟩ := ((h.reply_left (responseWord st n d)).reply_right (responseWord st n d)).runsTo_alike his
  exact ⟨t, t', _, .cons he ht, .cons he' ht'⟩

/-- INIT brings all states with the same `MAXLEN` into agreement on the Digest Engine (R76). -/
theorem agreeOn_init {s s' : State} (h : s.maxLen = s'.maxLen) :
    AgreeOn .DE { s with arr := .zero, pos := 0, cnt := 0, ph := .absorb }
      { s' with arr := .zero, pos := 0, cnt := 0, ph := .absorb } := by
  refine ⟨fun _ => h, fun r hr => ?_⟩
  cases r with
  | S | pos | cnt | ph => rfl
  | _ => cases hr

/-- DIGEST gives commands of the Digest Engine only. -/
theorem digestEngine_of_mem_digestSeq {m : List Byte} {i : Instr} (hi : i ∈ digestSeq m) :
    Separate i ∧ unitOf i.mnemonic = .DE := by
  simp only [digestSeq, hashSeq, List.mem_append, List.mem_map, List.mem_singleton] at hi
  obtain ((rfl | ⟨b, -, rfl⟩) | rfl) | ⟨b, -, rfl⟩ := hi <;> exact ⟨by simp [Separate, Instr.mnemonic], rfl⟩

/-- Settles O27: after INIT the two states agree on the Digest Engine, whose commands the rest of DIGEST is. -/
theorem digestResponsesIgnoreTheStartState : Obligations.DigestResponsesIgnoreTheStartState := by
  unfold Obligations.DigestResponsesIgnoreTheStartState
  intro m s s' hmax
  have hrest (i : Instr) (hi : i ∈ m.map .absorb ++ [.final] ++ indexBytes.map .sqz) : Separate i ∧ unitOf i.mnemonic = .DE :=
    digestEngine_of_mem_digestSeq (m := m) (List.mem_cons_of_mem Instr.init hi)
  obtain ⟨t, t', rs, ht, ht'⟩ := RunsTo.alike_of_first (.init s) (.init s') (agreeOn_init hmax) hrest
  exact ⟨t, t', rs, ht.1, ht.2, ht'.1, ht'.2⟩

end Sys2Proof.Machine
end

section
/-! Family other, reading commands: a sequence of them changes no register, and each is answered as it would be at once
(R35). -/

namespace Sys2Proof.Machine

/-- A run over commands that change no register: the answers are those they get in the first state. -/
theorem RunsTo.reads {is : List Instr} {s : State} {answer : Instr → ResponseWord}
    (h : ∀ i ∈ is, ∃ st n d, Effect i s s st n d ∧ answer i = responseWord st n d) :
    RunsTo is s { s with respOut := s.respOut ++ is.map answer } (is.map answer) := by
  refine ⟨?_, rfl⟩
  induction is generalizing s with
  | nil => simp
  | cons i is ih =>
    obtain ⟨st, n, d, he, ha⟩ := h i List.mem_cons_self
    have hrest : ∀ j ∈ is, ∃ st n d, Effect j (s.reply (answer i)) (s.reply (answer i)) st n d
        ∧ answer j = responseWord st n d := by
      intro j hj
      obtain ⟨st, n, d, he, ha⟩ := h j (List.mem_cons_of_mem i hj)
      exact ⟨st, n, d, he.reply _, ha⟩
    rw [runCommands_cons (exec_of_effect he), ← ha, ih hrest]
    simp [State.reply]

/-- R24: the five commands without a `w`. -/
theorem Effect.eq_of_reading {i s u st n d} (he : Effect i s u st n d)
    (hi : i.mnemonic ∈ [Mnemonic.SQZ, .NH_RD, .STATUS, .HXE_PFX, .HXE_BYTE]) : u = s := by
  cases he with
  | sqzFailed | sqzIdle | sqzAbsorb | sqzIndex | sqz | rdNotValid | rdIndex | rd | status | hxePfx | hxeByte => rfl
  | _ => simp [Instr.mnemonic] at hi

/-- Settles O10: each of the five commands has one effect in the state and it changes nothing, so `RunsTo.reads` applies. -/
theorem readsHaveNoSideEffects : Obligations.ReadsHaveNoSideEffects := by
  unfold Obligations.ReadsHaveNoSideEffects
  intro s
  choose u st n d he using fun i => exists_effect i s
  refine ⟨fun i => responseWord (st i) (n i) (d i), fun is his => (RunsTo.reads fun i hi => ?_).1⟩
  have hu : u i = s := (he i).eq_of_reading (his i hi)
  exact ⟨st i, n i, d i, hu ▸ he i, rfl⟩

end Sys2Proof.Machine
end

section
/-! Family other, the invariant of R26: it holds at reset, every step keeps it, and so every reachable state meets it. -/

namespace Sys2Proof.Machine

/-- The invariant speaks of the registers and of `MAXLEN`, not of the two streams. -/
theorem Inv.withStreams {s : State} {m : List Byte} (h : Inv s m) (c : List CommandWord) (o : List ResponseWord) :
    Inv { s with cmdIn := c, respOut := o } m := ⟨h.idle, h.absorb, h.squeeze, h.capacity, h.failed⟩

/-- Where the Digest Engine is idle the invariant says nothing of the message (R26 item 2). -/
theorem inv_of_idle {s : State} (m : List Byte) (hph : s.ph = .idle) (hS : s.arr = .zero) (hpos : s.pos = 0)
    (hcnt : s.cnt = 0) : Inv s m where
  idle _ := ⟨hS, hpos, hcnt⟩
  absorb h := by simp [hph] at h
  squeeze h := by simp [hph] at h
  capacity k _ := hcnt ▸ Nat.zero_le k
  failed h := by simp [hph] at h

/-- Settles O58: the Digest Engine is idle at reset. -/
theorem invariantHoldsAtReset : Obligations.InvariantHoldsAtReset := by
  unfold Obligations.InvariantHoldsAtReset
  exact ⟨inv_of_idle [] rfl rfl rfl rfl, fun _ => inv_of_idle [] rfl rfl rfl rfl⟩

/-- INIT establishes the invariant, from any state (R76). -/
theorem inv_init (s : State) : Inv { s with arr := .zero, pos := 0, cnt := 0, ph := .absorb } [] where
  idle := nofun
  absorb _ := ⟨rfl, rfl, absorbed_nil.symm⟩
  squeeze := nofun
  capacity k _ := Nat.zero_le k
  failed := nofun

/-- The byte that an accepted ABSORB takes extends the message in progress (R77). -/
theorem absorbByte_absorbed {s : State} {m : List Byte} (b : Byte) (hpos : s.pos.val = s.cnt % rate)
    (hlen : m.length = s.cnt) (hS : s.arr = absorbed m) :
    (absorbByte b s).pos.val = (absorbByte b s).cnt % rate ∧ (absorbByte b s).arr = absorbed (m ++ [b]) := by
  have hindex : s.posIndex.val = m.length % rate := by rw [hlen, ← hpos]; rfl
  have hmod : m.length % rate = s.pos.val := hindex.symm
  change s.pos.val = s.cnt % 136 at hpos
  by_cases hlast : s.pos.val = 135
  · rw [absorbByte_of_last b hlast, absorbed_snoc_full m b s.posIndex hindex (by rw [hmod, hlast]; rfl), ← hS]
    refine ⟨?_, rfl⟩
    change 0 = (s.cnt + 1) % 136
    omega
  · have hnext : m.length % rate + 1 ≠ rate := fun h => hlast (Nat.succ.inj (hmod ▸ h))
    rw [absorbByte_of_next b (p := ⟨s.pos.val + 1, by omega⟩) rfl, absorbed_snoc m b s.posIndex hindex hnext, ← hS]
    refine ⟨?_, rfl⟩
    change s.pos.val + 1 = (s.cnt + 1) % 136
    omega

theorem Inv.absorbByte {s : State} {m : List Byte} (h : Inv s m) (b : Byte) (hph : s.ph = .absorb)
    (hmax : s.maxLen ≠ some s.cnt) : Inv (absorbByte b s) (m ++ [b]) := by
  obtain ⟨hpos, hlen, hS⟩ := h.absorb hph
  obtain ⟨hpos', hS'⟩ := absorbByte_absorbed b hpos hlen hS
  refine ⟨by simp [hph], fun _ => ⟨hpos', by simp [hlen], hS'⟩, by simp [hph], fun k hk => ?_, by simp [hph]⟩
  rw [absorbByte_maxLen] at hk
  rw [absorbByte_cnt]
  exact Nat.lt_of_le_of_ne (h.capacity k hk) fun hcnt => hmax (hcnt ▸ hk)

/-- The byte too many: `cnt` and `pos` stay where the limit has been reached (R77, R26 item 5). -/
theorem Inv.full {s : State} {m : List Byte} (h : Inv s m) (hph : s.ph = .absorb) (hmax : s.maxLen = some s.cnt) :
    Inv { s with ph := .failed } m :=
  ⟨nofun, nofun, nofun, h.capacity, fun _ => ⟨hmax, (h.absorb hph).1⟩⟩

/-- FINAL turns the message in progress into its digest (R78). -/
theorem Inv.final {s : State} {m : List Byte} (h : Inv s m) (hph : s.ph = .absorb) :
    Inv { s with arr := keccakF (padArray s.arr s.posIndex), pos := 0, ph := .squeeze } m := by
  obtain ⟨hpos, hlen, hS⟩ := h.absorb hph
  have hindex : s.posIndex.val = m.length % rate := by rw [hlen, ← hpos]; rfl
  refine ⟨nofun, nofun, fun _ => ⟨rfl, hlen, ?_⟩, h.capacity, nofun⟩
  rw [digest_eq_final m s.posIndex hindex, ← hS]

/-- The observer's message changes with INIT and ABSORB only (R26 item 4). -/
theorem messageAfter_of_other {cw : CommandWord} {i : Instr} (hd : decode cw = some i)
    (hi : i.mnemonic ≠ .INIT ∧ i.mnemonic ≠ .ABSORB) (r : ResponseWord) (m : List Byte) : messageAfter cw r m = m := by
  cases i with
  | init | absorb => simp [Instr.mnemonic] at hi
  | _ => simp [messageAfter, hd]

/-- Every command keeps the invariant, with the message that the observer reads off its word and its response. -/
theorem Effect.keeps_inv {i s u st n d} (he : Effect i s u st n d) {cw : CommandWord} (hd : decode cw = some i) {m : List Byte}
    (h : Inv s m) : Inv u (messageAfter cw (responseWord st n d) m) := by
  cases he with
  | init => simpa [messageAfter, hd] using inv_init s
  | absorb _ b hph hmax => simpa [messageAfter, hd] using h.absorbByte b hph hmax
  | absorbFull _ b hph hmax => simpa [messageAfter, hd, Status.code] using h.full hph hmax
  | absorbFailed | absorbIdle | absorbSqueeze => simpa [messageAfter, hd, Status.code] using h
  | final _ hph => simpa [messageAfter, hd] using h.final hph
  | srst | child => exact inv_of_idle _ rfl rfl rfl rfl
  | _ =>
    rw [messageAfter_of_other hd (by simp [Instr.mnemonic])]
    exact ⟨h.idle, h.absorb, h.squeeze, h.capacity, h.failed⟩

/-- What the observer sees of a step on a word. -/
theorem messageAfterStep_of_word {s t : State} {cw : CommandWord} {rest : List CommandWord} {r : ResponseWord}
    (hin : s.cmdIn = cw :: rest) (hout : t.respOut = s.respOut ++ [r]) (m : List Byte) :
    messageAfterStep s t m = messageAfter cw r m := by
  simp [messageAfterStep, hin, hout]

theorem messageAfterStep_of_no_word {s : State} (t : State) (hin : s.cmdIn = []) (m : List Byte) :
    messageAfterStep s t m = m := by
  simp [messageAfterStep, hin]

/-- Settles O59: a step without a word or with an illegal one changes no register, and a command keeps the invariant by
`Effect.keeps_inv`. -/
theorem everyStepKeepsTheInvariant : Obligations.EveryStepKeepsTheInvariant := by
  unfold Obligations.EveryStepKeepsTheInvariant
  intro s t m h hstep
  obtain ⟨hin, rfl⟩ | ⟨cw, rest, hin, hd, rfl⟩ | ⟨cw, rest, i, u, st, n, d, hin, hd, he, rfl⟩ := step_cases hstep
  · rwa [messageAfterStep_of_no_word t hin]
  · rw [messageAfterStep_of_word hin rfl, messageAfter, hd]
    exact h.withStreams _ _
  · obtain ⟨-, hout, -⟩ := he.streams
    rw [messageAfterStep_of_word hin (congrArg (· ++ [responseWord st n d]) hout)]
    exact (he.keeps_inv hd (h.withStreams rest s.respOut)).withStreams _ _

/-- What an observer knows of a run over `words`: `taken` are those the CORE has taken, one response each, and the invariant
holds for the message read off them. -/
def ObservedInv (words : List CommandWord) (t : State) : Prop :=
  ∃ taken, words = taken ++ t.cmdIn ∧ taken.length = t.respOut.length
    ∧ Inv t ((taken.zip t.respOut).foldl (fun m p => messageAfter p.1 p.2 m) [])

theorem step_keeps_observedInv {words : List CommandWord} {s t : State} (h : ObservedInv words s) (hstep : step s = .next t) :
    ObservedInv words t := by
  obtain ⟨taken, hwords, hlen, hinv⟩ := h
  cases hin : s.cmdIn with
  | nil =>
    obtain rfl : s = t := Host.Outcome.next.inj ((step_nil hin).symm.trans hstep)
    exact ⟨taken, hwords, hlen, hinv⟩
  | cons cw rest =>
    obtain ⟨t', st, n, d, hstep', hrest, hout, -⟩ := step_payload hin
    obtain rfl : t = t' := Host.Outcome.next.inj (hstep.symm.trans hstep')
    have hkept := everyStepKeepsTheInvariant s t _ hinv hstep
    rw [messageAfterStep_of_word hin hout] at hkept
    refine ⟨taken ++ [cw], by simp [hwords, hin, hrest], by simp [hlen, hout], ?_⟩
    rw [hout, List.zip_append hlen, List.foldl_append]
    exact hkept

theorem HdPhase.code_le_five (p : HdPhase) : p.code ≤ 5 := by
  cases p <;> decide

/-- Settles O60: `ObservedInv` holds before the first word is taken and every step keeps it; the words not yet taken have no
response, so they drop out of the zip. -/
theorem reachableStatesMeetTheInvariant : Obligations.ReachableStatesMeetTheInvariant := by
  unfold Obligations.ReachableStatesMeetTheInvariant
  intro limit words n t h
  have hreset : ObservedInv words { State.resetWith limit with cmdIn := words } :=
    ⟨[], rfl, rfl, inv_of_idle [] rfl rfl rfl rfl⟩
  obtain ⟨taken, hwords, hlen, hinv⟩ := run_invariant (fun _ _ => step_keeps_observedInv) hreset h
  have hzip : words.zip t.respOut = taken.zip t.respOut := by
    rw [hwords, ← List.append_nil t.respOut, List.zip_append (by simpa using hlen)]
    simp
  rw [hzip]
  exact ⟨hinv, Nat.le_of_lt_succ t.pos.isLt, t.hdPh.code_le_five, Nat.le_of_lt_succ t.hdHi.isLt,
    Nat.le_of_lt_succ t.np.isLt⟩

end Sys2Proof.Machine
end

section
/-! Family other, no limit: a run with `MAXLEN = none` answers no `CapacityError`, and no run changes `MAXLEN` (R8, R122). -/

namespace Sys2Proof.Machine

/-- Only the byte that meets the limit brings the Digest Engine into FAILED, and only there is `CapacityError` answered. -/
theorem Effect.no_capacityError {i s u st n d} (he : Effect i s u st n d) (hmax : s.maxLen = none) (hph : s.ph ≠ .failed) :
    u.ph ≠ .failed ∧ st ≠ .capacityError := by
  cases he with
  | absorbFailed _ _ h | finalFailed _ h | sqzFailed _ _ h | childFailed _ h => exact absurd h hph
  | absorbFull _ _ _ h => simp [hmax] at h
  | absorb => exact ⟨by rwa [absorbByte_ph], nofun⟩
  | srst | init | final | child => exact ⟨nofun, nofun⟩
  | _ => exact ⟨hph, nofun⟩

/-- `t` is reached from `s` with `MAXLEN` unchanged, and without a `CapacityError` where there is no limit. -/
def Unlimited (s t : State) : Prop :=
  t.maxLen = s.maxLen
    ∧ (s.maxLen = none → s.ph ≠ .failed →
        t.ph ≠ .failed ∧ ∃ rs, t.respOut = s.respOut ++ rs ∧ ∀ r ∈ rs, statusField r ≠ 2)

/-- One response more, to an illegal word or to a command. -/
theorem Unlimited.reply {s t u : State} {st : Status} {n : BitVec 4} {d : BitVec 16} (h : Unlimited s t)
    (hmax : u.maxLen = t.maxLen) (hout : u.respOut = t.respOut)
    (hstep : t.maxLen = none → t.ph ≠ .failed → u.ph ≠ .failed ∧ st ≠ .capacityError) :
    Unlimited s (u.reply (responseWord st n d)) := by
  obtain ⟨hkeep, hrun⟩ := h
  refine ⟨hmax.trans hkeep, fun hnone hph => ?_⟩
  obtain ⟨hph', rs, hrs, hst⟩ := hrun hnone hph
  obtain ⟨hph'', hcap⟩ := hstep (hkeep.trans hnone) hph'
  refine ⟨hph'', rs ++ [responseWord st n d], by simp [hout, hrs], fun r hr => ?_⟩
  obtain hr | rfl : r ∈ rs ∨ r = responseWord st n d := by simpa using hr
  · exact hst r hr
  · rw [statusField_responseWord]
    exact fun hcode => hcap (Status.code_inj hcode)

theorem step_keeps_unlimited {s t u : State} (h : Unlimited s t) (hstep : step t = .next u) : Unlimited s u := by
  obtain ⟨-, rfl⟩ | ⟨cw, rest, -, -, rfl⟩ | ⟨cw, rest, i, v, st, n, d, -, -, he, rfl⟩ := step_cases hstep
  · exact h
  · exact h.reply (u := { t with cmdIn := rest }) rfl rfl fun _ hph => ⟨hph, nofun⟩
  · obtain ⟨-, hout, hmax⟩ := he.streams
    exact h.reply hmax hout he.no_capacityError

/-- Settles O17: `Unlimited` holds at the start of a run and every step keeps it. -/
theorem noLimitNoCapacityError : Obligations.NoLimitNoCapacityError := by
  unfold Obligations.NoLimitNoCapacityError
  intro s t n h
  exact run_invariant (P := Unlimited s) (fun _ _ => step_keeps_unlimited)
    ⟨rfl, fun _ hph => ⟨hph, [], (List.append_nil _).symm, nofun⟩⟩ h

end Sys2Proof.Machine
end

section
/-! Family other, whole messages: INIT, the bytes and FINAL leave the digest, and SQZ reads it (R80). -/

namespace Sys2Proof.Machine

/-- The response `OK` with no payload. -/
theorem responseWord_ok_zero : responseWord .ok 0 0 = 0x000000#24 := rfl

theorem Inv.reply {s : State} {m : List Byte} (h : Inv s m) (w : ResponseWord) : Inv (s.reply w) m :=
  h.withStreams s.cmdIn (s.respOut ++ [w])

/-- Commands of the Digest Engine leave the node register and `np` alone. -/
theorem RunsTo.keeps_node {is s t rs} (h : RunsTo is s t rs) (his : ∀ i ∈ is, Separate i ∧ unitOf i.mnemonic = .DE) :
    t.node = s.node ∧ t.np = s.np := by
  refine h.invariant (P := fun u => u.node = s.node ∧ u.np = s.np) (fun i hi v u st n d hv he => ?_) ⟨rfl, rfl⟩
  obtain ⟨hsep, hunit⟩ := his i hi
  have hkeep (r : Register) (hr : r.unit = .NH) : r.same v u :=
    he.same_of_other_unit hsep (by rw [hr, hunit]; decide)
  have hnode : v.node = u.node := node_eq_of_same fun j => hkeep (.NODE j) rfl
  have hnp : v.np = u.np := hkeep .np rfl
  exact ⟨hnode.symm.trans hv.1, hnp.symm.trans hv.2⟩

/-- A message in progress extended by further bytes, as far as the limit allows, each answered `OK` (R77). -/
theorem runsTo_absorb {s : State} {m : List Byte} (h : Inv s m) (hph : s.ph = .absorb) (l : List Byte)
    (hfit : Fits s (m.length + l.length)) :
    ∃ t, RunsTo (l.map .absorb) s t (List.replicate l.length 0x000000#24) ∧ t.ph = .absorb ∧ Inv t (m ++ l) := by
  induction l generalizing s m with
  | nil => exact ⟨s, .nil s, hph, by simpa using h⟩
  | cons b l ih =>
    obtain ⟨-, hlen, -⟩ := h.absorb hph
    have hmax : s.maxLen ≠ some s.cnt := by
      intro hmax
      have hle := hfit s.cnt hmax
      simp only [List.length_cons] at hle
      omega
    obtain ⟨t, ht, hph', hinv'⟩ := ih ((h.absorbByte b hph hmax).reply (responseWord .ok 0 0)) (by simpa using hph)
      (by simpa [Fits, Nat.add_assoc, Nat.add_comm 1] using hfit)
    exact ⟨t, .cons (.absorb s b hph hmax) ht, hph', by simpa using hinv'⟩

/-- INIT and the bytes of a message within `MAXLEN`, from any state. -/
theorem runsTo_message {s : State} (m : List Byte) (hfit : Fits s m.length) :
    ∃ t, RunsTo ([.init] ++ m.map .absorb) s t (List.replicate (m.length + 1) 0x000000#24) ∧ t.ph = .absorb ∧ Inv t m := by
  obtain ⟨t, ht, hph, hinv⟩ := runsTo_absorb ((inv_init s).reply 0x000000#24) rfl m (by simpa [Fits] using hfit)
  exact ⟨t, .cons (.init s) ht, hph, hinv⟩

/-- R80: the sequence computes `digest`, from any state; the Name Hasher keeps its registers. -/
theorem runsTo_hashSeq {s : State} (m : List Byte) (hfit : Fits s m.length) :
    ∃ t, RunsTo (hashSeq m) s t (List.replicate (m.length + 2) 0x000000#24) ∧ t.ph = .squeeze ∧ t.arr.window = digest m
      ∧ t.node = s.node ∧ t.np = s.np := by
  obtain ⟨t, ht, hph, hinv⟩ := runsTo_message m hfit
  have hhash := ht.append_single (.final t hph)
  rw [responseWord_ok_zero, ← List.replicate_succ'] at hhash
  exact ⟨_, hhash, rfl, ((hinv.final hph).squeeze rfl).2.2,
    hhash.keeps_node fun i hi => digestEngine_of_mem_digestSeq (List.mem_append_left _ hi)⟩

/-- Settles O26: the run is `runsTo_hashSeq`, and SQZ reads the digest window (O24). -/
theorem hashSequenceComputesTheDigest : Obligations.HashSequenceComputesTheDigest := by
  unfold Obligations.HashSequenceComputesTheDigest
  intro m s hfit
  obtain ⟨t, ⟨hrun, hout⟩, hph, hdigest, -, -⟩ := runsTo_hashSeq m hfit
  refine ⟨t, hrun, hout, hph, hdigest, fun i u hu hS => ?_⟩
  have hi : (BitVec.ofNat 8 i.val).toNat = i.val := by
    rw [BitVec.toNat_ofNat]
    omega
  obtain ⟨-, -, -, -, hread⟩ := sqzReadsADigestByte (BitVec.ofNat 8 i.val) u
  rw [hread hu (by omega) (i.castLE (by decide)) hi.symm, hS, ← hdigest, window_get]

end Sys2Proof.Machine
end

section
/-! Family other, messages over the limit: the byte too many fails the message, and the failure stays until the next INIT or
SRST (R83). -/

namespace Sys2Proof.Machine

/-- What the host takes from responses of which the first that is not `OK` is `r`. -/
theorem hostResult_of_first_error {rs qs : List ResponseWord} {r : ResponseWord} (hok : ∀ q ∈ rs, statusField q = 0)
    (hr : statusField r ≠ 0) : hostResult (rs ++ r :: qs) = .error (statusField r) := by
  have hnone : rs.find? (fun q => statusField q != 0) = none :=
    List.find?_eq_none.mpr fun q hq => by simp [hok q hq]
  rw [hostResult, List.find?_append, hnone, Option.none_or, List.find?_cons_of_pos (by simpa using hr)]

/-- FAILED is left by INIT and SRST only, and the commands of the Digest Engine's table answer it with `CapacityError` (R75). -/
theorem Effect.failed_sticky {i s u st n d} (he : Effect i s u st n d) (hph : s.ph = .failed)
    (hi : i.mnemonic ≠ .INIT ∧ i.mnemonic ≠ .SRST) :
    u.ph = .failed
      ∧ (i.mnemonic ∈ [Mnemonic.ABSORB, .FINAL, .SQZ, .NH_CHILD] → responseWord st n d = 0x200000#24) := by
  cases he with
  | absorbFailed | finalFailed | sqzFailed | childFailed => exact ⟨hph, fun _ => rfl⟩
  | init | srst => simp [Instr.mnemonic] at hi
  | absorbIdle _ _ h | absorbSqueeze _ _ h | absorbFull _ _ h | absorb _ _ h | finalIdle _ h | finalSqueeze _ h | final _ h
  | sqzIdle _ _ h | sqzAbsorb _ _ h | sqzIndex _ _ h | sqz _ _ h | childIdle _ h | childAbsorb _ h | childNoParent _ h
  | child _ h => simp [hph] at h
  | _ => exact ⟨hph, by simp [Instr.mnemonic]⟩

theorem exists_runsTo_failed {is : List Instr} {s : State} (hph : s.ph = .failed)
    (his : ∀ i ∈ is, i.mnemonic ≠ .INIT ∧ i.mnemonic ≠ .SRST) :
    ∃ t rs, RunsTo is s t rs
      ∧ ∀ p ∈ is.zip rs, p.1.mnemonic ∈ [Mnemonic.ABSORB, .FINAL, .SQZ, .NH_CHILD] → p.2 = 0x200000#24 := by
  induction is generalizing s with
  | nil => exact ⟨s, [], .nil s, nofun⟩
  | cons i is ih =>
    obtain ⟨u, st, n, d, he⟩ := exists_effect i s
    obtain ⟨hph', hcap⟩ := he.failed_sticky hph (his i List.mem_cons_self)
    obtain ⟨t, rs, ht, hrs⟩ := ih (s := u.reply (responseWord st n d)) hph' fun j hj => his j (List.mem_cons_of_mem i hj)
    exact ⟨t, _, .cons he ht, List.forall_mem_cons.mpr ⟨hcap, hrs⟩⟩

/-- In FAILED every ABSORB is answered `CapacityError` and nothing changes. -/
theorem runsTo_absorb_failed {s : State} (hph : s.ph = .failed) (l : List Byte) :
    ∃ t, RunsTo (l.map .absorb) s t (List.replicate l.length 0x200000#24) ∧ t.ph = .failed := by
  have h := RunsTo.reads (is := l.map .absorb) (s := s) (answer := fun _ => 0x200000#24) (by
    simp only [List.mem_map]
    rintro i ⟨b, -, rfl⟩
    exact ⟨_, _, _, .absorbFailed s b hph, rfl⟩)
  rw [List.map_const', List.length_map] at h
  exact ⟨_, h, hph⟩

/-- A message of more than `k` bytes: `k` bytes, the first one too many, and the others. -/
theorem exists_first_over {k : Nat} {m : List Byte} (hk : k < m.length) :
    ∃ pre b post, m = pre ++ b :: post ∧ pre.length = k := by
  refine ⟨m.take k, m[k], m.drop (k + 1), ?_, List.length_take_of_le hk.le⟩
  rw [← List.drop_eq_getElem_cons hk, List.take_append_drop]

/-- INIT and a message over the limit: the bytes within it are taken, and with the first one too many it fails. -/
theorem runsTo_message_over {s : State} {pre : List Byte} (hmax : s.maxLen = some pre.length) (b : Byte) (post : List Byte) :
    ∃ t, RunsTo ([.init] ++ (pre ++ b :: post).map .absorb) s t
        (List.replicate (pre.length + 1) 0x000000#24 ++ List.replicate (post.length + 1) 0x200000#24)
      ∧ t.ph = .failed := by
  obtain ⟨t, ht, hph, hinv⟩ := runsTo_message (s := s) pre fun l hl => by
    rw [hmax, Option.some.injEq] at hl
    exact hl.le
  have hfull : t.maxLen = some t.cnt := by
    rw [ht.length_eq.2.2, hmax, (hinv.absorb hph).2.1]
  obtain ⟨u, hu, hfailed⟩ := runsTo_absorb_failed (s := { t with ph := .failed }.reply 0x200000#24) rfl post
  have hover := ht.append (.cons (.absorbFull t b hph hfull) hu)
  rw [List.append_assoc, ← List.map_cons, ← List.map_append] at hover
  exact ⟨u, hover, hfailed⟩

/-- Settles O28: the message is that of `runsTo_message_over`, what follows runs in FAILED, and the first error of DIGEST is the
`CapacityError` of the first byte too many. -/
theorem messagesOverTheLimitFail : Obligations.MessagesOverTheLimitFail := by
  unfold Obligations.MessagesOverTheLimitFail
  intro s k hmax
  refine ⟨fun m later hk hlater => ?later, fun m hk => ?digest⟩
  case later =>
    obtain ⟨pre, b, post, rfl, rfl⟩ := exists_first_over hk
    obtain ⟨u, hu, hfailed⟩ := runsTo_message_over hmax b post
    obtain ⟨t, rs, ht, hrs⟩ := exists_runsTo_failed hfailed hlater
    obtain ⟨hrun, hout⟩ := hu.append ht
    have hover : (pre ++ b :: post).length - pre.length = post.length + 1 := by simp
    exact ⟨t, rs, hrun, by rw [hover, hout, ← List.append_assoc, ← List.append_assoc], ht.length_eq.1, hrs⟩
  case digest =>
    obtain ⟨pre, b, post, rfl, rfl⟩ := exists_first_over hk
    obtain ⟨u, hu, -⟩ := runsTo_message_over hmax b post
    obtain ⟨t, rs, ht⟩ := exists_runsTo ([.final] ++ indexBytes.map .sqz) u
    obtain ⟨hrun, hout⟩ := hu.append ht
    refine ⟨t, _, by rwa [digestSeq, hashSeq, List.append_assoc], hout, ?_⟩
    rw [List.replicate_succ (n := post.length), List.append_assoc, List.cons_append]
    refine hostResult_of_first_error (r := 0x200000#24) (fun q hq => ?_) (by decide)
    rw [List.eq_of_mem_replicate hq]
    rfl

end Sys2Proof.Machine
end

section
/-! Family other, the payloads that a host reads off responses (30_encoding.md R43 and section 8). -/

namespace Sys2Proof.Machine

@[simp] theorem payload_responseWord_zero (st : Status) (d : BitVec 16) : payload (responseWord st 0 d) = [] := by
  simp [payload]

@[simp] theorem statusField_ok_zero : statusField 0x000000#24 = 0 := statusField_responseWord .ok 0 0

@[simp] theorem countField_ok_zero : countField 0x000000#24 = 0 := countField_responseWord .ok 0 0

@[simp] theorem payload_ok_zero : payload 0x000000#24 = [] := payload_responseWord_zero .ok 0

/-- The response that carries a byte. -/
def byteAnswer (b : Byte) : ResponseWord := responseWord .ok 1 (b.setWidth 16)

@[simp] theorem statusField_byteAnswer (b : Byte) : statusField (byteAnswer b) = 0 := statusField_responseWord _ _ _

@[simp] theorem countField_byteAnswer (b : Byte) : countField (byteAnswer b) = 1#4 := countField_responseWord _ _ _

@[simp] theorem payload_byteAnswer (b : Byte) : payload (byteAnswer b) = [b] := by
  simp [payload, byteAnswer]

theorem shiftRight_eight_setWidth (d : BitVec 16) : (d >>> 8).setWidth 8 = opcodeField d := by
  apply BitVec.eq_of_toNat_eq
  rw [BitVec.toNat_setWidth, toNat_shiftRight_eight, Nat.mod_eq_of_lt (opcodeField d).isLt]

/-- The response that carries two characters. -/
def charsAnswer (c d : Byte) : ResponseWord := responseWord .ok 2 (twoChars c d)

@[simp] theorem statusField_charsAnswer (c d : Byte) : statusField (charsAnswer c d) = 0 := statusField_responseWord _ _ _

@[simp] theorem payload_charsAnswer (c d : Byte) : payload (charsAnswer c d) = [c, d] := by
  have hfst : ((c ++ d) >>> 8).setWidth 8 = c := by
    rw [shiftRight_eight_setWidth, opcodeField_append]
  have hsnd : (c ++ d).setWidth 8 = d := by
    rw [← operandField_eq_setWidth, operandField_append]
  simp [payload, charsAnswer, twoChars_eq_append, hfst, hsnd]

/-- What the host takes from responses that are all `OK`. -/
theorem hostResult_of_ok {rs : List ResponseWord} (h : ∀ r ∈ rs, statusField r = 0) :
    hostResult rs = .ok (rs.flatMap payload) := by
  have hnone : rs.find? (fun r => statusField r != 0) = none := List.find?_eq_none.mpr fun r hr => by simp [h r hr]
  rw [hostResult, hnone]

end Sys2Proof.Machine
end

section
/-! Family other, the encoder's sequence computes `toHex` (R98). -/

namespace Sys2Proof.Machine

/-- The responses to `TOHEX b`. -/
def toHexAnswers (b : List Byte) : List ResponseWord :=
  charsAnswer charZero charX :: b.map fun x => charsAnswer (hexchar (hiNibble x)) (hexchar (loNibble x))

theorem statusField_toHexAnswers {b : List Byte} {r : ResponseWord} (hr : r ∈ toHexAnswers b) : statusField r = 0 := by
  obtain rfl | ⟨x, -, rfl⟩ : r = charsAnswer charZero charX ∨ ∃ x ∈ b, charsAnswer _ _ = r := by
    simpa [toHexAnswers] using hr
  · exact statusField_charsAnswer _ _
  · exact statusField_charsAnswer _ _

theorem flatMap_payload_toHexAnswers (b : List Byte) : (toHexAnswers b).flatMap payload = toHex b := by
  simp [toHexAnswers, toHex_eq_cons, List.flatMap_map]

/-- HXE_PFX and HXE_BYTE as commands that change no register. -/
theorem runsTo_toHexSeq (b : List Byte) (s : State) :
    RunsTo (toHexSeq b) s { s with respOut := s.respOut ++ toHexAnswers b } (toHexAnswers b) := by
  have hbytes (u : State) : RunsTo (b.map .hxeByte) u { u with respOut := u.respOut ++ (toHexAnswers b).tail }
      (toHexAnswers b).tail := by
    have h := RunsTo.reads (is := b.map .hxeByte) (s := u)
      (answer := fun i => charsAnswer (hexchar (hiNibble i.operand)) (hexchar (loNibble i.operand))) (by
        simp only [List.mem_map]
        rintro i ⟨x, -, rfl⟩
        exact ⟨_, _, _, .hxeByte u x, rfl⟩)
    rwa [List.map_map] at h
  simpa [State.reply, toHexSeq, toHexAnswers, charsAnswer] using RunsTo.cons (.hxePfx s) (hbytes _)

/-- Settles O42: the responses are `toHexAnswers b`. -/
theorem toHexSequenceComputesToHex : Obligations.ToHexSequenceComputesToHex := by
  unfold Obligations.ToHexSequenceComputesToHex
  intro b s
  exact ⟨toHexAnswers b, (runsTo_toHexSeq b s).1, by simp [toHexAnswers], fun _ => statusField_toHexAnswers,
    flatMap_payload_toHexAnswers b⟩

end Sys2Proof.Machine
end

section
/-! Family other, the round-trip law of `toHex` and `fromHex` (R89). -/

namespace Sys2Proof.Machine

theorem fromHex_toHex (b : List Byte) : fromHex (toHex b) = .ok b :=
  (fromHex_eq_ok_iff (toHex b) b).mpr ⟨b.flatMap hexDigits, _, rfl, hexvals_hexDigits b, packPairs_nibbles b⟩

/-- The digits of the values read are the characters read, in lower case. -/
theorem map_hexchar_of_hexvals {ds : List Byte} {v : List Nibble} (h : hexvals ds = some v) :
    v.map hexchar = ds.map lowerHex := by
  induction ds generalizing v with
  | nil =>
    cases h
    rfl
  | cons c ds ih =>
    rw [hexvals_cons, Option.bind_eq_some_iff] at h
    obtain ⟨x, hx, h⟩ := h
    obtain ⟨w, hw, rfl⟩ := Option.map_eq_some_iff.mp h
    rw [List.map_cons, List.map_cons, hexchar_of_hexval hx, ih hw]

theorem toHex_of_fromHex {str b : List Byte} (h : fromHex str = .ok b) : toHex b = str.map lowerHex := by
  obtain ⟨ds, v, rfl, hv, hb⟩ := (fromHex_eq_ok_iff str b).mp h
  have hdigits : b.flatMap (fun x => [hexchar (hiNibble x), hexchar (loNibble x)]) = v.map hexchar := by
    rw [eq_nibbles_of_packPairs hb, List.map_flatMap]
    rfl
  have hopen : lowerHex charZero = charZero ∧ lowerHex charX = charX := by decide
  rw [toHex_eq_cons, hdigits, map_hexchar_of_hexvals hv, List.map_cons, List.map_cons, hopen.1, hopen.2]

/-- Settles O44: `fromHex_toHex`, and `toHex_of_fromHex` digit by digit. -/
theorem hexRoundTripLaw : Obligations.HexRoundTripLaw := by
  unfold Obligations.HexRoundTripLaw
  exact ⟨fromHex_toHex, fun str b h => ⟨toHex_of_fromHex h, fromHex_toHex b⟩⟩

end Sys2Proof.Machine
end

section
/-! Family other, the decoder's sequence computes `fromHex`: an invariant that ties the phase of the decoder to the characters
given so far (R99). -/

namespace Sys2Proof.Machine

/-- A string with a character beyond the opening `0x` that is no digit is refused, whatever follows (R88). -/
theorem fromHex_append_ne_ok_of_not_digit {str b : List Byte} (h : fromHex str = .ok b) {c : Byte} (hc : hexval c = none)
    (pre post : List Byte) (bs : List Byte) : fromHex (str ++ pre ++ c :: post) ≠ .ok bs := by
  obtain ⟨ds, v, rfl, -, -⟩ := (fromHex_eq_ok_iff str b).mp h
  have herror : fromHex (charZero :: charX :: (ds ++ pre ++ c :: post)) = .error .formatError :=
    (fromHex_zero_x_eq_error_iff _).mpr (.inl ⟨c, by simp, (hexval_eq_none_iff c).mp hc⟩)
  intro h'
  cases herror.symm.trans h'

/-- A string of one digit more than a well-formed one is refused. -/
theorem fromHex_append_digit_ne_ok {str b : List Byte} (h : fromHex str = .ok b) (c : Byte) (bs : List Byte) :
    fromHex (str ++ [c]) ≠ .ok bs := by
  intro h'
  have hlen := length_of_fromHex h
  have hlen' := length_of_fromHex h'
  obtain ⟨ds, v, rfl, -, -⟩ := (fromHex_eq_ok_iff str b).mp h
  simp only [List.length_append, List.length_cons, List.length_nil] at hlen hlen'
  omega

theorem hexvals_append (xs ys : List Byte) :
    hexvals (xs ++ ys) = (hexvals xs).bind fun v => (hexvals ys).map (v ++ ·) := by
  induction xs with
  | nil =>
    rw [List.nil_append, show hexvals [] = some [] from rfl, Option.bind_some]
    exact (congrFun Option.map_id _).symm
  | cons c xs ih =>
    rw [List.cons_append, hexvals_cons, hexvals_cons, ih]
    cases hexval c <;> cases hexvals xs <;> cases hexvals ys <;> rfl

/-- Two digits more are one byte more. -/
theorem fromHex_append_two_digits {str b : List Byte} (h : fromHex str = .ok b) {c d : Byte} {hi lo : Nibble}
    (hc : hexval c = some hi) (hd : hexval d = some lo) : fromHex (str ++ [c, d]) = .ok (b ++ [pack hi lo]) := by
  obtain ⟨ds, v, rfl, hv, hb⟩ := (fromHex_eq_ok_iff str b).mp h
  refine (fromHex_eq_ok_iff _ _).mpr ⟨ds ++ [c, d], v ++ [hi, lo], rfl, ?_, ?_⟩
  · rw [hexvals_append, hv, hexvals_cons, hexvals_cons, hc, hd]
    rfl
  · rw [← packPairs_nibbles (b ++ [pack hi lo]), eq_nibbles_of_packPairs hb]
    simp

/-- The responses to the digits of `bs`: the byte with the second digit of each. -/
def digitAnswers (bs : List Byte) : List ResponseWord := bs.flatMap fun b => [0x000000#24, byteAnswer b]

/-- The decoder has been given HXD_START and the characters `str`, the latter answered `rs`: what its phase says of them. -/
inductive Decoding (s : State) : List Byte → List ResponseWord → Prop where
  | opened (h : s.hdPh = .hdP0) : Decoding s [] []
  | zero (h : s.hdPh = .hdP1) : Decoding s [charZero] [0x000000#24]
  | high {str bs} (h : s.hdPh = .hdHi) (hs : fromHex str = .ok bs) :
      Decoding s str ([0x000000#24, 0x000000#24] ++ digitAnswers bs)
  | low {str bs c} (h : s.hdPh = .hdLo) (hs : fromHex str = .ok bs) (hc : hexval c = some s.hdHi) :
      Decoding s (str ++ [c]) ([0x000000#24, 0x000000#24] ++ digitAnswers bs ++ [0x000000#24])
  | failed {str rs} (h : s.hdPh = .hdFailed) (hs : ∀ post bs, fromHex (str ++ post) ≠ .ok bs)
      (hrs : ∀ r ∈ rs, statusField r = 0 ∨ statusField r = 1) : Decoding s str rs

theorem statusField_digitAnswers {bs : List Byte} {r : ResponseWord} (hr : r ∈ digitAnswers bs) : statusField r = 0 := by
  obtain ⟨b, -, rfl | rfl⟩ : ∃ b ∈ bs, r = 0x000000#24 ∨ r = byteAnswer b := by simpa [digitAnswers] using hr
  · exact statusField_ok_zero
  · exact statusField_byteAnswer b

/-- No response so far has been another error than `FormatError`. -/
theorem Decoding.ok_or_formatError {s : State} {str : List Byte} {rs : List ResponseWord} (h : Decoding s str rs)
    {r : ResponseWord} (hr : r ∈ rs) : statusField r = 0 ∨ statusField r = 1 := by
  cases h with
  | opened => cases hr
  | zero =>
    obtain rfl := List.mem_singleton.mp hr
    exact .inl statusField_ok_zero
  | high =>
    obtain rfl | hr : r = 0x000000#24 ∨ r ∈ digitAnswers _ := by simpa using hr
    · exact .inl statusField_ok_zero
    · exact .inl (statusField_digitAnswers hr)
  | low =>
    obtain rfl | hr : r = 0x000000#24 ∨ r ∈ digitAnswers _ := by simpa [or_comm] using hr
    · exact .inl statusField_ok_zero
    · exact .inl (statusField_digitAnswers hr)
  | failed _ _ hrs => exact hrs r hr

/-- A string that fails with the character `c`: the responses so far, and `FormatError`. -/
theorem Decoding.fail {s t : State} {str : List Byte} {rs : List ResponseWord} {c : Byte} (h : Decoding s str rs)
    (ht : t.hdPh = .hdFailed) (hs : ∀ post bs, fromHex (str ++ [c] ++ post) ≠ .ok bs) :
    Decoding t (str ++ [c]) (rs ++ [responseWord .formatError 0 0]) := by
  refine .failed ht hs fun r hr => ?_
  obtain hr | rfl := List.mem_append.mp hr |>.imp_right List.mem_singleton.mp
  · exact h.ok_or_formatError hr
  · exact .inr (statusField_responseWord _ _ _)

/-- A string that does not begin as `0x` is refused, whatever follows (R88). -/
theorem fromHex_ne_ok_of_second {c d : Byte} (h : ¬ (c = charZero ∧ d = charX)) (ds bs : List Byte) :
    fromHex (c :: d :: ds) ≠ .ok bs := by
  simp [fromHex, h]

/-- HXD_CHAR takes the invariant from the string so far to the string with its character (R94). Each phase admits the one or two
effects written out; the others ask for another phase. -/
theorem Decoding.char {s u : State} {c : Byte} {st n d} {str : List Byte} {rs : List ResponseWord} (h : Decoding s str rs)
    (he : Effect (.hxdChar c) s u st n d) :
    Decoding (u.reply (responseWord st n d)) (str ++ [c]) (rs ++ [responseWord st n d]) := by
  have h₀ := h
  cases h with
  | opened hp =>
    cases he with
    | charZero => exact .zero rfl
    | charNotZero _ _ _ hc =>
      refine h₀.fail rfl fun post bs => ?_
      cases post with
      | nil => exact nofun
      | cons x post => exact fromHex_ne_ok_of_second (fun hcx => hc hcx.1) post bs
    | _ => simp_all
  | zero hp =>
    cases he with
    | charX => exact .high (bs := []) rfl rfl
    | charNotX _ _ _ hc => exact h₀.fail rfl (fromHex_ne_ok_of_second fun hcx => hc hcx.2)
    | _ => simp_all
  | high hp hs =>
    cases he with
    | charHigh _ _ v _ hv => exact .low rfl hs hv
    | charNotHigh _ _ _ hv =>
      refine h₀.fail rfl fun post bs => ?_
      simpa using fromHex_append_ne_ok_of_not_digit hs hv [] post bs
    | _ => simp_all
  | low hp hs hc =>
    cases he with
    | charLow _ _ v _ hv =>
      have hbyte := fromHex_append_two_digits hs hc hv
      simpa [digitAnswers, byteAnswer] using Decoding.high (s := { s with hdPh := .hdHi }.reply _) rfl hbyte
    | charNotLow _ _ _ hv =>
      refine h₀.fail rfl fun post bs => ?_
      simpa using fromHex_append_ne_ok_of_not_digit hs hv [_] post bs
    | _ => simp_all
  | failed hp hs hrs =>
    cases he with
    | charFailed => exact h₀.fail hp fun post bs => by simpa using hs (c :: post) bs
    | _ => simp_all

/-- HXD_START and the characters of a string, from any state. -/
theorem exists_runsTo_decoding (str : List Byte) (s : State) :
    ∃ t rs, RunsTo ([.hxdStart] ++ str.map .hxdChar) s t (0x000000#24 :: rs) ∧ Decoding t str rs := by
  induction str using List.reverseRecOn with
  | nil => exact ⟨_, [], .single (.hxdStart s), .opened rfl⟩
  | append_singleton str c ih =>
    obtain ⟨t, rs, ht, hdec⟩ := ih
    obtain ⟨u, st, n, d, he⟩ := exists_effect (.hxdChar c) t
    refine ⟨_, _, ?_, hdec.char he⟩
    simpa using ht.append_single he

theorem Decoding.of_ok {s : State} {str bs : List Byte} {rs : List ResponseWord} (h : Decoding s str rs)
    (hs : fromHex str = .ok bs) : s.hdPh = .hdHi ∧ rs = [0x000000#24, 0x000000#24] ++ digitAnswers bs := by
  cases h with
  | opened | zero => cases hs
  | high hp hs' =>
    obtain rfl := Except.ok.inj (hs'.symm.trans hs)
    exact ⟨hp, rfl⟩
  | low _ hs' => exact absurd hs (fromHex_append_digit_ne_ok hs' _ bs)
  | failed _ hs' => exact absurd hs (by simpa using hs' [] bs)

theorem Decoding.of_error {s : State} {str : List Byte} {rs : List ResponseWord} (h : Decoding s str rs)
    (hs : ∀ bs, fromHex str ≠ .ok bs) : s.hdPh ≠ .hdIdle ∧ s.hdPh ≠ .hdHi := by
  cases h with
  | high _ hs' => exact absurd hs' (hs _)
  | opened hp | zero hp | low hp | failed hp => simp [hp]

/-- The responses to `FROMHEX` on a well-formed string for the bytes `bs`. -/
def fromHexAnswers (bs : List Byte) : List ResponseWord :=
  [0x000000#24, 0x000000#24, 0x000000#24] ++ digitAnswers bs ++ [0x000000#24]

theorem statusField_fromHexAnswers {bs : List Byte} {r : ResponseWord} (hr : r ∈ fromHexAnswers bs) : statusField r = 0 := by
  obtain rfl | hr : r = 0x000000#24 ∨ r ∈ digitAnswers bs := by simpa [fromHexAnswers, or_comm] using hr
  · exact statusField_ok_zero
  · exact statusField_digitAnswers hr

theorem flatMap_payload_fromHexAnswers (bs : List Byte) : (fromHexAnswers bs).flatMap payload = bs := by
  simp [fromHexAnswers, digitAnswers, List.flatMap_assoc]

/-- Among the responses those with one payload item are the bytes. -/
theorem flatMap_payload_filter_fromHexAnswers (bs : List Byte) :
    ((fromHexAnswers bs).filter fun r => countField r = 1#4).flatMap payload = bs := by
  have hdigits : (digitAnswers bs).filter (fun r => countField r = 1#4) = bs.map byteAnswer := by
    induction bs with
    | nil => rfl
    | cons b bs ih =>
      rw [digitAnswers] at ih ⊢
      simp [ih]
  simp [fromHexAnswers, hdigits, List.flatMap_map]

/-- The decoder's sequence on a well-formed string. -/
theorem runsTo_fromHexSeq_of_ok {str bs : List Byte} (hs : fromHex str = .ok bs) (s : State) :
    ∃ t, RunsTo (fromHexSeq str) s t (fromHexAnswers bs) ∧ t.hdPh = .hdIdle := by
  obtain ⟨t, rs, ht, hdec⟩ := exists_runsTo_decoding str s
  obtain ⟨hp, rfl⟩ := hdec.of_ok hs
  exact ⟨_, ht.append_single (.endWellFormed t hp), rfl⟩

/-- The decoder's sequence on any other string: the verdict is `FormatError`, and no response before it is another error. -/
theorem runsTo_fromHexSeq_of_error {str : List Byte} (hs : ∀ bs, fromHex str ≠ .ok bs) (s : State) :
    ∃ t rs, RunsTo (fromHexSeq str) s t (rs ++ [0x100000#24]) ∧ (∀ r ∈ rs, statusField r = 0 ∨ statusField r = 1)
      ∧ t.hdPh = .hdIdle := by
  obtain ⟨t, rs, ht, hdec⟩ := exists_runsTo_decoding str s
  obtain ⟨hp, hp'⟩ := hdec.of_error hs
  refine ⟨_, _, ht.append_single (.endMalformed t hp hp'), ?_, rfl⟩
  exact List.forall_mem_cons.mpr ⟨.inl statusField_ok_zero, fun _ => hdec.ok_or_formatError⟩

/-- HXD_START brings all states into agreement on the Hex Codec (R93). -/
theorem agreeOn_hxdStart (s s' : State) :
    AgreeOn .HC { s with hdPh := .hdP0, hdHi := 0 } { s' with hdPh := .hdP0, hdHi := 0 } := by
  refine ⟨nofun, fun r hr => ?_⟩
  cases r with
  | hdPh | hdHi => rfl
  | _ => cases hr

/-- The decoder's sequence is answered alike from every state. -/
theorem RunsTo.fromHexSeq_from {str : List Byte} {s t : State} {rs : List ResponseWord} (h : RunsTo (fromHexSeq str) s t rs)
    (s' : State) : ∃ t', RunsTo (fromHexSeq str) s' t' rs := by
  have hrest : ∀ i ∈ str.map .hxdChar ++ [.hxdEnd], Separate i ∧ unitOf i.mnemonic = .HC := by
    simp only [List.mem_append, List.mem_map, List.mem_singleton]
    rintro i (⟨c, -, rfl⟩ | rfl) <;> exact ⟨by simp [Separate, Instr.mnemonic], rfl⟩
  obtain ⟨u, u', qs, hu, hu'⟩ := RunsTo.alike_of_first (.hxdStart s) (.hxdStart s') (agreeOn_hxdStart s s') hrest
  obtain ⟨-, rfl⟩ := h.unique hu
  exact ⟨u', hu'⟩

/-- Settles O43: one run for a string that `fromHex` accepts and one for a string that it refuses, and in both the responses are
the same from every state. -/
theorem fromHexSequenceComputesFromHex : Obligations.FromHexSequenceComputesFromHex := by
  unfold Obligations.FromHexSequenceComputesFromHex
  intro str s
  have hlen : (fromHexSeq str).length = str.length + 2 := by simp [fromHexSeq]
  by_cases hs : ∃ bs, fromHex str = .ok bs
  · obtain ⟨bs, hs⟩ := hs
    obtain ⟨t, ht, hidle⟩ := runsTo_fromHexSeq_of_ok hs s
    refine ⟨t, _, ht.1, ht.2, ht.length_eq.1.trans hlen, hidle, fun bs' hs' => ?_, fun hne => absurd hs (hne bs),
      ht.fromHexSeq_from⟩
    obtain rfl := Except.ok.inj (hs.symm.trans hs')
    exact ⟨fun _ => statusField_fromHexAnswers, flatMap_payload_filter_fromHexAnswers bs⟩
  · obtain ⟨t, rs, ht, hrs, hidle⟩ := runsTo_fromHexSeq_of_error (not_exists.mp hs) s
    refine ⟨t, _, ht.1, ht.2, ht.length_eq.1.trans hlen, hidle, fun bs hs' => absurd ⟨bs, hs'⟩ hs, fun _ => ⟨by simp, ?_⟩,
      ht.fromHexSeq_from⟩
    intro r hr
    obtain hr | rfl := List.mem_append.mp hr |>.imp_right List.mem_singleton.mp
    · exact hrs r hr
    · exact .inr (statusField_responseWord .formatError 0 0)

end Sys2Proof.Machine
end

section
/-! Family other, nodes: loading a parent, combining it with a label's digest, and reading `NODE` (R112), and the sequences of
30_encoding.md section 8 built from them. -/

namespace Sys2Proof.Machine

/-! ### The 32 bytes of a digest or a node, read one by one -/

/-- The responses that carry the bytes of a vector in order. -/
def byteAnswers (v : Vector Byte 32) : List ResponseWord := v.toList.map byteAnswer

theorem length_byteAnswers (v : Vector Byte 32) : (byteAnswers v).length = 32 := by
  simp [byteAnswers]

theorem toNat_lt_of_mem_indexBytes {k : Byte} (hk : k ∈ indexBytes) : k.toNat < 32 := by
  obtain ⟨n, hn, rfl⟩ := List.mem_map.mp hk
  have := List.mem_range.mp hn
  rw [BitVec.toNat_ofNat]
  omega

theorem map_getD_indexBytes (v : Vector Byte 32) : indexBytes.map (fun k => v.toList.getD k.toNat 0) = v.toList := by
  apply List.ext_getElem
  · simp [indexBytes]
  · intro n _ hn
    have hn : n < 32 := by simpa using hn
    have hmod : n % 256 = n := by omega
    simp [indexBytes, hmod, hn]

/-- Reading commands for each index in order, each answered with that byte of `v`. -/
theorem RunsTo.reads_bytes {s : State} {v : Vector Byte 32} {command : Byte → Instr} (hop : ∀ k, (command k).operand = k)
    (h : ∀ k (hk : k.toNat < 32), Effect (command k) s s .ok 1 (v[k.toNat].setWidth 16)) :
    RunsTo (indexBytes.map command) s { s with respOut := s.respOut ++ byteAnswers v } (byteAnswers v) := by
  have hreads := RunsTo.reads (is := indexBytes.map command) (s := s)
    (answer := fun i => byteAnswer (v.toList.getD i.operand.toNat 0)) (by
      simp only [List.mem_map]
      rintro i ⟨k, hk, rfl⟩
      have hk := toNat_lt_of_mem_indexBytes hk
      exact ⟨_, _, _, h k hk, by simp [hop, hk, byteAnswer]⟩)
  have hanswers : (indexBytes.map command).map (fun i => byteAnswer (v.toList.getD i.operand.toNat 0)) = byteAnswers v := by
    rw [byteAnswers, ← map_getD_indexBytes v, List.map_map, List.map_map, map_getD_indexBytes]
    simp [Function.comp_def, hop]
  rwa [hanswers] at hreads

theorem runsTo_sqz {s : State} (hph : s.ph = .squeeze) :
    RunsTo (indexBytes.map .sqz) s { s with respOut := s.respOut ++ byteAnswers s.arr.window } (byteAnswers s.arr.window) :=
  RunsTo.reads_bytes (fun _ => rfl) fun k hk => by
    have hwin : s.arr.window[k.toNat] = s.arr.byte ⟨k.toNat, by omega⟩ := window_get s.arr ⟨k.toNat, hk⟩
    rw [hwin]
    exact .sqz s k hph hk

theorem runsTo_readNodeSeq {s : State} (hnp : s.np = 32) :
    RunsTo readNodeSeq s { s with respOut := s.respOut ++ byteAnswers s.node } (byteAnswers s.node) :=
  RunsTo.reads_bytes (fun _ => rfl) fun k hk => .rd s k hnp hk

/-- What the host takes from responses `OK` without payload and the bytes of a vector after them. -/
theorem hostResult_append_byteAnswers {rs : List ResponseWord} (h : ∀ r ∈ rs, r = 0x000000#24) (v : Vector Byte 32) :
    hostResult (rs ++ byteAnswers v) = .ok v.toList := by
  have hok : ∀ r ∈ rs ++ byteAnswers v, statusField r = 0 := by
    simp only [byteAnswers, List.mem_append, List.mem_map]
    rintro r (hr | ⟨b, -, rfl⟩)
    · rw [h r hr, statusField_ok_zero]
    · exact statusField_byteAnswer b
  have hsilent : rs.flatMap payload = [] := List.flatMap_eq_nil_iff.mpr fun r hr => by rw [h r hr, payload_ok_zero]
  rw [hostResult_of_ok hok, List.flatMap_append, hsilent]
  simp [byteAnswers, List.flatMap_map]

/-! ### Loading and combining -/

/-- The bytes `l` have been loaded since NH_CLR (R109). -/
def Loaded (s : State) (l : List Byte) : Prop := s.np.val = l.length ∧ s.node.toList.take l.length = l

/-- One byte more is loaded after the others. -/
theorem Loaded.ldb {s : State} {l : List Byte} (h : Loaded s l) (hl : l.length < 32) (b : Byte) :
    ∃ u, Effect (.nhLdb b) s u .ok 0 0 ∧ Loaded u (l ++ [b]) := by
  obtain ⟨hnp, hnode⟩ := h
  have hlt : s.np.val < 32 := hnp ▸ hl
  refine ⟨_, .ldb s b hlt, by simp [hnp], ?_⟩
  have hbyte : (s.node.set s.np.val b hlt).toList[l.length]? = some b := by simp [hnp, hl]
  rw [List.length_append, List.length_singleton, List.take_add_one, hbyte, Vector.toList_set, hnp,
    List.take_set_of_le le_rfl, hnode]
  rfl

theorem runsTo_ldb {s : State} {l : List Byte} (h : Loaded s l) (l' : List Byte) (hl : l.length + l'.length ≤ 32) :
    ∃ t, RunsTo (l'.map .nhLdb) s t (List.replicate l'.length 0x000000#24) ∧ Loaded t (l ++ l') := by
  induction l' generalizing s l with
  | nil => exact ⟨s, .nil s, by simpa using h⟩
  | cons b l' ih =>
    rw [List.length_cons] at hl
    obtain ⟨u, he, hu⟩ := h.ldb (by omega) b
    obtain ⟨t, ht, hloaded⟩ := ih (s := u.reply (responseWord .ok 0 0)) hu (by simp; omega)
    exact ⟨t, .cons he ht, by simpa using hloaded⟩

/-- A whole parent loaded, from any state (R108, R109). -/
theorem runsTo_loadNodeSeq (p : Vector Byte 32) (s : State) :
    ∃ t, RunsTo (loadNodeSeq p) s t (List.replicate 33 0x000000#24) ∧ t.node = p ∧ t.np = 32 := by
  obtain ⟨t, ht, hnp, hnode⟩ := runsTo_ldb (s := { s with np := 0 }.reply (responseWord .ok 0 0)) (l := []) ⟨rfl, rfl⟩ p.toList
    (by simp)
  have hload := RunsTo.cons (.nhClr s) ht
  simp only [List.nil_append, Vector.length_toList] at hnp hnode hload
  refine ⟨t, hload, Vector.toList_inj.mp ?_, np_eq_32_iff.mpr hnp⟩
  rwa [List.take_of_length_le (by simp)] at hnode

/-- A label hashed and combined with the parent in `NODE` (R102, R110). -/
theorem runsTo_childStepSeq {s : State} (hnp : s.np = 32) (u : List Byte) (hfit : Fits s u.length) :
    ∃ t, RunsTo (childStepSeq u) s t (List.replicate (u.length + 3) 0x000000#24)
      ∧ t.node = childOfBytes s.node u ∧ t.np = 32 ∧ t.ph = .idle := by
  obtain ⟨t, ht, hph, hdigest, hnode, hnp'⟩ := runsTo_hashSeq u hfit
  have hnp' : t.np = 32 := hnp'.trans hnp
  have hstep := ht.append_single (.child t hph hnp')
  rw [responseWord_ok_zero, ← List.replicate_succ'] at hstep
  refine ⟨_, hstep, ?_, hnp', rfl⟩
  show (keccakF (childArray t.node t.arr.window)).window = childOfBytes s.node u
  rw [child_is_digest, hnode, hdigest, childOfBytes]

theorem fits_of_runsTo {is s t rs n} (h : RunsTo is s t rs) (hfit : Fits s n) : Fits t n := by
  rwa [Fits, h.length_eq.2.2]

theorem eq_of_mem_append_replicate {a : ResponseWord} {n : Nat} {rs : List ResponseWord} (h : ∀ r ∈ rs, r = a) :
    ∀ r ∈ List.replicate n a ++ rs, r = a := by
  intro r hr
  exact (List.mem_append.mp hr).elim List.eq_of_mem_replicate (h r)

/-- A parent loaded and combined with a label, from any state (R112). -/
theorem runsTo_load_childStep (p : Vector Byte 32) (u : List Byte) {s : State} (hfit : Fits s u.length) :
    ∃ t, RunsTo (loadNodeSeq p ++ childStepSeq u) s t (List.replicate (u.length + 36) 0x000000#24)
      ∧ t.node = childOfBytes p u ∧ t.np = 32 ∧ t.ph = .idle := by
  obtain ⟨v, hv, hnode, hnp⟩ := runsTo_loadNodeSeq p s
  obtain ⟨t, ht, hchild, hnp', hph⟩ := runsTo_childStepSeq hnp u (fits_of_runsTo hv hfit)
  have h := hv.append ht
  rw [List.replicate_append_replicate, Nat.add_comm 33, Nat.add_assoc] at h
  exact ⟨t, h, hnode ▸ hchild, hnp', hph⟩

/-- Labels combined one after the other with the node in `NODE`. -/
theorem runsTo_childSteps (ls : List (List Char)) {s : State} (hnp : s.np = 32)
    (hfit : ∀ l ∈ ls, Fits s (utf8 l).length) :
    ∃ t rs, RunsTo (ls.flatMap fun l => childStepSeq (utf8 l)) s t rs ∧ (∀ r ∈ rs, r = 0x000000#24)
      ∧ t.node = ls.foldl childNode s.node ∧ t.np = 32 := by
  induction ls generalizing s with
  | nil => exact ⟨s, [], .nil s, nofun, rfl, hnp⟩
  | cons l ls ih =>
    obtain ⟨u, hu, hchild, hnp', -⟩ := runsTo_childStepSeq hnp (utf8 l) (hfit l List.mem_cons_self)
    obtain ⟨t, rs, ht, hrs, hnode, hnp''⟩ := ih hnp' fun l' hl' => fits_of_runsTo hu (hfit l' (List.mem_cons_of_mem l hl'))
    refine ⟨t, _, hu.append ht, eq_of_mem_append_replicate hrs, ?_, hnp''⟩
    rw [hnode, hchild, List.foldl_cons, childNode]

/-- R56: NAMEHASH, whose reading commands answer the node hash of the name. -/
theorem runsTo_nameHashSeq (name : List Char) {s : State} (hfit : ∀ l ∈ labels name, Fits s (utf8 l).length) :
    ∃ t rs, RunsTo (nameHashSeq name) s t (rs ++ byteAnswers (nameHash name)) ∧ (∀ r ∈ rs, r = 0x000000#24)
      ∧ t.node = nameHash name ∧ t.np = 32 := by
  obtain ⟨t, rs, ht, hrs, hnode, hnp⟩ := runsTo_childSteps (labels name).reverse
    (s := { s with node := kRoot, np := 32 }.reply (responseWord .ok 0 0)) rfl
    fun l hl => hfit l (List.mem_reverse.mp hl)
  have hname : t.node = nameHash name := by
    rw [hnode, reply_node, kRoot_eq_rootNode, List.foldl_reverse, nameHash]
  have h := (RunsTo.cons (.nhRoot s) ht).append (runsTo_readNodeSeq hnp)
  rw [hname] at h
  exact ⟨_, _, h, List.forall_mem_cons.mpr ⟨rfl, hrs⟩, rfl, hnp⟩

/-- Settles O53: `runsTo_load_childStep` and `runsTo_nameHashSeq`. -/
theorem nodeSequencesComputeNodeHashes : Obligations.NodeSequencesComputeNodeHashes := by
  unfold Obligations.NodeSequencesComputeNodeHashes
  refine ⟨fun p u s hfit => ?load, fun p l => rfl, fun name s hfit => ?name⟩
  case load =>
    obtain ⟨t, ⟨hrun, hout⟩, hrest⟩ := runsTo_load_childStep p u hfit
    exact ⟨t, hrun, hout, hrest⟩
  case name =>
    obtain ⟨t, rs, ⟨hrun, hout⟩, hrs, hnode, hnp⟩ := runsTo_nameHashSeq name hfit
    refine ⟨t, _, hrun, hout, ?_, hnode, hnp⟩
    simp only [byteAnswers, List.mem_append, List.mem_map]
    rintro r (hr | ⟨b, -, rfl⟩)
    · rw [hrs r hr, statusField_ok_zero]
    · exact statusField_byteAnswer b

end Sys2Proof.Machine
end

section
/-! Family other, the pseudo-commands: what the host takes from the responses to each (30_encoding.md section 8). -/

namespace Sys2Proof.Machine

/-- R50: DIGEST, whose reading commands answer the digest. -/
theorem runsTo_digestSeq (m : List Byte) {s : State} (hfit : Fits s m.length) :
    ∃ t, RunsTo (digestSeq m) s t (List.replicate (m.length + 2) 0x000000#24 ++ byteAnswers (digest m)) := by
  obtain ⟨t, ht, hph, hdigest, -, -⟩ := runsTo_hashSeq m hfit
  exact ⟨_, hdigest ▸ ht.append (runsTo_sqz hph)⟩

theorem hostResult_digest (m : List Byte) :
    hostResult (List.replicate (m.length + 2) 0x000000#24 ++ byteAnswers (digest m)) = .ok (digest m).toList :=
  hostResult_append_byteAnswers (fun _ => List.eq_of_mem_replicate) _

theorem hostResult_toHexAnswers (b : List Byte) : hostResult (toHexAnswers b) = .ok (toHex b) := by
  rw [hostResult_of_ok fun _ => statusField_toHexAnswers, flatMap_payload_toHexAnswers]

theorem hostResult_fromHexAnswers (bs : List Byte) : hostResult (fromHexAnswers bs) = .ok bs := by
  rw [hostResult_of_ok fun _ => statusField_fromHexAnswers, flatMap_payload_fromHexAnswers]

/-- Where the last response is `FormatError` and none before it another error, that is what the host takes. -/
theorem hostResult_of_formatError {rs : List ResponseWord} (h : ∀ r ∈ rs, statusField r = 0 ∨ statusField r = 1) :
    hostResult (rs ++ [0x100000#24]) = .error 1 := by
  have hlast : statusField 0x100000#24 = 1 := statusField_responseWord .formatError 0 0
  rw [hostResult]
  cases hfind : (rs ++ [0x100000#24]).find? fun r => statusField r != 0 with
  | none =>
    have hzero := List.find?_eq_none.mp hfind 0x100000#24 (by simp)
    simp [hlast] at hzero
  | some r =>
    have hne : statusField r ≠ 0 := by simpa using List.find?_some hfind
    obtain hr | rfl := List.mem_append.mp (List.mem_of_find?_eq_some hfind) |>.imp_right List.mem_singleton.mp
    · exact congrArg Except.error ((h r hr).resolve_left hne)
    · exact congrArg Except.error hlast

/-- Settles O56: each sequence has its run and its responses above, and the host's result is read off the latter. -/
theorem pseudoCommandsComputeTheirFunctions : Obligations.PseudoCommandsComputeTheirFunctions := by
  unfold Obligations.PseudoCommandsComputeTheirFunctions
  intro s
  refine ⟨fun m hfit => ?digest, fun b => ?toHex, fun str => ?fromHex, ?root, fun p l hfit => ?child, fun name hfit => ?name⟩
  case digest =>
    obtain ⟨t, hrun, hout⟩ := runsTo_digestSeq m hfit
    exact ⟨t, _, hrun, hout, hostResult_digest m⟩
  case toHex => exact ⟨_, _, (runsTo_toHexSeq b s).1, rfl, hostResult_toHexAnswers b⟩
  case fromHex =>
    by_cases hs : ∃ bs, fromHex str = .ok bs
    · obtain ⟨bs, hs⟩ := hs
      obtain ⟨t, ⟨hrun, hout⟩, -⟩ := runsTo_fromHexSeq_of_ok hs s
      refine ⟨t, _, hrun, hout, fun bs' hs' => ?_, fun hne => absurd hs (hne bs)⟩
      obtain rfl := Except.ok.inj (hs.symm.trans hs')
      exact hostResult_fromHexAnswers bs
    · obtain ⟨t, rs, ⟨hrun, hout⟩, hrs, -⟩ := runsTo_fromHexSeq_of_error (not_exists.mp hs) s
      exact ⟨t, _, hrun, hout, fun bs hs' => absurd ⟨bs, hs'⟩ hs, fun _ => hostResult_of_formatError hrs⟩
  case root =>
    obtain ⟨hrun, hout⟩ := RunsTo.cons (.nhRoot s)
      (runsTo_readNodeSeq (s := { s with node := kRoot, np := 32 }.reply (responseWord .ok 0 0)) rfl)
    refine ⟨_, _, hrun, hout, ?_⟩
    rw [← kRoot_eq_rootNode]
    exact hostResult_append_byteAnswers (rs := [0x000000#24]) (by simp) kRoot
  case child =>
    obtain ⟨u, hu, hnode, hnp, -⟩ := runsTo_load_childStep p (utf8 l) hfit
    obtain ⟨hrun, hout⟩ := hu.append (runsTo_readNodeSeq hnp)
    refine ⟨_, _, hrun, hout, ?_⟩
    rw [hnode]
    exact hostResult_append_byteAnswers (fun _ => List.eq_of_mem_replicate) _
  case name =>
    obtain ⟨t, rs, ⟨hrun, hout⟩, hrs, -, -⟩ := runsTo_nameHashSeq name hfit
    exact ⟨t, _, hrun, hout, hostResult_append_byteAnswers hrs _⟩

/-- A digest in hex has 66 characters. -/
theorem length_toHex_digest (m : List Byte) : (toHex (digest m).toList).length = 66 := by
  simp [length_toHex]

/-- R53: DIGESTHEX on a message within `MAXLEN`. -/
theorem runDigestHex_digest (m : List Byte) {s : State} (hfit : Fits s m.length) :
    ∃ t, runDigestHex m s = .next (t, .ok (toHex (digest m).toList))
      ∧ runCommands (digestHexSeq m (digest m).toList) s = .next t
      ∧ t.respOut.length = s.respOut.length + (m.length + 34) + (1 + 32) := by
  obtain ⟨u, hrun, hout⟩ := runsTo_digestSeq m hfit
  have hhex := (runsTo_toHexSeq (digest m).toList u).1
  obtain ⟨hresult, hrun'⟩ := runDigestHex_of_ok hrun hout (hostResult_digest m) hhex rfl
  rw [hostResult_toHexAnswers] at hresult
  refine ⟨_, hresult, hrun', ?_⟩
  simp only [hout, List.length_append, List.length_replicate, length_byteAnswers, toHexAnswers, List.length_cons,
    List.length_map, Vector.length_toList]

theorem runDigestHex_over {m : List Byte} {s : State} {k : Nat} (hmax : s.maxLen = some k) (hk : k < m.length) :
    ∃ t, runDigestHex m s = .next (t, .error 2) ∧ runCommands (digestSeq m) s = .next t := by
  obtain ⟨-, hdigest⟩ := messagesOverTheLimitFail s k hmax
  obtain ⟨t, rs, hrun, hout, hresult⟩ := hdigest m hk
  exact ⟨t, runDigestHex_of_error hrun hout hresult, hrun⟩

/-- Settles O57: DIGESTHEX by `runDigestHex_digest` and, over the limit, `runDigestHex_over`; DIGESTTEXT is DIGESTHEX on the
bytes of the text. -/
theorem digestHexWritesTheDigest : Obligations.DigestHexWritesTheDigest := by
  unfold Obligations.DigestHexWritesTheDigest
  refine ⟨fun _ _ => rfl, fun _ _ => rfl, fun m s hfit => ?hex, fun m s k hmax hk => runDigestHex_over hmax hk,
    fun text s hfit => ?text, fun text s k hmax hk => ?textOver⟩
  case hex =>
    obtain ⟨t, hresult, hrun, hlen⟩ := runDigestHex_digest m hfit
    exact ⟨t, hresult, length_toHex_digest m, hrun, hlen⟩
  case text =>
    obtain ⟨t, hresult, hrun, -⟩ := runDigestHex_digest (utf8 text) hfit
    exact ⟨t, hresult, rfl, length_toHex_digest (utf8 text), hrun⟩
  case textOver =>
    obtain ⟨t, hresult, -⟩ := runDigestHex_over hmax hk
    exact ⟨t, hresult⟩

end Sys2Proof.Machine
end

section
/-! Family other, the causes of `SequenceError`, `OperandError` and `CapacityError` (R122, R123, R125). -/

namespace Sys2Proof.Machine

theorem np_lt_of_ne_32 {s : State} (h : s.np ≠ 32) : s.np.val < 32 :=
  Nat.lt_of_le_of_ne (Nat.le_of_lt_succ s.np.isLt) fun e => h (np_eq_32_iff.mpr e)

/-- Settles O13: the effects with this status, taken apart for one direction and applied for the other. -/
theorem sequenceErrorExactlyInAWrongPhase : Obligations.SequenceErrorExactlyInAWrongPhase := by
  unfold Obligations.SequenceErrorExactlyInAWrongPhase
  intro i s
  constructor
  · rw [answersStatus_iff]
    rintro ⟨u, n, d, he⟩
    cases he with
    | absorbIdle _ _ h => exact .inl ⟨.inl rfl, .inl h⟩
    | absorbSqueeze _ _ h => exact .inl ⟨.inl rfl, .inr h⟩
    | finalIdle _ h => exact .inl ⟨.inr rfl, .inl h⟩
    | finalSqueeze _ h => exact .inl ⟨.inr rfl, .inr h⟩
    | sqzIdle _ _ h => exact .inr (.inl ⟨rfl, .inl h⟩)
    | sqzAbsorb _ _ h => exact .inr (.inl ⟨rfl, .inr h⟩)
    | childIdle _ h => exact .inr (.inr (.inl ⟨rfl, .inl h⟩))
    | childAbsorb _ h => exact .inr (.inr (.inl ⟨rfl, .inr (.inl h)⟩))
    | childNoParent _ h hn => exact .inr (.inr (.inl ⟨rfl, .inr (.inr ⟨h, np_lt_of_ne_32 hn⟩)⟩))
    | charIdle _ _ h => exact .inr (.inr (.inr (.inl ⟨.inl rfl, h⟩)))
    | endIdle _ h => exact .inr (.inr (.inr (.inl ⟨.inr rfl, h⟩)))
    | ldbFull _ _ h => exact .inr (.inr (.inr (.inr (.inl ⟨rfl, np_eq_32_iff.mp h⟩))))
    | rdNotValid _ _ h => exact .inr (.inr (.inr (.inr (.inr ⟨rfl, np_lt_of_ne_32 h⟩))))
  · obtain ⟨m, b, rfl⟩ : ∃ m b, i = Mnemonic.instr m b := ⟨_, _, i.instr_mnemonic_operand.symm⟩
    rw [Mnemonic.mnemonic_instr]
    rintro (⟨rfl | rfl, h | h⟩ | ⟨rfl, h | h⟩ | ⟨rfl, h | h | ⟨h, hn⟩⟩ | ⟨rfl | rfl, h⟩ | ⟨rfl, h⟩ | ⟨rfl, h⟩)
    · exact (Effect.absorbIdle s b h).answersStatus
    · exact (Effect.absorbSqueeze s b h).answersStatus
    · exact (Effect.finalIdle s h).answersStatus
    · exact (Effect.finalSqueeze s h).answersStatus
    · exact (Effect.sqzIdle s b h).answersStatus
    · exact (Effect.sqzAbsorb s b h).answersStatus
    · exact (Effect.childIdle s h).answersStatus
    · exact (Effect.childAbsorb s h).answersStatus
    · exact (Effect.childNoParent s h (np_ne_32_of_lt hn)).answersStatus
    · exact (Effect.charIdle s b h).answersStatus
    · exact (Effect.endIdle s h).answersStatus
    · exact (Effect.ldbFull s b (np_eq_32_iff.mpr h)).answersStatus
    · exact (Effect.rdNotValid s b (np_ne_32_of_lt h)).answersStatus

theorem operandError_iff (i : Instr) (s : State) : AnswersStatus i s .operandError ↔
    32 ≤ i.operand.toNat ∧ ((i.mnemonic = .SQZ ∧ s.ph = .squeeze) ∨ (i.mnemonic = .NH_RD ∧ s.np.val = 32)) := by
  constructor
  · rw [answersStatus_iff]
    rintro ⟨u, n, d, he⟩
    cases he with
    | sqzIndex _ _ h hi => exact ⟨hi, .inl ⟨rfl, h⟩⟩
    | rdIndex _ _ h hi => exact ⟨hi, .inr ⟨rfl, np_eq_32_iff.mp h⟩⟩
  · rintro ⟨hi, hcause⟩
    cases i with
    | sqz b =>
      obtain ⟨-, h⟩ | ⟨hm, -⟩ := hcause
      · exact (Effect.sqzIndex s b h hi).answersStatus
      · cases hm
    | nhRd b =>
      obtain ⟨hm, -⟩ | ⟨-, h⟩ := hcause
      · cases hm
      · exact (Effect.rdIndex s b (np_eq_32_iff.mpr h) hi).answersStatus
    | _ => obtain ⟨hm, -⟩ | ⟨hm, -⟩ := hcause <;> cases hm

theorem capacityError_iff (i : Instr) (s : State) : AnswersStatus i s .capacityError ↔
    (i.mnemonic ∈ [Mnemonic.ABSORB, .FINAL, .SQZ, .NH_CHILD] ∧ s.ph = .failed)
      ∨ (i.mnemonic = .ABSORB ∧ s.ph = .absorb ∧ s.maxLen = some s.cnt) := by
  constructor
  · rw [answersStatus_iff]
    rintro ⟨u, n, d, he⟩
    cases he with
    | absorbFailed _ _ h | finalFailed _ h | sqzFailed _ _ h | childFailed _ h => exact .inl ⟨by simp [Instr.mnemonic], h⟩
    | absorbFull _ _ h hm => exact .inr ⟨rfl, h, hm⟩
  · obtain ⟨m, b, rfl⟩ : ∃ m b, i = Mnemonic.instr m b := ⟨_, _, i.instr_mnemonic_operand.symm⟩
    simp only [Mnemonic.mnemonic_instr, List.mem_cons, List.not_mem_nil, or_false]
    rintro (⟨rfl | rfl | rfl | rfl, h⟩ | ⟨rfl, h, hm⟩)
    · exact (Effect.absorbFailed s b h).answersStatus
    · exact (Effect.finalFailed s h).answersStatus
    · exact (Effect.sqzFailed s b h).answersStatus
    · exact (Effect.childFailed s h).answersStatus
    · exact (Effect.absorbFull s b h hm).answersStatus

/-- Settles O14: one equivalence for each of the two statuses. -/
theorem operandAndCapacityErrorCauses : Obligations.OperandAndCapacityErrorCauses := by
  unfold Obligations.OperandAndCapacityErrorCauses
  exact fun i s => ⟨operandError_iff i s, capacityError_iff i s⟩

end Sys2Proof.Machine
end

section
/-! Family other, UTF-8: the bytes of a code point carry its bits (R39). -/

namespace Sys2Proof.Machine

/-- The value of two fields, the second of which holds the low `w` bits of a number. -/
theorem toNat_append_ofNat {v w : Nat} (x : BitVec v) (n : Nat) :
    (x ++ BitVec.ofNat w n).toNat = 2 ^ w * x.toNat + n % 2 ^ w := by
  rw [BitVec.toNat_append, BitVec.toNat_ofNat, ← Nat.shiftLeft_add_eq_or_of_lt (Nat.mod_lt _ (Nat.two_pow_pos w)),
    Nat.shiftLeft_eq, Nat.mul_comm]

/-- A continuation byte is `0b10` and six bits of the code point. -/
theorem utf8Tail_eq (n k : Nat) : utf8Tail n k = 0b10#2 ++ BitVec.ofNat 6 (n / 2 ^ (6 * k)) := by
  have hprefix : ∀ y : BitVec 6, 0x80 ||| y.setWidth 8 = 0b10#2 ++ y := by decide
  rw [utf8Tail, ← hprefix]
  congr 1
  apply BitVec.eq_of_toNat_eq
  simp only [BitVec.toNat_ofNat, BitVec.toNat_setWidth]

/-- A byte made by `or` from a fixed pattern and a number of `w` bits, where the pattern leaves those bits free. -/
theorem or_ofNat_eq {w n : Nat} (hn : n < 2 ^ w) {a : Byte} {f : BitVec w → Byte} (hf : ∀ x, a ||| x.setWidth 8 = f x) :
    a ||| BitVec.ofNat 8 n = f (BitVec.ofNat w n) := by
  rw [← hf]
  congr 1
  apply BitVec.eq_of_toNat_eq
  rw [BitVec.toNat_ofNat, BitVec.toNat_setWidth, BitVec.toNat_ofNat, Nat.mod_eq_of_lt hn]

/-- The first bytes of the forms with two, three and four bytes. -/
theorem utf8_lead_two {n : Nat} (hn : n < 2 ^ 5) : 0xC0 ||| BitVec.ofNat 8 n = 0b110#3 ++ BitVec.ofNat 5 n :=
  or_ofNat_eq hn (f := (0b110#3 ++ ·)) (by decide)

theorem utf8_lead_three {n : Nat} (hn : n < 2 ^ 4) : 0xE0 ||| BitVec.ofNat 8 n = 0b1110#4 ++ BitVec.ofNat 4 n :=
  or_ofNat_eq hn (f := (0b1110#4 ++ ·)) (by decide)

theorem utf8_lead_four {n : Nat} (hn : n < 2 ^ 3) : 0xF0 ||| BitVec.ofNat 8 n = 0b11110#5 ++ BitVec.ofNat 3 n :=
  or_ofNat_eq hn (f := (0b11110#5 ++ ·)) (by decide)

/-- A code point is below `0x110000`. -/
theorem toNat_lt_of_char (c : Char) : c.toNat < 0x110000 := by
  obtain h | ⟨-, h⟩ := c.valid
  · exact h.trans (by decide)
  · exact h

/-- Settles O54: in each range the bytes are the fields of the code point divided by powers of 64, which make it up again. -/
theorem utf8CarriesTheCodePoint : Obligations.Utf8CarriesTheCodePoint := by
  unfold Obligations.Utf8CarriesTheCodePoint
  intro c
  have hmax := toNat_lt_of_char c
  simp only [utf8Char, utf8Tail_eq]
  generalize c.toNat = n at hmax
  refine ⟨fun h => if_pos h, fun h h' => ?two, fun h h' => ?three, fun h => ?four⟩
  case two =>
    refine ⟨BitVec.ofNat 5 (n / 2 ^ 6), BitVec.ofNat 6 n, ?_, ?_⟩
    · rw [if_neg (by omega), if_pos h', utf8_lead_two (by omega), Nat.mul_zero, Nat.pow_zero, Nat.div_one]
    · simp only [toNat_append_ofNat, BitVec.toNat_ofNat]
      omega
  case three =>
    refine ⟨BitVec.ofNat 4 (n / 2 ^ 12), BitVec.ofNat 6 (n / 2 ^ 6), BitVec.ofNat 6 n, ?_, ?_⟩
    · rw [if_neg (by omega), if_neg (by omega), if_pos h', utf8_lead_three (by omega), Nat.mul_zero, Nat.pow_zero, Nat.div_one]
    · simp only [toNat_append_ofNat, BitVec.toNat_ofNat]
      omega
  case four =>
    refine ⟨BitVec.ofNat 3 (n / 2 ^ 18), BitVec.ofNat 6 (n / 2 ^ 12), BitVec.ofNat 6 (n / 2 ^ 6), BitVec.ofNat 6 n, ?_, ?_⟩
    · rw [if_neg (by omega), if_neg (by omega), if_neg (by omega), utf8_lead_four (by omega), Nat.mul_zero,
        Nat.pow_zero, Nat.div_one]
    · simp only [toNat_append_ofNat, BitVec.toNat_ofNat]
      omega

end Sys2Proof.Machine
end

section
/-! Family other, the assembler reads the line of a command as that command (R49). -/

namespace Sys2Proof

/-- A hexadecimal digit as text reads as the value it writes. -/
theorem hexDigit_hexDigitText {v : Nat} (hv : v < 16) : hexDigit (hexDigitText v) = some v := by
  interval_cases v <;> rfl

theorem mnemonicOfText_text (m : Mnemonic) : mnemonicOfText m.text = some m := by
  cases m <;> decide +kernel

theorem operandOfText_hexByte (b : Byte) :
    operandOfText ['0', 'x', hexDigitText (b.toNat / 16), hexDigitText (b.toNat % 16)] = some b.toNat := by
  have hhigh : b.toNat / 16 < 16 := by
    have := b.isLt
    omega
  have hlow : b.toNat % 16 < 16 := Nat.mod_lt _ (by decide)
  have hvalue : 16 * (b.toNat / 16) + b.toNat % 16 = b.toNat := Nat.div_add_mod _ _
  generalize b.toNat = n at *
  change ((hexDigit (hexDigitText (n / 16))).bind fun hv => (hexDigit (hexDigitText (n % 16))).map fun lv => 16 * hv + lv) = _
  rw [hexDigit_hexDigitText hhigh, hexDigit_hexDigitText hlow, Option.bind_some, Option.map_some, hvalue]

/-! ### The parts of a line -/

/-- Neither the `;` of a comment nor a quote. -/
def Plain (c : Char) : Prop := c ≠ ';' ∧ c ≠ '\''

theorem stripComment_of_plain {t : List Char} (h : ∀ c ∈ t, Plain c) : stripComment t = t := by
  induction t with
  | nil => rfl
  | cons c t ih =>
    obtain ⟨⟨hsemicolon, hquote⟩, ht⟩ := List.forall_mem_cons.mp h
    rw [stripComment, ih ht]
    · exact fun _ _ hc _ => hquote hc
    · exact hsemicolon

theorem trimEnd_append_singleton {t : List Char} {c : Char} (hc : c ≠ ' ') : trimEnd (t ++ [c]) = t ++ [c] := by
  simp [trimEnd, hc]

theorem trimEnd_of_no_blank {t : List Char} (h : ∀ c ∈ t, c ≠ ' ') : trimEnd t = t := by
  induction t using List.reverseRecOn with
  | nil => rfl
  | append_singleton t c => exact trimEnd_append_singleton (h c (by simp))

theorem plain_text {m : Mnemonic} {c : Char} (hc : c ∈ m.text) : Plain c ∧ c ≠ ' ' := by
  have h : ∀ c ∈ m.text, (c ≠ ';' ∧ c ≠ '\'') ∧ c ≠ ' ' := by cases m <;> simp [Mnemonic.text, mnemonicTexts]
  exact h c hc

theorem plain_hexDigitText {v : Nat} (hv : v < 16) : Plain (hexDigitText v) ∧ hexDigitText v ≠ ' ' := by
  unfold Plain
  interval_cases v <;> decide

/-! ### A mnemonic alone, and a mnemonic with its operand -/

theorem writtenOfLine_text (m : Mnemonic) : writtenOfLine m.text = some ⟨m, none⟩ := by
  have hline : trimEnd (stripComment m.text) = m.text := by
    rw [stripComment_of_plain fun c hc => (plain_text hc).1, trimEnd_of_no_blank fun c hc => (plain_text hc).2]
  have hword : ∀ c ∈ m.text, (c != ' ') = true := fun c hc => by simpa using (plain_text hc).2
  simp only [writtenOfLine, hline, List.takeWhile_eq_self_iff.mpr hword, List.dropWhile_eq_nil_iff.mpr hword,
    mnemonicOfText_text, Option.map_some]

theorem writtenOfLine_text_operand (m : Mnemonic) (b : Byte) :
    writtenOfLine (m.text ++ [' ', '0', 'x', hexDigitText (b.toNat / 16), hexDigitText (b.toNat % 16)])
      = some ⟨m, some b.toNat⟩ := by
  have hoperand := operandOfText_hexByte b
  obtain ⟨hhigh, -⟩ := plain_hexDigitText (v := b.toNat / 16) (by have := b.isLt; omega)
  obtain ⟨hlow, hblank⟩ := plain_hexDigitText (v := b.toNat % 16) (by omega)
  generalize hexDigitText (b.toNat / 16) = high at *
  generalize hexDigitText (b.toNat % 16) = low at *
  have hplain : ∀ c ∈ m.text ++ [' ', '0', 'x', high, low], Plain c := by
    simp only [List.mem_append, List.mem_cons, List.not_mem_nil, or_false]
    rintro c (hc | rfl | rfl | rfl | rfl | rfl)
    · exact (plain_text hc).1
    · exact ⟨by decide, by decide⟩
    · exact ⟨by decide, by decide⟩
    · exact ⟨by decide, by decide⟩
    · exact hhigh
    · exact hlow
  have hline : trimEnd (stripComment (m.text ++ [' ', '0', 'x', high, low])) = m.text ++ [' ', '0', 'x', high, low] := by
    have htrim := trimEnd_append_singleton (t := m.text ++ [' ', '0', 'x', high]) hblank
    rw [List.append_assoc] at htrim
    exact (congrArg trimEnd (stripComment_of_plain hplain)).trans htrim
  have hword : ∀ c ∈ m.text, (c != ' ') = true := fun c hc => by simpa using (plain_text hc).2
  have htake : [' ', '0', 'x', high, low].takeWhile (· != ' ') = [] := rfl
  have hdrop : [' ', '0', 'x', high, low].dropWhile (· != ' ') = ' ' :: ['0', 'x', high, low] := rfl
  simp only [writtenOfLine, hline, List.takeWhile_append_of_pos hword, List.dropWhile_append_of_pos hword, htake, hdrop,
    List.append_nil, mnemonicOfText_text, Option.bind_some, hoperand, Option.map_some]

/-- Settles O5: the line of each format is read as the mnemonic, and its operand, that it was written from. -/
theorem assemblerReadsWrittenCommands : Obligations.AssemblerReadsWrittenCommands := by
  unfold Obligations.AssemblerReadsWrittenCommands
  intro i
  have hi := i.instr_mnemonic_operand
  rw [assemble, Instr.line]
  cases hf : i.mnemonic.format with
  | Z =>
    have hop : i.operand = 0x00 := Mnemonic.mem_operands_iff.mp i.operand_mem_operands hf
    rw [hop] at hi
    simp only [writtenOfLine_text]
    simpa [Written.instr, Written.wellFormed, hf] using hi
  | B =>
    have hle : i.operand.toNat ≤ 255 := Nat.le_of_lt_succ i.operand.isLt
    simp only [writtenOfLine_text_operand]
    simp [Written.instr, Written.wellFormed, hf, hle, hi]

end Sys2Proof
end
